-- ==== Sys2Proof/Word.lean ====
section
/-! DEFINITION. The machine's word types. -/

namespace Sys2Proof

/-- One byte of data memory (20_memory.md R60). -/
abbrev Byte := BitVec 8

/-- A 16-bit register, or one `S16` element as it lies in data memory (00_scope.md R6). -/
abbrev Half := BitVec 16

/-- A 32-bit register or command word (00_scope.md R6, 30_encoding.md R90). -/
abbrev Word := BitVec 32

/-- The 128-bit value `COST3 ++ COST2 ++ COST1 ++ COST0` (10_state.md R41). -/
abbrev CostReg := BitVec 128

end Sys2Proof
end

