-- ==== Sys2Proof/Config.lean ====
section
/-! DEFINITION. What an implementation fixes (the open parameters of 00_scope.md R7) and the free values:
opaque constants, which nothing in Lean can evaluate. -/

namespace Sys2Proof

/-- A run of `bytes` byte addresses from `base`. -/
structure Region where
  base : Nat
  bytes : Nat
deriving DecidableEq, Repr, Inhabited

/-- The open parameters of 00_scope.md R7 (92_eei_decisions.md, "OPEN parameters, collected"). A table lists
its entries with the horizontal index fastest, as 10_state.md R42 numbers them. `MemValid` is given by its
complement: the byte addresses of `holes` are the ones that are not backed (log 2). -/
structure Params where
  ql8 : List Nat
  ql4 : List Nat
  qc4 : List Nat
  qc2 : List Nat
  idxMax : Nat
  alpha : List Nat
  beta : List Nat
  ctab : List Nat
  tYReset : Half
  tCReset : Half
  regBase : Word
  holes : List Region
deriving DecidableEq, Repr, Inhabited

/-- A quantiser table of `n` entries, each in 1..255 (00_scope.md R6, R7). -/
def Params.quantTableLegal (n : Nat) (t : List Nat) : Bool :=
  t.length == n && t.all fun q => decide (1 ≤ q) && decide (q ≤ 255)

/-- A deblocking table of `IDXMAX + 1` entries, each in 0..32767 (00_scope.md R6, R7). -/
def Params.deblockTableLegal (idxMax : Nat) (t : List Nat) : Bool :=
  t.length == idxMax + 1 && t.all fun v => decide (v ≤ 32767)

/-- The constraints that 00_scope.md R7 puts on the parameters. -/
def Params.legal (p : Params) : Bool :=
  Params.quantTableLegal 64 p.ql8 && Params.quantTableLegal 16 p.ql4
    && Params.quantTableLegal 16 p.qc4 && Params.quantTableLegal 4 p.qc2
    && decide (p.idxMax ≤ 63)
    && Params.deblockTableLegal p.idxMax p.alpha && Params.deblockTableLegal p.idxMax p.beta
    && Params.deblockTableLegal p.idxMax p.ctab
    && p.regBase.toNat % 4096 == 0

/-- The example assignment TC1 of 95_test_vectors.md section 0. `REGBASE` ("any" there) is put at
0xF0000000. It is an example for tests: nothing of the machine uses it. -/
def Params.tc1 : Params where
  ql8 := [ 8, 10, 12, 14, 16, 18, 20, 22, 10, 12, 14, 16, 18, 20, 22, 24,
          12, 14, 16, 18, 20, 22, 24, 26, 14, 16, 18, 20, 22, 24, 26, 28,
          16, 18, 20, 22, 24, 26, 28, 30, 18, 20, 22, 24, 26, 28, 30, 32,
          20, 22, 24, 26, 28, 30, 32, 34, 22, 24, 26, 28, 30, 32, 34, 36]
  ql4 := [8, 12, 16, 20, 12, 16, 20, 24, 16, 20, 24, 28, 20, 24, 28, 32]
  qc4 := [16, 20, 24, 28, 20, 24, 28, 32, 24, 28, 32, 36, 28, 32, 36, 40]
  qc2 := [16, 24, 24, 32]
  idxMax := 3
  alpha := [0, 4, 8, 16]
  beta := [0, 2, 4, 6]
  ctab := [0, 1, 2, 4]
  tYReset := 1
  tCReset := 2
  regBase := 0xF0000000
  holes := []

/-- A parameter assignment together with its legality. The default fields only show that one exists. -/
structure Platform where
  params : Params := Params.tc1
  legal : params.legal = true := by decide
deriving Inhabited

/-- The parameters of the implementation at hand: any legal assignment (log 1). -/
opaque Config.platform : Platform

/-- What the byte at a data address that nothing has written holds (10_state.md R52: "unspecified (any value)
until the host writes them"; log 3). -/
opaque Config.powerOnByte : Nat → Byte

/-- An unspecified `S16` element (log 5): after `E_BUS` (60_exceptions.md R209), after a race
(20_memory.md R77), after a reset in flight (70_reset_and_hazards.md R232). -/
opaque Config.freeElem : Nat → Half

/-- An unspecified value of the cost registers after a race (20_memory.md R77; log 6). -/
opaque Config.freeCost : Nat → CostReg

/-- An unspecified candidate cost of a search the host raced with, by the tag of the reference and the position:
what such a search compares (20_memory.md R77; log 26). -/
opaque Config.racedCost : Nat → Int → Int → Int → Nat

/-- An unspecified choice between two outcomes (20_memory.md R72, R77; log 6, log 8, log 25). -/
opaque Config.freeBool : Nat → Bool

end Sys2Proof
end

