-- ==== Sys2Proof/Syntax.lean ====
section
/-! DEFINITION. The commands: one constructor per row of spec/opcode_table.json (30_encoding.md R98). -/

namespace Sys2Proof

/-- The quantiser table selector `QSEL` (30_encoding.md R93): luma, chroma, unity. -/
inductive QSel where
  | l | c | u
deriving DecidableEq, Repr

/-- The raster selector `RSEL` of EXTRACT (30_encoding.md R95). -/
inductive RSel where
  | cur | comp | ref
deriving DecidableEq, Repr

/-- A command with the fields it uses. `sz` is the size exponent `SZ` (30_encoding.md R92), carried whole: a
value outside the command's legal set is a command that faults with `E_SIZE` (log 12). -/
inductive Instr where
  | nop
  | fdctq (sz : BitVec 4) (t : QSel)
  | dqidct (sz : BitVec 4) (t : QSel)
  | xfwd (sz : BitVec 4)
  | xinv (sz : BitVec 4)
  | extract (sz : BitVec 4) (r : RSel)
  | cost (sz : BitVec 4) (alpha : Bool)
  | msearch (sz : BitVec 4)
  | resid (sz : BitVec 4)
  | mc (sz : BitVec 4)
  | intra (sz : BitVec 4)
  | dblk (sz : BitVec 4)
  | refpush
  | refclr
deriving DecidableEq, Repr

end Sys2Proof
end

