-- ==== Sys2Proof/WellFormed.lean ====
section
/-! DEFINITION. Which commands name a size, and a table, that exist (30_encoding.md R92, R93). -/

namespace Sys2Proof

/-- The block commands' legal size exponents: 2..7, that is 4 to 128 (30_encoding.md R92). -/
def Instr.blockSizeOk (sz : BitVec 4) : Bool :=
  decide (2 ≤ sz.toNat) && decide (sz.toNat ≤ 7)

/-- The plane commands' legal pairs of size exponent and selector (30_encoding.md R93). -/
def Instr.planePairOk (sz : BitVec 4) (t : QSel) : Bool :=
  match t with
  | .l => sz == 3 || sz == 2
  | .c => sz == 2 || sz == 1
  | .u => sz == 3 || sz == 2 || sz == 1

/-- A command whose size is legal and whose table exists. -/
def Instr.wellFormed : Instr → Bool
  | .nop => true
  | .fdctq sz t => Instr.planePairOk sz t
  | .dqidct sz t => Instr.planePairOk sz t
  | .xfwd sz => Instr.blockSizeOk sz
  | .xinv sz => Instr.blockSizeOk sz
  | .extract sz _ => Instr.blockSizeOk sz
  | .cost sz _ => Instr.blockSizeOk sz
  | .msearch sz => Instr.blockSizeOk sz
  | .resid sz => Instr.blockSizeOk sz
  | .mc sz => Instr.blockSizeOk sz
  | .intra sz => Instr.blockSizeOk sz
  | .dblk sz => Instr.blockSizeOk sz
  | .refpush => true
  | .refclr => true

end Sys2Proof
end

