-- ==== Sys2Proof/Decode.lean ====
section
/-! DEFINITION. The command word (30_encoding.md R90 to R99): the decoder, total on every word and rejecting
by name, and the encoder. A rejected word is one that faults with `E_ILLEGAL` (60_exceptions.md R201). -/

namespace Sys2Proof

/-- Why a word is no encoding of a command (60_exceptions.md R201 names each). `badLength` is raised for a byte
string that is not the four lanes of one `CMD` write (30_encoding.md R100); no 32-bit word raises it. -/
inductive DecodeError where
  | unassigned (opc : Byte)
  | reservedBits
  | reservedQsel
  | reservedRsel
  | unusedSz
  | unusedQsel
  | unusedA
  | unusedRsel
  | badLength
deriving DecidableEq, Repr

/-- `OPC = w[7:0]` (30_encoding.md R90). -/
def opcField (w : Word) : Byte := w.extractLsb' 0 8

/-- `SZ = w[11:8]`. -/
def szField (w : Word) : BitVec 4 := w.extractLsb' 8 4

/-- `QSEL = w[13:12]`. -/
def qselField (w : Word) : BitVec 2 := w.extractLsb' 12 2

/-- `A = w[14]`. -/
def aField (w : Word) : BitVec 1 := w.extractLsb' 14 1

/-- `RSEL = w[16:15]`. -/
def rselField (w : Word) : BitVec 2 := w.extractLsb' 15 2

/-- The reserved bits `w[31:17]`. -/
def topField (w : Word) : BitVec 15 := w.extractLsb' 17 15

/-- `SZ` must be 0 in NOP, REFPUSH and REFCLR (30_encoding.md R97). -/
def szUnused (w : Word) (k : Except DecodeError Instr) : Except DecodeError Instr :=
  if szField w = 0 then k else .error .unusedSz

/-- `QSEL` must be 0 except in FDCTQ and DQIDCT; 3 is reserved everywhere (30_encoding.md R93, R97). -/
def qselUnused (w : Word) (k : Except DecodeError Instr) : Except DecodeError Instr :=
  if qselField w = 0 then k else .error .unusedQsel

/-- `A` must be 0 except in COST (30_encoding.md R97). -/
def aUnused (w : Word) (k : Except DecodeError Instr) : Except DecodeError Instr :=
  if aField w = 0 then k else .error .unusedA

/-- `RSEL` must be 0 except in EXTRACT (30_encoding.md R97). -/
def rselUnused (w : Word) (k : Except DecodeError Instr) : Except DecodeError Instr :=
  if rselField w = 0 then k else .error .unusedRsel

/-- A command that uses no field. -/
def decodePlain (w : Word) (i : Instr) : Except DecodeError Instr :=
  szUnused w <| qselUnused w <| aUnused w <| rselUnused w <| .ok i

/-- A block command that uses `SZ` only. -/
def decodeBlock (w : Word) (f : BitVec 4 → Instr) : Except DecodeError Instr :=
  qselUnused w <| aUnused w <| rselUnused w <| .ok (f (szField w))

/-- FDCTQ and DQIDCT: `SZ` and `QSEL`, whose value 3 is reserved (30_encoding.md R93). -/
def decodePlane (w : Word) (f : BitVec 4 → QSel → Instr) : Except DecodeError Instr :=
  aUnused w <| rselUnused w <|
    if qselField w = 0 then .ok (f (szField w) .l)
    else if qselField w = 1 then .ok (f (szField w) .c)
    else if qselField w = 2 then .ok (f (szField w) .u)
    else .error .reservedQsel

/-- EXTRACT: `SZ` and `RSEL`, whose value 3 is reserved (30_encoding.md R95). -/
def decodeExtract (w : Word) : Except DecodeError Instr :=
  qselUnused w <| aUnused w <|
    if rselField w = 0 then .ok (.extract (szField w) .cur)
    else if rselField w = 1 then .ok (.extract (szField w) .comp)
    else if rselField w = 2 then .ok (.extract (szField w) .ref)
    else .error .reservedRsel

/-- COST: `SZ` and `A` (30_encoding.md R94). -/
def decodeCost (w : Word) : Except DecodeError Instr :=
  qselUnused w <| rselUnused w <| .ok (.cost (szField w) (aField w == 1))

/-- The decoder of 30_encoding.md R98, up to the size check, which is the command's own (log 12). -/
def decode (w : Word) : Except DecodeError Instr :=
  if topField w ≠ 0 then .error .reservedBits
  else match (opcField w).toNat with
    | 0x00 => decodePlain w .nop
    | 0x01 => decodePlane w .fdctq
    | 0x02 => decodePlane w .dqidct
    | 0x03 => decodeBlock w .xfwd
    | 0x04 => decodeBlock w .xinv
    | 0x08 => decodeExtract w
    | 0x09 => decodeCost w
    | 0x0A => decodeBlock w .msearch
    | 0x0B => decodeBlock w .resid
    | 0x10 => decodeBlock w .mc
    | 0x11 => decodeBlock w .intra
    | 0x12 => decodeBlock w .dblk
    | 0x18 => decodePlain w .refpush
    | 0x19 => decodePlain w .refclr
    | _ => .error (.unassigned (opcField w))

/-- The word on the four byte lanes of a `CMD` write, bits 7:0 in the lowest lane (20_memory.md R61). -/
def wordOfLanes (b0 b1 b2 b3 : Byte) : Word := b3 ++ b2 ++ b1 ++ b0

/-- The decoder on bytes, total: a command is exactly four of them (30_encoding.md R100). -/
def decodeBytes : List Byte → Except DecodeError Instr
  | [b0, b1, b2, b3] => decode (wordOfLanes b0 b1 b2 b3)
  | _ => .error .badLength

/-- The `QSEL` field of a selector (30_encoding.md R93). -/
def QSel.bits : QSel → BitVec 2
  | .l => 0
  | .c => 1
  | .u => 2

/-- The `RSEL` field of a selector (30_encoding.md R95). -/
def RSel.bits : RSel → BitVec 2
  | .cur => 0
  | .comp => 1
  | .ref => 2

/-- The format of 30_encoding.md R90: zero[31:17], RSEL, A, QSEL, SZ, OPC. -/
def packWord (rsel : BitVec 2) (a : BitVec 1) (qsel : BitVec 2) (sz : BitVec 4) (opc : Byte) : Word :=
  (0 : BitVec 15) ++ rsel ++ a ++ qsel ++ sz ++ opc

/-- The word of a command (30_encoding.md R98). -/
def encode : Instr → Word
  | .nop => packWord 0 0 0 0 0x00
  | .fdctq sz t => packWord 0 0 t.bits sz 0x01
  | .dqidct sz t => packWord 0 0 t.bits sz 0x02
  | .xfwd sz => packWord 0 0 0 sz 0x03
  | .xinv sz => packWord 0 0 0 sz 0x04
  | .extract sz r => packWord r.bits 0 0 sz 0x08
  | .cost sz a => packWord 0 (BitVec.ofBool a) 0 sz 0x09
  | .msearch sz => packWord 0 0 0 sz 0x0A
  | .resid sz => packWord 0 0 0 sz 0x0B
  | .mc sz => packWord 0 0 0 sz 0x10
  | .intra sz => packWord 0 0 0 sz 0x11
  | .dblk sz => packWord 0 0 0 sz 0x12
  | .refpush => packWord 0 0 0 0 0x18
  | .refclr => packWord 0 0 0 0 0x19

/-- The four lanes that carry the instruction whose bits the opcode table numbers from bit 0 of `w`, `nbits`
of them, every bit above being 0. -/
def tableLanes (nbits w : Nat) : List Byte :=
  let v := w % 2 ^ nbits
  [BitVec.ofNat 8 v, BitVec.ofNat 8 (v / 256), BitVec.ofNat 8 (v / 65536), BitVec.ofNat 8 (v / 16777216)]

/-- The instruction the decoder reads from an opcode-table word. -/
def decodeTableWord (nbits w : Nat) : Option Instr :=
  match decodeBytes (tableLanes nbits w) with
  | .ok i => some i
  | .error _ => none

end Sys2Proof
end

