-- ==== Sys2Proof/Machine/State.lean ====
section
/-! DEFINITION. The machine's state (10_state.md), the reasons a step can stop, and the state after reset. -/

namespace Sys2Proof.Machine

/-- The fault codes (60_exceptions.md R200), in the order in which they are decided (R212). -/
inductive ErrCode where
  | illegal
  | size
  | config
  | ref
  | null
  | align
  | pos
  | addr
  | bus
  | range
deriving DecidableEq, Repr

/-- Why the machine stops with a fault. A command's own faults (60_exceptions.md R200) are no stops: they are
next states. -/
inductive Fault where
  /-- Raised by a host event that reads or writes the data-memory byte at `addr`, which is not backed
  (`MemValid` false) or lies past 2^32 (20_memory.md R60, R70; log 11). Safe: the model stops where the
  platform may do anything. -/
  | hostUnbacked (addr : Nat)
deriving DecidableEq, Repr

/-- Why the machine refuses a step. -/
inductive Refusal where
  /-- Raised by an arm of `exec` whose command has no meaning yet. Safe. -/
  | notModelled (mnemonic : String)
  /-- Raised by a host access that touches the register window and is not an aligned 32-bit access
  (10_state.md R23: "a model refuses it"; log 10). Safe. -/
  | windowAccess
  /-- Raised by a command that reads or writes data memory through a base register that points into the register
  window (20_memory.md R60: "a model refuses it"; log 9). Safe. -/
  | windowAsData
deriving DecidableEq, Repr

/-- Data memory: the bytes that have been written, addresses strictly rising. An unlisted address holds no
written value (log 3). -/
abbrev Memory := List Host.Cell

/-- The base addresses of a raster's three planes (20_memory.md R64). -/
structure Raster where
  y : Word
  u : Word
  v : Word
deriving DecidableEq, Repr

/-- The null raster: what the base registers hold after reset (10_state.md R52). -/
def Raster.null : Raster := ⟨0, 0, 0⟩

/-- The twenty-four operand registers (10_state.md R21, R29 to R40). -/
structure Operands where
  frameW : Half
  frameH : Half
  cur : Raster
  comp : Raster
  la : Raster
  push : Raster
  vPosX : Half
  vPosY : Half
  vSpanX : Half
  vSpanY : Half
  vRef : Half
  src : Word
  dst : Word
  tY : Half
  tC : Half
  dbkStrength : Byte
deriving DecidableEq, Repr

/-- The reference table: four slots, the most recent first, and `REFCNT` (10_state.md R34). -/
structure RefTable where
  slot0 : Raster
  slot1 : Raster
  slot2 : Raster
  slot3 : Raster
  count : BitVec 3
deriving DecidableEq, Repr

/-- The stored bits of `CTRL` (10_state.md R25). -/
structure Ctrl where
  ieDone : Bool
  ieErr : Bool
  laEn : Bool
deriving DecidableEq, Repr

/-- The five flags of `STATUS` (10_state.md R26); `matched` is `MATCH`. -/
structure Status where
  busy : Bool
  done : Bool
  err : Bool
  matched : Bool
  ovr : Bool
deriving DecidableEq, Repr

/-- The in-flight command latch (10_state.md R48). -/
structure Latch where
  word : Word
  laEn : Bool
  regs : Operands
  refs : RefTable
deriving DecidableEq, Repr

/-- The width of a bus access of the host. -/
inductive BusSize where
  | byte | half | word
deriving DecidableEq, Repr

/-- What the world outside the core does next (log 4). -/
inductive HostEvent where
  /-- The host writes the low `size` of `data` at a byte address: a register of the window or data memory. -/
  | write (addr : Word) (size : BusSize) (data : Word)
  /-- The host reads at a byte address; the result is left in `rdata`. -/
  | read (addr : Word) (size : BusSize)
  /-- The platform asserts hardware reset (70_reset_and_hazards.md R230). -/
  | hardReset
  /-- The platform answers the command in flight with a bus error at this byte address
  (60_exceptions.md R209; log 23). -/
  | busError (addr : Word)
  /-- The core has its turn: the command in flight completes (10_state.md R50). -/
  | coreTurn
deriving DecidableEq, Repr

/-- Everything the spec gives the machine (10_state.md R20), and the model's own fields (the last five; log 4,
log 5). `cfg` holds the platform's parameters, which nothing writes (log 1). -/
structure State where
  cfg : Params
  ctrl : Ctrl
  status : Status
  cmd : Word
  errCode : Option ErrCode
  errInfo : Word
  regs : Operands
  refs : RefTable
  cost : CostReg
  latch : Latch
  mem : Memory
  inbox : List HostEvent
  rdata : Word
  raced : Bool
  busRefused : List Nat
  freeCtr : Nat
deriving DecidableEq, Repr

/-- The operand registers after reset (10_state.md R52): all 0 but the two thresholds (R39). -/
def Operands.reset (p : Params) : Operands where
  frameW := 0
  frameH := 0
  cur := Raster.null
  comp := Raster.null
  la := Raster.null
  push := Raster.null
  vPosX := 0
  vPosY := 0
  vSpanX := 0
  vSpanY := 0
  vRef := 0
  src := 0
  dst := 0
  tY := p.tYReset
  tC := p.tCReset
  dbkStrength := 0

/-- The empty reference table (10_state.md R34). -/
def RefTable.empty : RefTable := ⟨Raster.null, Raster.null, Raster.null, Raster.null, 0⟩

/-- `CTRL` after reset (10_state.md R25). -/
def Ctrl.reset : Ctrl := ⟨false, false, false⟩

/-- `STATUS` after reset (10_state.md R26). -/
def Status.reset : Status := ⟨false, false, false, false, false⟩

/-- The latch with no command in it (70_reset_and_hazards.md R230: "the in-flight latch is empty"). Its
register fields are not observable; they are zero (log 13). -/
def Latch.empty : Latch :=
  ⟨0, false,
    ⟨0, 0, Raster.null, Raster.null, Raster.null, Raster.null, 0, 0, 0, 0, 0, 0, 0, 0, 0, 0⟩, RefTable.empty⟩

/-- The machine of a platform with parameters `p`, just out of hardware reset with nothing in memory yet
(10_state.md R52, 70_reset_and_hazards.md R230). -/
def State.powerOn (p : Params) : State where
  cfg := p
  ctrl := Ctrl.reset
  status := Status.reset
  cmd := 0
  errCode := none
  errInfo := 0
  regs := Operands.reset p
  refs := RefTable.empty
  cost := 0
  latch := Latch.empty
  mem := []
  inbox := []
  rdata := 0
  raced := false
  busRefused := []
  freeCtr := 0

/-- The machine right after reset, on the platform at hand (log 1). -/
def State.reset : State := State.powerOn Config.platform.params

end Sys2Proof.Machine
end

