-- ==== Sys2Proof/Machine/Arith.lean ====
section
/-! DEFINITION. The integer operators of 00_scope.md R9 and R14, and finite sums. `a div b` with `b > 0` is
Lean's `a / b` on `Int` (floor for a positive divisor), and `a >> k` is `a / 2 ^ k`. -/

namespace Sys2Proof.Machine

/-- `RN(n, d)`: `n / d` rounded to the nearest integer, ties away from zero (00_scope.md R9). -/
def rn (n : Int) (d : Nat) : Int :=
  let q := (2 * n.natAbs + d) / (2 * d)
  if n < 0 then -(q : Int) else (q : Int)

/-- `clip3(lo, hi, v)` (00_scope.md R9). -/
def clip3 (lo hi v : Int) : Int :=
  if v < lo then lo else if hi < v then hi else v

/-- Whether `S16chk` lets a value pass (00_scope.md R14). -/
def s16ok (v : Int) : Bool :=
  decide (-32768 ≤ v) && decide (v ≤ 32767)

/-- The sum of `f 0, …, f (n - 1)`. -/
def sumTo : Nat → (Nat → Int) → Int
  | 0, _ => 0
  | n + 1, f => sumTo n f + f n

/-- The sum of the natural numbers `f 0, …, f (n - 1)`. -/
def sumNat : Nat → (Nat → Nat) → Nat
  | 0, _ => 0
  | n + 1, f => sumNat n f + f n

/-- A plane of integers: the value at `(x, y)`, `x` horizontal (00_scope.md R10). -/
abbrev Plane := Nat → Nat → Int

/-- The positions of an `n × n` plane, row by row, `x` fastest. -/
def cells (n : Nat) : List (Nat × Nat) :=
  (List.range n).flatMap fun y => (List.range n).map fun x => (x, y)

end Sys2Proof.Machine
end

