-- ==== Sys2Proof/Machine/Ops.lean ====
section
/-! DEFINITION. Data memory, launch, the two completions (success, and the error latch that takes the place of
exception entry), the reset that takes the place of a return, and the frame every memory command runs in. -/

namespace Sys2Proof.Machine

/-- The byte written at an address, if any. -/
def Memory.find : Memory → Nat → Option Byte
  | [], _ => none
  | (k, b) :: rest, a => if k = a then some b else Memory.find rest a

/-- The byte a data address holds: the one written last, and a free value if none was (log 3). -/
def Memory.byte (m : Memory) (a : Nat) : Byte :=
  (Memory.find m a).getD (Config.powerOnByte a)

/-- Store one byte, keeping the addresses strictly rising. -/
def Memory.setByte : Memory → Nat → Byte → Memory
  | [], a, b => [(a, b)]
  | (k, c) :: rest, a, b =>
    if a < k then (a, b) :: (k, c) :: rest
    else if a = k then (a, b) :: rest
    else (k, c) :: Memory.setByte rest a b

/-- The canonical form: addresses strictly rising. -/
def Memory.wf (m : Memory) : Bool :=
  decide (List.Pairwise (· < ·) (m.map Prod.fst))

/-- `MemRead(a, 2)` before it is read as a signed number: low byte at `a` (00_scope.md R12, 20_memory.md R61). -/
def Memory.half (m : Memory) (a : Nat) : Half :=
  Memory.byte m (a + 1) ++ Memory.byte m a

/-- `MemRead(a, 2)`: the `S16` element at `a` (00_scope.md R12). -/
def Memory.elem (m : Memory) (a : Nat) : Int :=
  (Memory.half m a).toInt

/-- Store the two bytes of an element, the low byte at `a` (20_memory.md R61). -/
def Memory.setHalf (m : Memory) (a : Nat) (v : Half) : Memory :=
  Memory.setByte (Memory.setByte m a (v.extractLsb' 0 8)) (a + 1) (v.extractLsb' 8 8)

/-- `MemWrite(a, 2, v)` (00_scope.md R12). -/
def Memory.setElem (m : Memory) (a : Nat) (v : Int) : Memory :=
  Memory.setHalf m a (BitVec.ofInt 16 v)

/-- The writes of one command, `(address, value)`. Where two of them hit the same element, the value left is
either of the two (20_memory.md R72; log 8): `seen` holds the elements already written, `ctr` picks. -/
def Memory.storeAll (ctr : Nat) (seen : List Nat) : Memory → List (Nat × Int) → Memory
  | m, [] => m
  | m, (a, v) :: rest =>
    if seen.contains a && Config.freeBool ctr then Memory.storeAll (ctr + 1) seen m rest
    else Memory.storeAll (ctr + 1) (a :: seen) (Memory.setElem m a v) rest

/-- Whether a byte address lies in a region. -/
def Region.contains (r : Region) (a : Nat) : Bool :=
  decide (r.base ≤ a) && decide (a < r.base + r.bytes)

/-- Whether two regions share a byte address. -/
def Region.overlaps (r q : Region) : Bool :=
  decide (max r.base q.base < min (r.base + r.bytes) (q.base + q.bytes))

/-- The two bytes of the element at `a`. -/
def elemRegion (a : Nat) : Region := ⟨a, 2⟩

/-- The register window (20_memory.md R60). -/
def Params.window (p : Params) : Region := ⟨p.regBase.toNat, 4096⟩

/-- `MemValid` (00_scope.md R7): the address is in no hole. -/
def Params.memValid (p : Params) (a : Nat) : Bool :=
  !p.holes.any fun h => Region.contains h a

/-- Whether a byte address is backed by data memory that the core's master port reaches (20_memory.md R60:
"the register window is not part of the data memory as the core sees it"). -/
def Params.backed (p : Params) (a : Nat) : Bool :=
  decide (a < 2 ^ 32) && Params.memValid p a && !Region.contains (Params.window p) a

/-- Whether the platform refuses a data access of the command in flight: `MemValid` is false at one of its bytes,
in a hole or in the register window, which "is outside it as far as the core's master port is concerned"
(92_eei_decisions.md, OPEN parameters), or the bus signals an error there (20_memory.md R70, 60_exceptions.md
R209). -/
def State.accessRefused (s : State) (r : Region) : Bool :=
  (s.cfg.holes.any fun h => Region.overlaps r h) || Region.overlaps r (Params.window s.cfg)
    || s.busRefused.any fun a => Region.contains r a

/-- Whether a base register points into the register window (20_memory.md R60, 93_implementation_defined.md
U8). -/
def State.baseInWindow (s : State) (b : Word) : Bool :=
  Region.contains (Params.window s.cfg) b.toNat

/-- Store a byte where data memory is backed, and nowhere else. -/
def Memory.setBacked (p : Params) (m : Memory) (a : Nat) (b : Byte) : Memory :=
  if Params.backed p a then Memory.setByte m a b else m

/-- Every element of a list takes an unspecified value: the footprint after `E_BUS` (60_exceptions.md R209) or
after a reset in flight (70_reset_and_hazards.md R232). -/
def Memory.scramble (p : Params) (ctr : Nat) : Memory → List Nat → Memory
  | m, [] => m
  | m, a :: rest =>
    let v := Config.freeElem ctr
    Memory.scramble p (ctr + 1)
      (Memory.setBacked p (Memory.setBacked p m a (v.extractLsb' 0 8)) (a + 1) (v.extractLsb' 8 8)) rest

/-- Launch of a command word (10_state.md R50): `CMD` takes it, `DONE` falls, `BUSY` rises, the latch of R48 is
filled. -/
def State.launch (w : Word) (s : State) : State :=
  { s with
    cmd := w
    status := { s.status with done := false, busy := true }
    latch := ⟨w, s.ctrl.laEn, s.regs, s.refs⟩
    raced := false
    busRefused := [] }

/-- What every completion does: `BUSY` falls and the latch is empty again (log 13). -/
def State.retire (s : State) : State :=
  { s with
    status := { s.status with busy := false }
    latch := Latch.empty
    raced := false
    busRefused := [] }

/-- TAKING A FAULT: the error latch of 60_exceptions.md R210. `BUSY` falls, `ERR` rises, `ERRCODE` takes the
code, `ERRINFO` the command word; nothing else. -/
def State.trap (e : ErrCode) (s : State) : State :=
  { State.retire s with
    status := { s.status with busy := false, err := true }
    errCode := some e
    errInfo := s.latch.word }

/-- Successful completion (10_state.md R50 (a)): `BUSY` falls, `DONE` rises. -/
def State.finish (s : State) : State :=
  { State.retire s with
    status := { s.status with busy := false, done := true } }

/-- THE WAY BACK from a fault (60_exceptions.md R213): every register and flag takes its reset value
(10_state.md R52), the latch is empty. Data memory, the parameters and the host's events are not touched here;
what a reset does to the footprint of an abandoned command is `State.resetCore` of Machine/HostPort.lean. -/
def State.resetRegs (s : State) : State :=
  { s with
    ctrl := Ctrl.reset
    status := Status.reset
    cmd := 0
    errCode := none
    errInfo := 0
    regs := Operands.reset s.cfg
    refs := RefTable.empty
    cost := 0
    latch := Latch.empty
    raced := false
    busRefused := [] }

/-- The result registers a command writes at its successful completion (10_state.md R41, R36, R37, R26). -/
inductive Results where
  | keep
  | cost (c : CostReg)
  | search (matched : Bool) (spanX spanY vRef : Half) (c : CostReg)
deriving DecidableEq, Repr

/-- Write the result registers. -/
def State.applyResults (r : Results) (s : State) : State :=
  match r with
  | .keep => s
  | .cost c => { s with cost := c }
  | .search found dx dy ref c =>
    { s with
      status := { s.status with matched := found }
      regs := { s.regs with vSpanX := dx, vSpanY := dy, vRef := ref }
      cost := c }

/-- One memory command, its codes 1 to 8 decided: the base registers of the rasters and buffers that 20_memory.md
R69 gives it, the accesses it reads with, its read and write footprints (R69), whether it can raise `E_RANGE`, its
writes (`none` when a result fails `S16chk`) and its result registers. -/
structure Job where
  bases : List Word
  reads : List Region
  readFoot : List Region
  foot : List Nat
  ranges : Bool
  writes : Option (List (Nat × Int))
  results : Results

/-- `E_BUS` (60_exceptions.md R209): the fault that is not precise. Every element of the write footprint holds
an unspecified value. -/
def State.busFault (foot : List Nat) (s : State) : State :=
  { State.trap .bus s with
    mem := Memory.scramble s.cfg s.freeCtr s.mem foot
    freeCtr := s.freeCtr + foot.length }

/-- Successful completion with these writes and results (10_state.md R50 (a), 20_memory.md R76). -/
def State.succeed (writes : List (Nat × Int)) (r : Results) (s : State) : State :=
  State.finish (State.applyResults r
    { s with
      mem := Memory.storeAll s.freeCtr [] s.mem writes
      freeCtr := s.freeCtr + writes.length })

/-- The writing phase: a write that the platform refuses is `E_BUS` (60_exceptions.md R212). -/
def State.commit (foot : List Nat) (writes : List (Nat × Int)) (r : Results) (s : State) : State :=
  if writes.any fun w => State.accessRefused s (elemRegion w.1) then State.busFault foot s
  else State.succeed writes r s

/-- The result registers of a command the host raced with: the same registers, unspecified values
(20_memory.md R77; log 6). -/
def Results.raced (ctr : Nat) : Results → Results
  | .keep => .keep
  | .cost _ => .cost (Config.freeCost ctr)
  | .search _ _ _ _ _ =>
    .search (Config.freeBool ctr) (Config.freeElem ctr) (Config.freeElem (ctr + 1)) (Config.freeElem (ctr + 2))
      (Config.freeCost ctr)

/-- Unspecified values for every element of a footprint. -/
def freeWrites : Nat → List Nat → List (Nat × Int)
  | _, [] => []
  | ctr, a :: rest => (a, (Config.freeElem ctr).toInt) :: freeWrites (ctr + 1) rest

/-- Completion of a command whose footprint the host wrote while it ran (20_memory.md R77; log 6): every
element it writes, every result register and whether it faults with `E_RANGE` are unspecified; its accesses and
`E_BUS` are not (60_exceptions.md R209). -/
def State.performRaced (j : Job) (s : State) : State :=
  let c := s.freeCtr
  let t := { s with freeCtr := c + j.foot.length + 8 }
  if j.reads.any (State.accessRefused s) then State.busFault j.foot t
  else if j.ranges && Config.freeBool (c + 1) then State.trap .range t
  else State.commit j.foot (freeWrites (c + 3) j.foot) (Results.raced (c + 2) j.results) t

/-- Completion of a command nobody raced with: `E_BUS` on a read, then `E_RANGE`, then `E_BUS` on a write, then
success (60_exceptions.md R212, 20_memory.md R76). -/
def State.performQuiet (j : Job) (s : State) : State :=
  if j.reads.any (State.accessRefused s) then State.busFault j.foot s
  else match j.writes with
    | none => State.trap .range s
    | some ws => State.commit j.foot ws j.results s

/-- The execution of a memory command whose codes 1 to 8 passed. If a base register of one of its rasters or buffers
points into the register window, its accesses have no defined meaning (20_memory.md R60, 93_implementation_defined.md
U8); which base registers count, and when this is decided, is the model's choice (DESIGN CHOICE, log 9). -/
def State.perform (j : Job) (s : State) : Host.Outcome State Fault Refusal :=
  if j.bases.any (State.baseInWindow s) then .refused .windowAsData
  else if s.raced then .next (State.performRaced j s)
  else .next (State.performQuiet j s)

/-- The completion of a memory command: the fault of the first failed check among codes 2 to 8, decided before
any data access (60_exceptions.md R212), else its execution. -/
def State.runCommand (check : Option ErrCode) (j : Job) (s : State) : Host.Outcome State Fault Refusal :=
  match check with
  | some e => .next (State.trap e s)
  | none => State.perform j s

/-- The first failed check of a list in order (60_exceptions.md R212). -/
def firstFail : List (Bool × ErrCode) → Option ErrCode
  | [] => none
  | (bad, e) :: rest => if bad then some e else firstFail rest

/-- The writes, if every value passes `S16chk` (00_scope.md R14: all results are checked before any is
written). -/
def checkedWrites (ws : List (Nat × Int)) : Option (List (Nat × Int)) :=
  if ws.all fun w => s16ok w.2 then some ws else none

end Sys2Proof.Machine
end

