-- ==== Sys2Proof/Machine/Operands.lean ====
section
/-! DEFINITION. How commands read their operands: sizes, positions, rasters, the reference table, the layouts
of 20_memory.md R64 to R68, and the checks on base registers. -/

namespace Sys2Proof.Machine

/-- `2 ^ SZ` (30_encoding.md R92). -/
def blockSize (sz : BitVec 4) : Nat := 2 ^ sz.toNat

/-- The block commands' legal sizes, `N` in 4..128 (30_encoding.md R92). -/
def blockSizeLegal (sz : BitVec 4) : Bool :=
  decide (2 ≤ sz.toNat) && decide (sz.toNat ≤ 7)

/-- The table of a pair `(m, QSEL)` exists (30_encoding.md R93). -/
def tableExists (sz : BitVec 4) : QSel → Bool
  | .l => sz.toNat == 3 || sz.toNat == 2
  | .c => sz.toNat == 2 || sz.toNat == 1
  | .u => sz.toNat == 3 || sz.toNat == 2 || sz.toNat == 1

/-- A frame dimension: a multiple of 4 in 4..16384 (10_state.md R29). -/
def frameDimLegal (d : Half) : Bool :=
  d.toNat % 4 == 0 && decide (4 ≤ d.toNat) && decide (d.toNat ≤ 16384)

/-- Both frame dimensions are legal (60_exceptions.md R203). -/
def frameLegal (o : Operands) : Bool :=
  frameDimLegal o.frameW && frameDimLegal o.frameH

/-- `FRAME_W` as a number. -/
def Operands.w (o : Operands) : Nat := o.frameW.toNat

/-- `FRAME_H` as a number. -/
def Operands.h (o : Operands) : Nat := o.frameH.toNat

/-- `Sx` (41_motion_search.md R141). -/
def Operands.sx (o : Operands) : Int := o.vPosX.toInt

/-- `Sy` (41_motion_search.md R141). -/
def Operands.sy (o : Operands) : Int := o.vPosY.toInt

/-- `Mx = Sx - span` (41_motion_search.md R141). -/
def Operands.mx (o : Operands) : Int := o.vPosX.toInt - o.vSpanX.toInt

/-- `My = Sy - span` (41_motion_search.md R141). -/
def Operands.my (o : Operands) : Int := o.vPosY.toInt - o.vSpanY.toInt

/-- Slot `n` of the reference table (10_state.md R34). -/
def RefTable.slot (t : RefTable) : Nat → Raster
  | 0 => t.slot0
  | 1 => t.slot1
  | 2 => t.slot2
  | _ => t.slot3

/-- `Resolve(V_REF)` (10_state.md R37); `none` is `E_REF`. -/
def Latch.resolve (l : Latch) : Option Raster :=
  let r := l.regs.vRef.toInt
  if 1 ≤ r ∧ r ≤ 4 ∧ 4 - r < (l.refs.count.toNat : Int) then some (RefTable.slot l.refs (4 - r).toNat)
  else if r = -1 ∧ l.laEn = true then some l.regs.la
  else none

/-- The three base registers of a raster. -/
def Raster.bases (r : Raster) : List Word := [r.y, r.u, r.v]

/-- The base registers that resolving `V_REF` puts under the null and alignment checks: `LA_*` for -1, none for
a slot, which was checked when pushed (60_exceptions.md R204, R205; log 14). -/
def Latch.resolvedBases (l : Latch) : List Word :=
  if l.regs.vRef.toInt = -1 then Raster.bases l.regs.la else []

/-- A base register holds the null value 0 (60_exceptions.md R204). -/
def anyNull (bs : List Word) : Bool := bs.any fun b => b == 0

/-- A base register is odd (60_exceptions.md R205). -/
def anyOdd (bs : List Word) : Bool := bs.any fun b => b.toNat % 2 == 1

/-- A region passes the top of the address space (20_memory.md R70, 60_exceptions.md R208). -/
def anyPastTop (rs : List Region) : Bool := rs.any fun r => decide (2 ^ 32 < r.base + r.bytes)

/-- The three whole planes of a raster (20_memory.md R64). -/
def Operands.rasterRegions (o : Operands) (r : Raster) : List Region :=
  [⟨r.y.toNat, 2 * o.w * o.h⟩,
   ⟨r.u.toNat, 2 * (o.w / 2) * (o.h / 2)⟩,
   ⟨r.v.toNat, 2 * (o.w / 2) * (o.h / 2)⟩]

/-- The planes of the raster `V_REF` resolves to; none if it resolves to nothing. -/
def Latch.resolvedRegions (l : Latch) : List Region :=
  match Latch.resolve l with
  | some r => Operands.rasterRegions l.regs r
  | none => []

/-- A buffer named by `SRC` or `DST`. -/
def bufferRegion (b : Word) (bytes : Nat) : Region := ⟨b.toNat, bytes⟩

/-- The address of sample `(x, y)` of a row-major plane of width `w` at base `b` (20_memory.md R64, R65). -/
def planeAddr (b w x y : Nat) : Nat := b + 2 * (y * w + x)

/-- The element addresses of an `m × m` plane at `b` (20_memory.md R65). -/
def planeAddrs (b m : Nat) : List Nat := (cells m).map fun c => planeAddr b m c.1 c.2

/-- An `m × m` plane as it lies in memory at `b` (20_memory.md R65). -/
def Memory.plane (mem : Memory) (b m : Nat) : Plane := fun x y => Memory.elem mem (planeAddr b m x y)

/-- The writes that store an `m × m` plane at `b` (20_memory.md R65). -/
def planeWrites (b m : Nat) (p : Plane) : List (Nat × Int) :=
  (cells m).map fun c => (planeAddr b m c.1 c.2, p c.1 c.2)

/-- Where plane U of a Bundle3 at `b` lies (20_memory.md R66). -/
def bundleU (b n : Nat) : Nat := b + 2 * n ^ 2

/-- Where plane V of a Bundle3 at `b` lies (20_memory.md R66). -/
def bundleV (b n : Nat) : Nat := b + 2 * n ^ 2 + 2 * (n / 2) ^ 2

/-- Where plane A of a Bundle4 at `b` lies (20_memory.md R67). -/
def bundleA (b n : Nat) : Nat := b + 3 * n ^ 2

/-- The element addresses of a Bundle3 (20_memory.md R66). -/
def bundle3Addrs (b n : Nat) : List Nat :=
  planeAddrs b n ++ planeAddrs (bundleU b n) (n / 2) ++ planeAddrs (bundleV b n) (n / 2)

/-- The writes that store a Bundle3 (20_memory.md R66). -/
def bundle3Writes (b n : Nat) (y u v : Plane) : List (Nat × Int) :=
  planeWrites b n y ++ planeWrites (bundleU b n) (n / 2) u ++ planeWrites (bundleV b n) (n / 2) v

/-- The element addresses of a Bundle4 (20_memory.md R67). -/
def bundle4Addrs (b n : Nat) : List Nat := bundle3Addrs b n ++ planeAddrs (bundleA b n) n

/-- The writes that store a Bundle4 (20_memory.md R67). -/
def bundle4Writes (b n : Nat) (y u v a : Plane) : List (Nat × Int) :=
  bundle3Writes b n y u v ++ planeWrites (bundleA b n) n a

/-- A block's offset `(i, j)` and the raster position `(x, y)` it falls on. -/
structure Spot where
  i : Nat
  j : Nat
  x : Nat
  y : Nat
deriving DecidableEq, Repr

/-- A position is inside a plane of `w × h` samples. -/
def inside (w h : Nat) (x y : Int) : Bool :=
  decide (0 ≤ x) && decide (x < w) && decide (0 ≤ y) && decide (y < h)

/-- The offsets of an `n × n` block at `(px, py)` that fall inside a `w × h` plane (41_motion_search.md R142,
42_reconstruct.md R172). -/
def spots (w h : Nat) (px py : Int) (n : Nat) : List Spot :=
  (cells n).filterMap fun c =>
    if inside w h (px + c.1) (py + c.2) then some ⟨c.1, c.2, (px + c.1).toNat, (py + c.2).toNat⟩ else none

/-- The luma offsets of a block at `(px, py)` that are inside the frame. -/
def Operands.lumaSpots (o : Operands) (px py : Int) (n : Nat) : List Spot := spots o.w o.h px py n

/-- The chroma offsets: half position (floor), half dimensions, half size (41_motion_search.md R140). -/
def Operands.chromaSpots (o : Operands) (px py : Int) (n : Nat) : List Spot :=
  spots (o.w / 2) (o.h / 2) (px / 2) (py / 2) (n / 2)

/-- The address of a luma spot in a raster (20_memory.md R64). -/
def Operands.yAddr (o : Operands) (r : Raster) (p : Spot) : Nat := planeAddr r.y.toNat o.w p.x p.y

/-- The address of a U spot in a raster (20_memory.md R64). -/
def Operands.uAddr (o : Operands) (r : Raster) (p : Spot) : Nat := planeAddr r.u.toNat (o.w / 2) p.x p.y

/-- The address of a V spot in a raster (20_memory.md R64). -/
def Operands.vAddr (o : Operands) (r : Raster) (p : Spot) : Nat := planeAddr r.v.toNat (o.w / 2) p.x p.y

/-- The raster elements under a block: its luma spots, its U spots and its V spots. As addresses read they are
those of `Extract` (41_motion_search.md R142), as addresses written the block footprint of 42_reconstruct.md
R172. -/
def Operands.blockAddrs (o : Operands) (r : Raster) (px py : Int) (n : Nat) : List Nat :=
  (o.lumaSpots px py n).map (o.yAddr r)
    ++ (o.chromaSpots px py n).map (o.uAddr r)
    ++ (o.chromaSpots px py n).map (o.vAddr r)

/-- The element reads of a block. -/
def Operands.blockReads (o : Operands) (r : Raster) (px py : Int) (n : Nat) : List Region :=
  (o.blockAddrs r px py n).map elemRegion

/-- An extracted block: planes Y, U, V and the validity plane A (41_motion_search.md R142). -/
structure Block where
  y : Plane
  u : Plane
  v : Plane
  a : Plane

/-- One sample of `Extract`: the raster's inside, 0 outside. -/
def extractAt (mem : Memory) (b w h : Nat) (px py : Int) : Plane := fun i j =>
  if inside w h (px + i) (py + j) then Memory.elem mem (planeAddr b w (px + i).toNat (py + j).toNat) else 0

/-- `Extract(R, p, N)` (41_motion_search.md R142). It does not depend on `N`: a block is read only at offsets
below `N` (`N / 2` in chroma). -/
def Operands.extract (o : Operands) (mem : Memory) (r : Raster) (px py : Int) : Block where
  y := extractAt mem r.y.toNat o.w o.h px py
  u := extractAt mem r.u.toNat (o.w / 2) (o.h / 2) (px / 2) (py / 2)
  v := extractAt mem r.v.toNat (o.w / 2) (o.h / 2) (px / 2) (py / 2)
  a := fun i j => if inside o.w o.h (px + i) (py + j) then 0 else 1

end Sys2Proof.Machine
end

