-- ==== Sys2Proof/Machine/Flags.lean ====
section
/-! DEFINITION. The flags as software sees them: `STATUS`, `CTRL`, `ERRCODE`, and the interrupt line. -/

namespace Sys2Proof.Machine

/-- The number of a fault code (60_exceptions.md R200). -/
def ErrCode.num : ErrCode → Nat
  | .illegal => 1
  | .size => 2
  | .config => 3
  | .ref => 4
  | .null => 5
  | .align => 6
  | .pos => 7
  | .addr => 8
  | .bus => 9
  | .range => 10

/-- What `ERRCODE` reads: 0 for no fault (10_state.md R28). -/
def errCodeNum : Option ErrCode → Nat
  | none => 0
  | some e => ErrCode.num e

/-- A flag as a bit of weight `2 ^ k`. -/
def flagBit (b : Bool) (k : Nat) : Nat := if b then 2 ^ k else 0

/-- What `STATUS` reads (10_state.md R26). -/
def Status.toWord (f : Status) : Word :=
  BitVec.ofNat 32 (flagBit f.busy 0 + flagBit f.done 1 + flagBit f.err 2 + flagBit f.matched 3 + flagBit f.ovr 4)

/-- A write to `STATUS`: 1 in bit 1 clears `DONE`, 1 in bit 4 clears `OVR`, nothing else changes
(10_state.md R26). -/
def Status.clearOnWrite (f : Status) (v : Word) : Status :=
  { f with done := f.done && !v.getLsbD 1, ovr := f.ovr && !v.getLsbD 4 }

/-- What `CTRL` reads: bits 30:3 and `SRST` read 0 (10_state.md R25). -/
def Ctrl.toWord (c : Ctrl) : Word :=
  BitVec.ofNat 32 (flagBit c.ieDone 0 + flagBit c.ieErr 1 + flagBit c.laEn 2)

/-- The stored bits of a word written to `CTRL` (10_state.md R25). -/
def Ctrl.ofWord (v : Word) : Ctrl := ⟨v.getLsbD 0, v.getLsbD 1, v.getLsbD 2⟩

/-- The interrupt line (60_exceptions.md R215). -/
def State.irq (s : State) : Bool :=
  (s.status.done && s.ctrl.ieDone) || (s.status.err && s.ctrl.ieErr)

/-- `OVR` rises: a host write was discarded (10_state.md R51). -/
def State.overrun (s : State) : State :=
  { s with status := { s.status with ovr := true } }

end Sys2Proof.Machine
end

