-- ==== Sys2Proof/Machine/Deblock.lean ====
section
/-! DEFINITION. The deblocking filter (43_deblock.md): DBLK. -/

namespace Sys2Proof.Machine

/-- The parameters of the edge filter (43_deblock.md R191). -/
structure FilterParams where
  alpha : Int
  beta : Int
  c : Int
deriving DecidableEq, Repr

/-- Table lookup with the clamped index (43_deblock.md R191). -/
def filterParams (p : Params) (o : Operands) : FilterParams :=
  let idx := min o.dbkStrength.toNat p.idxMax
  ⟨(p.alpha.getD idx 0 : Nat), (p.beta.getD idx 0 : Nat), (p.ctab.getD idx 0 : Nat)⟩

/-- The six samples across an edge (43_deblock.md R190 (c)). -/
structure EdgeSamples where
  p2 : Int
  p1 : Int
  p0 : Int
  q0 : Int
  q1 : Int
  q2 : Int
deriving DecidableEq, Repr

/-- The four samples the filter may change. -/
structure EdgeResult where
  p1 : Int
  p0 : Int
  q0 : Int
  q1 : Int
deriving DecidableEq, Repr

/-- The three-part condition, all strict (43_deblock.md R190 (d), R192). -/
def filtCond (f : FilterParams) (e : EdgeSamples) : Bool :=
  decide (((e.p0 - e.q0).natAbs : Int) < f.alpha) && decide (((e.p1 - e.p0).natAbs : Int) < f.beta)
    && decide (((e.q0 - e.q1).natAbs : Int) < f.beta)

/-- `Filt` (43_deblock.md R192), before the range check; `none` is *untouched*. -/
def filt (f : FilterParams) (e : EdgeSamples) : Option EdgeResult :=
  if filtCond f e then
    let delta := clip3 (-f.c) f.c (((e.q0 - e.p0) * 4 + (e.p1 - e.q1) + 4) / 8)
    let avg := (e.p0 + e.q0 + 1) / 2
    some
      { p1 := e.p1 + (if ((e.p2 - e.p0).natAbs : Int) < f.beta
          then clip3 (-f.c) f.c ((e.p2 + avg - 2 * e.p1) / 2) else 0)
        p0 := e.p0 + delta
        q0 := e.q0 - delta
        q1 := e.q1 + (if ((e.q2 - e.q0).natAbs : Int) < f.beta
          then clip3 (-f.c) f.c ((e.q2 + avg - 2 * e.q1) / 2) else 0) }
  else none

/-- All four results pass `S16chk` (43_deblock.md R192). -/
def EdgeResult.s16ok (r : EdgeResult) : Bool :=
  Machine.s16ok r.p1 && Machine.s16ok r.p0 && Machine.s16ok r.q0 && Machine.s16ok r.q1

/-- A plane with one sample replaced. -/
def setSample (p : Plane) (x y : Nat) (v : Int) : Plane := fun x' y' => if x' = x ∧ y' = y then v else p x' y'

/-- One position of the left edge: row `y`, the boundary between columns `tx - 1` and `tx`, on the private copy
`lc`; `none` is `E_RANGE` (43_deblock.md R193). -/
def leftEdgeAt (f : FilterParams) (tx : Nat) (lc : Plane) (y : Nat) : Option Plane :=
  match filt f ⟨lc (tx - 3) y, lc (tx - 2) y, lc (tx - 1) y, lc tx y, lc (tx + 1) y, lc (tx + 2) y⟩ with
  | none => some lc
  | some r =>
    if EdgeResult.s16ok r then
      some (setSample (setSample (setSample (setSample lc (tx - 2) y r.p1) (tx - 1) y r.p0) tx y r.q0)
        (tx + 1) y r.q1)
    else none

/-- One position of the top edge: column `x`, the boundary between rows `ty - 1` and `ty` (43_deblock.md
R193). -/
def topEdgeAt (f : FilterParams) (ty : Nat) (lc : Plane) (x : Nat) : Option Plane :=
  match filt f ⟨lc x (ty - 3), lc x (ty - 2), lc x (ty - 1), lc x ty, lc x (ty + 1), lc x (ty + 2)⟩ with
  | none => some lc
  | some r =>
    if EdgeResult.s16ok r then
      some (setSample (setSample (setSample (setSample lc x (ty - 2) r.p1) x (ty - 1) r.p0) x ty r.q0)
        x (ty + 1) r.q1)
    else none

/-- Edge positions one after another, each on the copy the one before left (43_deblock.md R193). -/
def edgePass (f : Plane → Nat → Option Plane) : Plane → List Nat → Option Plane
  | lc, [] => some lc
  | lc, k :: rest =>
    match f lc k with
    | none => none
    | some lc' => edgePass f lc' rest

/-- The positions `t, …, t + n - 1` that lie in `0 … d - 1`. -/
def inRange (d : Nat) (t : Int) (n : Nat) : List Nat :=
  (List.range n).filterMap fun (i : Nat) =>
    if 0 ≤ t + (i : Int) ∧ t + (i : Int) < d then some (t + (i : Int)).toNat else none

/-- The block does not touch the top or left edge of the frame (43_deblock.md R193). -/
def offEdge (o : Operands) : Bool := decide (0 < o.sx) && decide (0 < o.sy)

/-- The rows of the left edge whose six samples are inside the raster (43_deblock.md R193). -/
def leftRows (o : Operands) (n : Nat) : List Nat :=
  if offEdge o = true ∧ 3 ≤ o.sx ∧ o.sx + 2 < o.w then inRange o.h o.sy n else []

/-- The columns of the top edge whose six samples are inside the raster (43_deblock.md R193). -/
def topCols (o : Operands) (n : Nat) : List Nat :=
  if offEdge o = true ∧ 3 ≤ o.sy ∧ o.sy + 2 < o.h then inRange o.w o.sx n else []

/-- The private copy after both passes, the left edge first (43_deblock.md R193). -/
def deblocked (f : FilterParams) (o : Operands) (n : Nat) (lc : Plane) : Option Plane :=
  match edgePass (leftEdgeAt f o.sx.toNat) lc (leftRows o n) with
  | none => none
  | some lc' => edgePass (topEdgeAt f o.sy.toNat) lc' (topCols o n)

/-- The samples the left-edge pass may write (43_deblock.md R193). -/
def leftSamples (o : Operands) (n : Nat) : List (Nat × Nat) :=
  let tx := o.sx.toNat
  (leftRows o n).flatMap fun y => [(tx - 2, y), (tx - 1, y), (tx, y), (tx + 1, y)]

/-- The samples the top-edge pass may write (43_deblock.md R193). -/
def topSamples (o : Operands) (n : Nat) : List (Nat × Nat) :=
  let ty := o.sy.toNat
  (topCols o n).flatMap fun x => [(x, ty - 2), (x, ty - 1), (x, ty), (x, ty + 1)]

/-- The samples a DBLK command can write, each once (43_deblock.md R193). -/
def deblockSamples (o : Operands) (n : Nat) : List (Nat × Nat) :=
  leftSamples o n ++ (topSamples o n).filter fun c => !(leftSamples o n).contains c

/-- The write-back: every sample of the private copy that differs from the plane (43_deblock.md R193). -/
def deblockWrites (o : Operands) (n : Nat) (before after : Plane) : List (Nat × Int) :=
  (deblockSamples o n).filterMap fun c =>
    if after c.1 c.2 = before c.1 c.2 then none
    else some (planeAddr o.comp.y.toNat o.w c.1 c.2, after c.1 c.2)

/-- The checks of DBLK with codes 2 to 8, in order (43_deblock.md R194). -/
def checkDblk (sz : BitVec 4) (l : Latch) : Option ErrCode :=
  let o := l.regs
  firstFail
    [(!blockSizeLegal sz, .size),
     (!frameLegal o, .config),
     (anyNull (Raster.bases o.comp), .null),
     (anyOdd (Raster.bases o.comp), .align),
     (anyPastTop (Operands.rasterRegions o o.comp), .addr)]

/-- DBLK's reads and writes: it copies the whole luma plane (43_deblock.md R193; log 16). -/
def jobDblk (sz : BitVec 4) (s : State) : Job :=
  let o := s.latch.regs
  let n := blockSize sz
  let plane : Region := ⟨o.comp.y.toNat, 2 * o.w * o.h⟩
  let before := Memory.plane s.mem o.comp.y.toNat o.w
  { bases := [o.comp.y]
    reads := [plane]
    readFoot := [plane]
    foot := (deblockSamples o n).map fun c => planeAddr o.comp.y.toNat o.w c.1 c.2
    ranges := true
    writes := (deblocked (filterParams s.cfg o) o n before).map (deblockWrites o n before)
    results := .keep }

/-- DBLK, deblock the left and top edge of one block of the composite (43_deblock.md R194). -/
def execDblk (sz : BitVec 4) (s : State) : Host.Outcome State Fault Refusal :=
  State.runCommand (checkDblk sz s.latch) (jobDblk sz s) s

end Sys2Proof.Machine
end

