-- ==== Sys2Proof/Machine/Motion.lean ====
section
/-! DEFINITION. Block extraction, cost, motion search and residual (41_motion_search.md): EXTRACT, COST,
MSEARCH, RESID. -/

namespace Sys2Proof.Machine

/-! ## EXTRACT -/

/-- The raster EXTRACT reads (30_encoding.md R95); `none` is `E_REF`. -/
def extractRaster (r : RSel) (l : Latch) : Option Raster :=
  match r with
  | .cur => some l.regs.cur
  | .comp => some l.regs.comp
  | .ref => Latch.resolve l

/-- The position EXTRACT reads at: `S`, or `M` for `RSEL = REF` (41_motion_search.md R144). -/
def extractPos (r : RSel) (o : Operands) : Int × Int :=
  match r with
  | .ref => (o.mx, o.my)
  | _ => (o.sx, o.sy)

/-- The base registers EXTRACT's raster puts under the null and alignment checks (60_exceptions.md R204). -/
def extractBases (r : RSel) (l : Latch) : List Word :=
  match r with
  | .cur => Raster.bases l.regs.cur
  | .comp => Raster.bases l.regs.comp
  | .ref => Latch.resolvedBases l

/-- The raster planes EXTRACT may read (20_memory.md R69). -/
def extractRegions (r : RSel) (l : Latch) : List Region :=
  match extractRaster r l with
  | some ra => Operands.rasterRegions l.regs ra
  | none => []

/-- The checks of EXTRACT with codes 2 to 8, in order (41_motion_search.md R143, R144). -/
def checkExtract (sz : BitVec 4) (r : RSel) (l : Latch) : Option ErrCode :=
  let o := l.regs
  let bases := extractBases r l ++ [o.dst]
  firstFail
    [(!blockSizeLegal sz, .size),
     (!frameLegal o, .config),
     ((extractRaster r l).isNone, .ref),
     (anyNull bases, .null),
     (anyOdd bases, .align),
     (anyPastTop (extractRegions r l ++ [bufferRegion o.dst (5 * blockSize sz ^ 2)]), .addr)]

/-- EXTRACT's reads and writes (41_motion_search.md R144). -/
def jobExtract (sz : BitVec 4) (r : RSel) (s : State) : Job :=
  let o := s.latch.regs
  let n := blockSize sz
  let ra := (extractRaster r s.latch).getD Raster.null
  let p := extractPos r o
  let b := o.extract s.mem ra p.1 p.2
  { bases := Raster.bases ra ++ [o.dst]
    reads := o.blockReads ra p.1 p.2 n
    readFoot := extractRegions r s.latch
    foot := bundle4Addrs o.dst.toNat n
    ranges := false
    writes := some (bundle4Writes o.dst.toNat n b.y b.u b.v b.a)
    results := .keep }

/-- EXTRACT, copy one block of a raster with its validity plane (41_motion_search.md R144). -/
def execExtract (sz : BitVec 4) (r : RSel) (s : State) : Host.Outcome State Fault Refusal :=
  State.runCommand (checkExtract sz r s.latch) (jobExtract sz r s) s

/-! ## COST -/

/-- The sum of squared differences of two `n × n` planes (41_motion_search.md R145). -/
def sqDiff (n : Nat) (p q : Plane) : Nat :=
  sumNat n fun j => sumNat n fun i => (p i j - q i j).natAbs ^ 2

/-- `Cost(B, B', alpha)` (41_motion_search.md R145). -/
def blockCost (n : Nat) (b c : Block) (alpha : Bool) : Nat :=
  sqDiff n b.y c.y ^ 2 + sqDiff (n / 2) b.u c.u + sqDiff (n / 2) b.v c.v
    + (if alpha then sqDiff n b.a c.a ^ 2 else 0)

/-- The checks of COST with codes 2 to 8, in order (41_motion_search.md R143, R150). -/
def checkCost (sz : BitVec 4) (l : Latch) : Option ErrCode :=
  let o := l.regs
  let bases := Raster.bases o.cur ++ Latch.resolvedBases l
  firstFail
    [(!blockSizeLegal sz, .size),
     (!frameLegal o, .config),
     ((Latch.resolve l).isNone, .ref),
     (anyNull bases, .null),
     (anyOdd bases, .align),
     (anyPastTop (Operands.rasterRegions o o.cur ++ Latch.resolvedRegions l), .addr)]

/-- COST's reads and result (41_motion_search.md R150). -/
def jobCost (sz : BitVec 4) (alpha : Bool) (s : State) : Job :=
  let o := s.latch.regs
  let n := blockSize sz
  let ra := (Latch.resolve s.latch).getD Raster.null
  { bases := Raster.bases o.cur ++ Raster.bases ra
    reads := o.blockReads o.cur o.sx o.sy n ++ o.blockReads ra o.mx o.my n
    readFoot := Operands.rasterRegions o o.cur ++ Latch.resolvedRegions s.latch
    foot := []
    ranges := false
    writes := some []
    results := .cost (BitVec.ofNat 128
      (blockCost n (o.extract s.mem o.cur o.sx o.sy) (o.extract s.mem ra o.mx o.my) alpha)) }

/-- COST, cost between the searched block and the block a vector points at (41_motion_search.md R150). -/
def execCost (sz : BitVec 4) (alpha : Bool) (s : State) : Host.Outcome State Fault Refusal :=
  State.runCommand (checkCost sz s.latch) (jobCost sz alpha s) s

/-! ## MSEARCH -/

/-- A position (00_scope.md R10). -/
abbrev Pos := Int × Int

/-- A candidate with its cost (41_motion_search.md R153). -/
structure Candidate where
  pos : Pos
  cost : Nat
deriving DecidableEq, Repr

/-- The scratch state of one hexagon run: the positions evaluated, and the best candidate so far
(41_motion_search.md R153). -/
structure Search where
  seen : List Pos
  best : Option Candidate
deriving DecidableEq, Repr

/-- What a search of one reference raster needs: the frame's dimensions, the searched position, and the cost of
a candidate position. -/
structure Target where
  w : Nat
  h : Nat
  sx : Int
  sy : Int
  costAt : Pos → Nat

/-- Admissible candidate positions (41_motion_search.md R151). -/
def Target.admissible (t : Target) (p : Pos) : Bool :=
  decide ((p.1 - t.sx).natAbs ≤ 48) && decide ((p.2 - t.sy).natAbs ≤ 48) && inside t.w t.h p.1 p.2

/-- `Hex(c, r)` (41_motion_search.md R152). -/
def hexPattern (c : Pos) (r : Int) : List Pos :=
  let h := r / 2
  [(c.1, c.2), (c.1 + r, c.2), (c.1 + h, c.2 + r), (c.1 - h, c.2 + r), (c.1 - r, c.2), (c.1 - h, c.2 - r),
   (c.1 + h, c.2 - r)]

/-- `Nine(c, r)` (41_motion_search.md R152). -/
def ninePattern (c : Pos) (r : Int) : List Pos :=
  [(c.1, c.2), (c.1 + r, c.2), (c.1 - r, c.2), (c.1, c.2 + r), (c.1, c.2 - r), (c.1 + r, c.2 + r),
   (c.1 - r, c.2 + r), (c.1 + r, c.2 - r), (c.1 - r, c.2 - r)]

/-- A candidate replaces the best only if it is strictly cheaper (41_motion_search.md R153, R155). -/
def better (c : Candidate) (best : Option Candidate) : Option Candidate :=
  match best with
  | none => some c
  | some b => if c.cost < b.cost then some c else some b

/-- `eval(p)` of the hexagon search (41_motion_search.md R153). -/
def Target.eval (t : Target) (st : Search) (p : Pos) : Search :=
  if st.seen.contains p || !Target.admissible t p then st
  else ⟨p :: st.seen, better ⟨p, t.costAt p⟩ st.best⟩

/-- Evaluate a pattern in order (41_motion_search.md R153). -/
def Target.evalAll (t : Target) (st : Search) (ps : List Pos) : Search :=
  ps.foldl (Target.eval t) st

/-- The loop of the hexagon search and the nine-point pattern after it (41_motion_search.md R153). `fuel` bounds
the rounds; `hexFuel` is never exhausted (R154; log 17). -/
def Target.hexLoop (t : Target) : Nat → Pos → Nat → Search → Search
  | 0, _, _, st => st
  | fuel + 1, centre, r, st =>
    if r ≤ 1 then Target.evalAll t st (ninePattern centre r)
    else
      let st' := Target.evalAll t st (hexPattern centre r)
      match st'.best with
      | none => Target.hexLoop t fuel centre (r / 2) st'
      | some b =>
        if b.pos = centre then Target.hexLoop t fuel centre (r / 2) st'
        else Target.hexLoop t fuel b.pos r st'

/-- More rounds than a search can take: 9409 re-centrings, 2 halvings and the last pattern
(41_motion_search.md R154). -/
def hexFuel : Nat := 9412

/-- `HexSearch(R, B, S, N)` (41_motion_search.md R153). -/
def Target.hexSearch (t : Target) : Search :=
  Target.hexLoop t hexFuel (t.sx, t.sy) 4 ⟨[], none⟩

/-- The 25 positions of the exhaustive refinement, row by row (41_motion_search.md R155). -/
def Target.window (t : Target) : List Pos :=
  (List.range 5).flatMap fun (dy : Nat) =>
    (List.range 5).map fun (dx : Nat) => (t.sx + (dx : Int) - 2, t.sy + (dy : Int) - 2)

/-- `Exhaustive(R, B, S, N, hx)` (41_motion_search.md R155). -/
def Target.exhaustive (t : Target) (hx : Option Candidate) : Option Candidate :=
  t.window.foldl (fun low p => better ⟨p, t.costAt p⟩ low) hx

/-- The references MSEARCH searches, each with its tag, in order (41_motion_search.md R157). -/
def Latch.searchOrder (l : Latch) : List (Int × Raster) :=
  let k := l.refs.count.toNat
  ([(4, l.refs.slot0), (3, l.refs.slot1), (2, l.refs.slot2), (1, l.refs.slot3)].take k)
    ++ (if l.laEn then [(-1, l.regs.la)] else [])

/-- The search target of one reference raster: the cost of a position is that of its block against the searched
block, validity counted (41_motion_search.md R153). -/
def searchTarget (n : Nat) (l : Latch) (mem : Memory) (ra : Raster) : Target :=
  let o := l.regs
  { w := o.w
    h := o.h
    sx := o.sx
    sy := o.sy
    costAt := fun p => blockCost n (o.extract mem o.cur o.sx o.sy) (o.extract mem ra p.1 p.2) true }

/-- The best candidate of one reference raster (41_motion_search.md R158: `ex`). -/
def bestOfRaster (n : Nat) (l : Latch) (mem : Memory) (ra : Raster) : Option Candidate :=
  let t := searchTarget n l mem ra
  Target.exhaustive t (Target.hexSearch t).best

/-- One reference after another: a later candidate replaces the best only if strictly cheaper
(41_motion_search.md R157, R158). -/
def bestOver (n : Nat) (l : Latch) (mem : Memory) (best : Option (Int × Candidate)) (tr : Int × Raster) :
    Option (Int × Candidate) :=
  match bestOfRaster n l mem tr.2, best with
  | none, b => b
  | some c, none => some (tr.1, c)
  | some c, some b => if c.cost < b.2.cost then some (tr.1, c) else some b

/-- The best candidate over all references, with its tag (41_motion_search.md R158). -/
def searchAll (n : Nat) (l : Latch) (mem : Memory) : Option (Int × Candidate) :=
  (Latch.searchOrder l).foldl (bestOver n l mem) none

/-- The result registers of a search (41_motion_search.md R158). -/
def searchResults (o : Operands) : Option (Int × Candidate) → Results
  | none => .search false 0 0 0 (BitVec.allOnes 128)
  | some (r, c) =>
    .search true (BitVec.ofInt 16 (o.sx - c.pos.1)) (BitVec.ofInt 16 (o.sy - c.pos.2)) (BitVec.ofInt 16 r)
      (BitVec.ofNat 128 c.cost)

/-- The positions whose blocks a search of one raster reads: those of the hexagon stage and the 25 of the
refinement (41_motion_search.md R153, R155). -/
def Target.positions (t : Target) : List Pos := (Target.hexSearch t).seen ++ t.window

/-- The search target that decides which blocks MSEARCH reads: that of the search itself, or, if the host raced
with the command, one whose costs are unspecified, so that the hexagon stage may take any course that some costs
give it; the block at `S` and the 25 of the refinement are read in every case (the model's choice: 20_memory.md R77
frees the results and is silent on the reads; log 26). -/
def accessTarget (n : Nat) (s : State) (tr : Int × Raster) : Target :=
  let t := searchTarget n s.latch s.mem tr.2
  if s.raced then { t with costAt := fun p => Config.racedCost s.freeCtr tr.1 p.1 p.2 } else t

/-- The checks of MSEARCH with codes 2 to 8, in order (41_motion_search.md R143, R156, R158). -/
def checkMsearch (sz : BitVec 4) (l : Latch) : Option ErrCode :=
  let o := l.regs
  let bases := Raster.bases o.cur ++ (if l.laEn then Raster.bases o.la else [])
  firstFail
    [(!blockSizeLegal sz, .size),
     (!frameLegal o, .config),
     (anyNull bases, .null),
     (anyOdd bases, .align),
     (!inside o.w o.h o.sx o.sy, .pos),
     (anyPastTop (Operands.rasterRegions o o.cur
       ++ (Latch.searchOrder l).flatMap fun tr => Operands.rasterRegions o tr.2), .addr)]

/-- MSEARCH's reads and results (41_motion_search.md R158). -/
def jobMsearch (sz : BitVec 4) (s : State) : Job :=
  let l := s.latch
  let o := l.regs
  let n := blockSize sz
  { bases := Raster.bases o.cur ++ (Latch.searchOrder l).flatMap fun tr => Raster.bases tr.2
    reads := o.blockReads o.cur o.sx o.sy n
      ++ (Latch.searchOrder l).flatMap fun tr =>
        (Target.positions (accessTarget n s tr)).flatMap fun p => o.blockReads tr.2 p.1 p.2 n
    readFoot := Operands.rasterRegions o o.cur
      ++ (Latch.searchOrder l).flatMap fun tr => Operands.rasterRegions o tr.2
    foot := []
    ranges := false
    writes := some []
    results := searchResults o (searchAll n l s.mem) }

/-- MSEARCH, motion search for one leaf block (41_motion_search.md R158). -/
def execMsearch (sz : BitVec 4) (s : State) : Host.Outcome State Fault Refusal :=
  State.runCommand (checkMsearch sz s.latch) (jobMsearch sz s) s

/-! ## RESID -/

/-- `Gate(d, T)` (41_motion_search.md R160). -/
def gate (d : Int) (t : Nat) : Int := if d.natAbs ≤ t then 0 else d

/-- The gated difference of two planes (41_motion_search.md R161). -/
def gatedDiff (t : Nat) (p q : Plane) : Plane := fun i j => gate (p i j - q i j) t

/-- The checks of RESID with codes 2 to 8, in order (41_motion_search.md R143, R161). -/
def checkResid (sz : BitVec 4) (l : Latch) : Option ErrCode :=
  let o := l.regs
  let bases := Raster.bases o.cur ++ Latch.resolvedBases l ++ [o.dst]
  firstFail
    [(!blockSizeLegal sz, .size),
     (!frameLegal o, .config),
     ((Latch.resolve l).isNone, .ref),
     (anyNull bases, .null),
     (anyOdd bases, .align),
     (anyPastTop (Operands.rasterRegions o o.cur ++ Latch.resolvedRegions l
       ++ [bufferRegion o.dst (3 * blockSize sz ^ 2)]), .addr)]

/-- RESID's reads and writes (41_motion_search.md R161). -/
def jobResid (sz : BitVec 4) (s : State) : Job :=
  let o := s.latch.regs
  let n := blockSize sz
  let ra := (Latch.resolve s.latch).getD Raster.null
  let b := o.extract s.mem o.cur o.sx o.sy
  let c := o.extract s.mem ra o.mx o.my
  { bases := Raster.bases o.cur ++ Raster.bases ra ++ [o.dst]
    reads := o.blockReads o.cur o.sx o.sy n ++ o.blockReads ra o.mx o.my n
    readFoot := Operands.rasterRegions o o.cur ++ Latch.resolvedRegions s.latch
    foot := bundle3Addrs o.dst.toNat n
    ranges := true
    writes := checkedWrites (bundle3Writes o.dst.toNat n (gatedDiff o.tY.toNat b.y c.y)
      (gatedDiff o.tC.toNat b.u c.u) (gatedDiff o.tC.toNat b.v c.v))
    results := .keep }

/-- RESID, thresholded residual of the searched block against a vector's block (41_motion_search.md R161). -/
def execResid (sz : BitVec 4) (s : State) : Host.Outcome State Fault Refusal :=
  State.runCommand (checkResid sz s.latch) (jobResid sz s) s

end Sys2Proof.Machine
end

