-- ==== Sys2Proof/Machine/Reconstruct.lean ====
section
/-! DEFINITION. Reconstruction of one block in the composite (42_reconstruct.md): MC, INTRA. -/

namespace Sys2Proof.Machine

/-- `WriteBlock(S, N, Y, U, V)`: the writes to the composite, clipped sample by sample
(42_reconstruct.md R172). -/
def blockWrites (o : Operands) (n : Nat) (y u v : Plane) : List (Nat × Int) :=
  (o.lumaSpots o.sx o.sy n).map (fun p => (o.yAddr o.comp p, y p.i p.j))
    ++ (o.chromaSpots o.sx o.sy n).map (fun p => (o.uAddr o.comp p, u p.i p.j))
    ++ (o.chromaSpots o.sx o.sy n).map (fun p => (o.vAddr o.comp p, v p.i p.j))

/-- The block footprint at `S` in the composite (42_reconstruct.md R172). -/
def blockFoot (o : Operands) (n : Nat) : List Nat := o.blockAddrs o.comp o.sx o.sy n

/-- Sample-wise sum of two planes. -/
def addPlanes (p q : Plane) : Plane := fun i j => p i j + q i j

/-- All sums of MC, also those of samples that the clip will skip (42_reconstruct.md R173: "All sums are
checked before any write"). -/
def mcValues (n : Nat) (y u v : Plane) : List Int :=
  (cells n).map (fun c => y c.1 c.2) ++ (cells (n / 2)).map (fun c => u c.1 c.2)
    ++ (cells (n / 2)).map (fun c => v c.1 c.2)

/-- The checks of MC with codes 2 to 8, in order (42_reconstruct.md R171). -/
def checkMc (sz : BitVec 4) (l : Latch) : Option ErrCode :=
  let o := l.regs
  let bases := Raster.bases o.comp ++ [o.src] ++ Latch.resolvedBases l
  firstFail
    [(!blockSizeLegal sz, .size),
     (!frameLegal o, .config),
     ((Latch.resolve l).isNone, .ref),
     (anyNull bases, .null),
     (anyOdd bases, .align),
     (anyPastTop (Operands.rasterRegions o o.comp ++ Latch.resolvedRegions l
       ++ [bufferRegion o.src (3 * blockSize sz ^ 2)]), .addr)]

/-- MC's reads and writes (42_reconstruct.md R173). -/
def jobMc (sz : BitVec 4) (s : State) : Job :=
  let o := s.latch.regs
  let n := blockSize sz
  let b := o.src.toNat
  let ra := (Latch.resolve s.latch).getD Raster.null
  let p := o.extract s.mem ra o.mx o.my
  let y := addPlanes p.y (Memory.plane s.mem b n)
  let u := addPlanes p.u (Memory.plane s.mem (bundleU b n) (n / 2))
  let v := addPlanes p.v (Memory.plane s.mem (bundleV b n) (n / 2))
  let src := bufferRegion o.src (3 * n ^ 2)
  { bases := Raster.bases ra ++ [o.src] ++ Raster.bases o.comp
    reads := o.blockReads ra o.mx o.my n ++ [src]
    readFoot := Latch.resolvedRegions s.latch ++ [src]
    foot := blockFoot o n
    ranges := true
    writes := if (mcValues n y u v).all s16ok then some (blockWrites o n y u v) else none
    results := .keep }

/-- MC, motion-compensated reconstruction of one block (42_reconstruct.md R173). -/
def execMc (sz : BitVec 4) (s : State) : Host.Outcome State Fault Refusal :=
  State.runCommand (checkMc sz s.latch) (jobMc sz s) s

/-- The checks of INTRA with codes 2 to 8, in order (42_reconstruct.md R171). -/
def checkIntra (sz : BitVec 4) (l : Latch) : Option ErrCode :=
  let o := l.regs
  let bases := Raster.bases o.comp ++ [o.src]
  firstFail
    [(!blockSizeLegal sz, .size),
     (!frameLegal o, .config),
     (anyNull bases, .null),
     (anyOdd bases, .align),
     (anyPastTop (Operands.rasterRegions o o.comp ++ [bufferRegion o.src (3 * blockSize sz ^ 2)]), .addr)]

/-- INTRA's reads and writes (42_reconstruct.md R176). -/
def jobIntra (sz : BitVec 4) (s : State) : Job :=
  let o := s.latch.regs
  let n := blockSize sz
  let b := o.src.toNat
  let src := bufferRegion o.src (3 * n ^ 2)
  { bases := o.src :: Raster.bases o.comp
    reads := [src]
    readFoot := [src]
    foot := blockFoot o n
    ranges := false
    writes := some (blockWrites o n (Memory.plane s.mem b n) (Memory.plane s.mem (bundleU b n) (n / 2))
      (Memory.plane s.mem (bundleV b n) (n / 2)))
    results := .keep }

/-- INTRA, overwrite one block with raw samples (42_reconstruct.md R176). -/
def execIntra (sz : BitVec 4) (s : State) : Host.Outcome State Fault Refusal :=
  State.runCommand (checkIntra sz s.latch) (jobIntra sz s) s

end Sys2Proof.Machine
end

