-- ==== Sys2Proof/Machine/Table.lean ====
section
/-! DEFINITION. The commands with no data path (60_exceptions.md R225): NOP, REFPUSH, REFCLR
(42_reconstruct.md R180 to R182). -/

namespace Sys2Proof.Machine

/-- NOP: nothing but the completion (42_reconstruct.md R182). -/
def execNop (s : State) : Host.Outcome State Fault Refusal :=
  .next (State.finish s)

/-- The checks of REFPUSH with codes 2 to 8, in order (42_reconstruct.md R180). -/
def checkRefpush (l : Latch) : Option ErrCode :=
  let o := l.regs
  firstFail
    [(!frameLegal o, .config),
     (anyNull (Raster.bases o.push), .null),
     (anyOdd (Raster.bases o.push), .align),
     (anyPastTop (Operands.rasterRegions o o.push), .addr)]

/-- The table after a push: shifted by one slot, the new raster in `REF0`, `REFCNT` at most 4
(42_reconstruct.md R180). -/
def RefTable.pushed (t : RefTable) (r : Raster) : RefTable where
  slot0 := r
  slot1 := t.slot0
  slot2 := t.slot1
  slot3 := t.slot2
  count := if t.count.toNat + 1 ≤ 4 then BitVec.ofNat 3 (t.count.toNat + 1) else 4

/-- REFPUSH, make a raster the most recent reference (42_reconstruct.md R180). -/
def execRefpush (s : State) : Host.Outcome State Fault Refusal :=
  match checkRefpush s.latch with
  | some e => .next (State.trap e s)
  | none => .next (State.finish { s with refs := RefTable.pushed s.latch.refs s.latch.regs.push })

/-- REFCLR, empty the reference table (42_reconstruct.md R181). -/
def execRefclr (s : State) : Host.Outcome State Fault Refusal :=
  .next (State.finish { s with refs := RefTable.empty })

end Sys2Proof.Machine
end

