-- ==== Sys2Proof/Machine/Transform.lean ====
section
/-! DEFINITION. The DCT-2D unit and the quantiser (40_transform.md): FDCTQ, DQIDCT, XFWD, XINV. -/

namespace Sys2Proof.Machine

/-- `K8`, row `k`, column `n` at entry `8 k + n` (40_transform.md R113). -/
def basis8 : List Int :=
  [5793, 5793, 5793, 5793, 5793, 5793, 5793, 5793,
   8035, 6811, 4551, 1598, -1598, -4551, -6811, -8035,
   7568, 3135, -3135, -7568, -7568, -3135, 3135, 7568,
   6811, -1598, -8035, -4551, 4551, 8035, 1598, -6811,
   5793, -5793, -5793, 5793, 5793, -5793, -5793, 5793,
   4551, -8035, 1598, 6811, -6811, -1598, 8035, -4551,
   3135, -7568, 7568, -3135, -3135, 7568, -7568, 3135,
   1598, -4551, 6811, -8035, 8035, -6811, 4551, -1598]

/-- `K4`, row `k`, column `n` at entry `4 k + n` (40_transform.md R113). -/
def basis4 : List Int :=
  [8192, 8192, 8192, 8192, 10703, 4433, -4433, -10703, 8192, -8192, -8192, 8192, 4433, -10703, 10703, -4433]

/-- `K2`, row `k`, column `n` at entry `2 k + n` (40_transform.md R113). -/
def basis2 : List Int := [11585, 11585, 11585, -11585]

/-- `K_m(k, n)` (40_transform.md R113); 0 for a size that has no basis. -/
def basis (m k n : Nat) : Int :=
  match m with
  | 8 => basis8.getD (8 * k + n) 0
  | 4 => basis4.getD (4 * k + n) 0
  | 2 => basis2.getD (2 * k + n) 0
  | _ => 0

/-- `FwdInt_m(P)(a, b)` (40_transform.md R114). -/
def fwdInt (m : Nat) (p : Plane) : Plane := fun a b =>
  sumTo m fun x => sumTo m fun y => basis m a x * basis m b y * (p x y - 128)

/-- `InvInt_m(D)(x, y)` (40_transform.md R116). -/
def invInt (m : Nat) (d : Plane) : Plane := fun x y =>
  sumTo m fun a => sumTo m fun b => basis m a x * basis m b y * d a b

/-- A quantiser table: the entry of a horizontal and a vertical frequency. -/
abbrev QTable := Nat → Nat → Nat

/-- A table that lists entry `(a, b)` at `m b + a` (10_state.md R42). -/
def tableOf (m : Nat) (t : List Nat) : QTable := fun a b => t.getD (m * b + a) 1

/-- `Qtab(m, t)` (40_transform.md R118). The pairs without a table never get here (`E_SIZE`). -/
def qtab (p : Params) (m : Nat) : QSel → QTable
  | .l => if m = 8 then tableOf 8 p.ql8 else tableOf 4 p.ql4
  | .c => if m = 4 then tableOf 4 p.qc4 else tableOf 2 p.qc2
  | .u => fun _ _ => 1

/-- `Quant(P, Q)(a, b)` before its range check (40_transform.md R115). -/
def quant (m : Nat) (q : QTable) (p : Plane) : Plane := fun a b =>
  rn (fwdInt m p a b) (q a b * 2 ^ 28)

/-- `Deq(L, Q)(a, b)` (40_transform.md R116). -/
def deq (q : QTable) (l : Plane) : Plane := fun a b => l a b * (q a b : Int)

/-- `Recon(L, Q)(x, y)` before its range check (40_transform.md R116). -/
def recon (m : Nat) (q : QTable) (l : Plane) : Plane := fun x y =>
  128 + rn (invInt m (deq q l) x y) (2 ^ 28)

/-! ## Plane commands -/

/-- The checks of FDCTQ and DQIDCT with codes 2 to 8, in order (40_transform.md R120). -/
def checkPlane (sz : BitVec 4) (t : QSel) (l : Latch) : Option ErrCode :=
  let o := l.regs
  let bytes := 2 * blockSize sz ^ 2
  firstFail
    [(!tableExists sz t, .size),
     (anyNull [o.src, o.dst], .null),
     (anyOdd [o.src, o.dst], .align),
     (anyPastTop [bufferRegion o.src bytes, bufferRegion o.dst bytes], .addr)]

/-- A plane command that turns the plane at `SRC` into the plane at `DST` (20_memory.md R69). -/
def jobPlane (f : Plane → Plane) (sz : BitVec 4) (s : State) : Job :=
  let o := s.latch.regs
  let m := blockSize sz
  let src := bufferRegion o.src (2 * m ^ 2)
  { bases := [o.src, o.dst]
    reads := [src]
    readFoot := [src]
    foot := planeAddrs o.dst.toNat m
    ranges := true
    writes := checkedWrites (planeWrites o.dst.toNat m (f (Memory.plane s.mem o.src.toNat m)))
    results := .keep }

/-- FDCTQ's reads, levels and writes (40_transform.md R121). -/
def jobFdctq (sz : BitVec 4) (t : QSel) (s : State) : Job :=
  jobPlane (quant (blockSize sz) (qtab s.cfg (blockSize sz) t)) sz s

/-- DQIDCT's reads, samples and writes (40_transform.md R122). -/
def jobDqidct (sz : BitVec 4) (t : QSel) (s : State) : Job :=
  jobPlane (recon (blockSize sz) (qtab s.cfg (blockSize sz) t)) sz s

/-- FDCTQ, forward transform and quantise one plane (40_transform.md R121). -/
def execFdctq (sz : BitVec 4) (t : QSel) (s : State) : Host.Outcome State Fault Refusal :=
  State.runCommand (checkPlane sz t s.latch) (jobFdctq sz t s) s

/-- DQIDCT, dequantise and inverse-transform one plane (40_transform.md R122). -/
def execDqidct (sz : BitVec 4) (t : QSel) (s : State) : Host.Outcome State Fault Refusal :=
  State.runCommand (checkPlane sz t s.latch) (jobDqidct sz t s) s

/-! ## Block commands -/

/-- The checks of XFWD and XINV with codes 2 to 8, in order (40_transform.md R124). -/
def checkXform (sz : BitVec 4) (l : Latch) : Option ErrCode :=
  let o := l.regs
  let bytes := 3 * blockSize sz ^ 2
  firstFail
    [(!blockSizeLegal sz, .size),
     (anyNull [o.src, o.dst], .null),
     (anyOdd [o.src, o.dst], .align),
     (anyPastTop [bufferRegion o.src bytes, bufferRegion o.dst bytes], .addr)]

/-- Sub-plane `(tx, ty)` of size `m` of a plane (40_transform.md R123). -/
def subPlane (m tx ty : Nat) (p : Plane) : Plane := fun i j => p (m * tx + i) (m * ty + j)

/-- Where sub-unit `k` of a coefficient list at `b` lies, `N ≥ 8` (20_memory.md R68). -/
def subUnit (b k : Nat) : Nat := b + 192 * k

/-- The sub-units of a block of size `n ≥ 8`, `(tx, ty)`, in the order of their index (40_transform.md R123). -/
def subUnits (n : Nat) : List (Nat × Nat) := cells (n / 8)

/-- The index of sub-unit `(tx, ty)` (40_transform.md R123). -/
def subIndex (n tx ty : Nat) : Nat := ty * (n / 8) + tx

/-- The element addresses of a coefficient list of block size `n` at `b` (20_memory.md R68). -/
def listAddrs (b n : Nat) : List Nat :=
  if n = 4 then planeAddrs b 4 ++ planeAddrs (b + 32) 2 ++ planeAddrs (b + 40) 2
  else (subUnits n).flatMap fun c =>
    let d := subUnit b (subIndex n c.1 c.2)
    planeAddrs d 8 ++ planeAddrs (d + 128) 4 ++ planeAddrs (d + 160) 4

/-- The writes of XFWD's coefficient list (40_transform.md R124). -/
def forwardWrites (p : Params) (b n : Nat) (y u v : Plane) : List (Nat × Int) :=
  if n = 4 then
    planeWrites b 4 (quant 4 (tableOf 4 p.ql4) y)
      ++ planeWrites (b + 32) 2 (quant 2 (tableOf 2 p.qc2) u)
      ++ planeWrites (b + 40) 2 (quant 2 (tableOf 2 p.qc2) v)
  else (subUnits n).flatMap fun c =>
    let d := subUnit b (subIndex n c.1 c.2)
    planeWrites d 8 (quant 8 (tableOf 8 p.ql8) (subPlane 8 c.1 c.2 y))
      ++ planeWrites (d + 128) 4 (quant 4 (tableOf 4 p.qc4) (subPlane 4 c.1 c.2 u))
      ++ planeWrites (d + 160) 4 (quant 4 (tableOf 4 p.qc4) (subPlane 4 c.1 c.2 v))

/-- A plane of a block put together from its sub-units: the sample at `(x, y)` comes from sub-unit
`(x div m, y div m)`, whose level plane lies at offset `off` in it (40_transform.md R123, R125). -/
def tiledRecon (mem : Memory) (b n m off : Nat) (q : QTable) : Plane := fun x y =>
  recon m q (Memory.plane mem (subUnit b (subIndex n (x / m) (y / m)) + off) m) (x % m) (y % m)

/-- The samples XINV writes: planes Y, U, V of the block (40_transform.md R125). -/
def inverseY (p : Params) (mem : Memory) (b n : Nat) : Plane :=
  if n = 4 then recon 4 (tableOf 4 p.ql4) (Memory.plane mem b 4) else tiledRecon mem b n 8 0 (tableOf 8 p.ql8)

/-- Plane U of XINV (40_transform.md R125). -/
def inverseU (p : Params) (mem : Memory) (b n : Nat) : Plane :=
  if n = 4 then recon 2 (tableOf 2 p.qc2) (Memory.plane mem (b + 32) 2)
  else tiledRecon mem b n 4 128 (tableOf 4 p.qc4)

/-- Plane V of XINV (40_transform.md R125). -/
def inverseV (p : Params) (mem : Memory) (b n : Nat) : Plane :=
  if n = 4 then recon 2 (tableOf 2 p.qc2) (Memory.plane mem (b + 40) 2)
  else tiledRecon mem b n 4 160 (tableOf 4 p.qc4)

/-- XFWD's reads, levels and writes (40_transform.md R124). -/
def jobXfwd (sz : BitVec 4) (s : State) : Job :=
  let o := s.latch.regs
  let n := blockSize sz
  let b := o.src.toNat
  let src := bufferRegion o.src (3 * n ^ 2)
  { bases := [o.src, o.dst]
    reads := [src]
    readFoot := [src]
    foot := listAddrs o.dst.toNat n
    ranges := true
    writes := checkedWrites (forwardWrites s.cfg o.dst.toNat n (Memory.plane s.mem b n)
      (Memory.plane s.mem (bundleU b n) (n / 2)) (Memory.plane s.mem (bundleV b n) (n / 2)))
    results := .keep }

/-- XINV's reads, samples and writes (40_transform.md R125). -/
def jobXinv (sz : BitVec 4) (s : State) : Job :=
  let o := s.latch.regs
  let n := blockSize sz
  let b := o.src.toNat
  let src := bufferRegion o.src (3 * n ^ 2)
  { bases := [o.src, o.dst]
    reads := [src]
    readFoot := [src]
    foot := bundle3Addrs o.dst.toNat n
    ranges := true
    writes := checkedWrites (bundle3Writes o.dst.toNat n (inverseY s.cfg s.mem b n) (inverseU s.cfg s.mem b n)
      (inverseV s.cfg s.mem b n))
    results := .keep }

/-- XFWD, forward transform and quantise one block's residual (40_transform.md R124). -/
def execXfwd (sz : BitVec 4) (s : State) : Host.Outcome State Fault Refusal :=
  State.runCommand (checkXform sz s.latch) (jobXfwd sz s) s

/-- XINV, dequantise and inverse-transform one block's coefficient list (40_transform.md R125). -/
def execXinv (sz : BitVec 4) (s : State) : Host.Outcome State Fault Refusal :=
  State.runCommand (checkXform sz s.latch) (jobXinv sz s) s

end Sys2Proof.Machine
end

