-- ==== Sys2Proof/Machine/Dispatch.lean ====
section
/-! DEFINITION. What each command does when it completes: one arm per constructor of Instr. -/

namespace Sys2Proof.Machine

def exec (i : Instr) (s : State) : Host.Outcome State Fault Refusal :=
  match i with
  | .nop => Sys2Proof.Machine.execNop s
  | .fdctq sz t => Sys2Proof.Machine.execFdctq sz t s
  | .dqidct sz t => Sys2Proof.Machine.execDqidct sz t s
  | .xfwd sz => Sys2Proof.Machine.execXfwd sz s
  | .xinv sz => Sys2Proof.Machine.execXinv sz s
  | .extract sz r => Sys2Proof.Machine.execExtract sz r s
  | .cost sz alpha => Sys2Proof.Machine.execCost sz alpha s
  | .msearch sz => Sys2Proof.Machine.execMsearch sz s
  | .resid sz => Sys2Proof.Machine.execResid sz s
  | .mc sz => Sys2Proof.Machine.execMc sz s
  | .intra sz => Sys2Proof.Machine.execIntra sz s
  | .dblk sz => Sys2Proof.Machine.execDblk sz s
  | .refpush => Sys2Proof.Machine.execRefpush s
  | .refclr => Sys2Proof.Machine.execRefclr s

end Sys2Proof.Machine
end

