-- ==== Sys2Proof/Machine/Footprint.lean ====
section
/-! DEFINITION. What the command in flight may read and write (20_memory.md R69), for the three rules that ask:
races (R77), reads of the write footprint (R77), and a reset in flight (70_reset_and_hazards.md R232). -/

namespace Sys2Proof.Machine

/-- The checks with codes 2 to 8 of a command (60_exceptions.md R212). -/
def checkOf (i : Instr) (l : Latch) : Option ErrCode :=
  match i with
  | .nop => none
  | .fdctq sz t => checkPlane sz t l
  | .dqidct sz t => checkPlane sz t l
  | .xfwd sz => checkXform sz l
  | .xinv sz => checkXform sz l
  | .extract sz r => checkExtract sz r l
  | .cost sz _ => checkCost sz l
  | .msearch sz => checkMsearch sz l
  | .resid sz => checkResid sz l
  | .mc sz => checkMc sz l
  | .intra sz => checkIntra sz l
  | .dblk sz => checkDblk sz l
  | .refpush => checkRefpush l
  | .refclr => none

/-- The data-memory work of a command; none for the commands with no data path (60_exceptions.md R225). -/
def jobOf (i : Instr) (s : State) : Option Job :=
  match i with
  | .nop => none
  | .fdctq sz t => some (jobFdctq sz t s)
  | .dqidct sz t => some (jobDqidct sz t s)
  | .xfwd sz => some (jobXfwd sz s)
  | .xinv sz => some (jobXinv sz s)
  | .extract sz r => some (jobExtract sz r s)
  | .cost sz alpha => some (jobCost sz alpha s)
  | .msearch sz => some (jobMsearch sz s)
  | .resid sz => some (jobResid sz s)
  | .mc sz => some (jobMc sz s)
  | .intra sz => some (jobIntra sz s)
  | .dblk sz => some (jobDblk sz s)
  | .refpush => none
  | .refclr => none

/-- The job of the command in flight. A command that fails one of the codes 1 to 8 makes no access
(60_exceptions.md R212), so it has none; nor has an idle core. -/
def State.inFlight (s : State) : Option Job :=
  if s.status.busy then
    match decode s.latch.word with
    | .error _ => none
    | .ok i =>
      match checkOf i s.latch with
      | some _ => none
      | none => jobOf i s
  else none

/-- The write footprint of the command in flight, as element addresses. -/
def State.writeFootprint (s : State) : List Nat :=
  match State.inFlight s with
  | some j => j.foot
  | none => []

/-- The read footprint of the command in flight. -/
def State.readFootprint (s : State) : List Region :=
  match State.inFlight s with
  | some j => j.readFoot
  | none => []

/-- Whether a byte address lies in the write footprint of the command in flight. -/
def State.inWriteFootprint (s : State) (a : Nat) : Bool :=
  (State.writeFootprint s).any fun e => Region.contains (elemRegion e) a

/-- Whether a byte address lies in the footprint of the command in flight. -/
def State.inFootprint (s : State) (a : Nat) : Bool :=
  (State.readFootprint s).any (fun r => Region.contains r a) || State.inWriteFootprint s a

/-- Hardware reset and soft reset alike (70_reset_and_hazards.md R230 to R232): the registers take their reset
values; if a command was in flight, every element of its write footprint is unspecified. All of that happens at the
reset: no write of the abandoned command arrives after it, although R232 excludes such writes only once the host has
read `BUSY = 0` (DESIGN CHOICE, unsafe; log 27). The free values are fresh: none that a host read has shown before
binds them (DESIGN CHOICE, log 28). -/
def State.resetCore (s : State) : State :=
  State.resetRegs
    { s with
      mem := Memory.scramble s.cfg s.freeCtr s.mem (State.writeFootprint s)
      freeCtr := s.freeCtr + (State.writeFootprint s).length }

end Sys2Proof.Machine
end

