-- ==== Sys2Proof/Machine/Window.lean ====
section
/-! DEFINITION. The register window (10_state.md): which register stands at which offset, what it reads, what a
write does. -/

namespace Sys2Proof.Machine

/-- The registers of the window (10_state.md R24 to R45). -/
inductive Reg where
  | id | ctrl | status | cmd | errcode | errinfo
  | frameW | frameH
  | curY | curU | curV
  | compY | compU | compV
  | laY | laU | laV
  | pushY | pushU | pushV
  | refY (n : Nat) | refU (n : Nat) | refV (n : Nat)
  | refcnt
  | vPosX | vPosY | vSpanX | vSpanY | vRef
  | src | dst
  | tY | tC
  | dbkStrength
  | cost (k : Nat)
  | ql8 (i : Nat) | ql4 (i : Nat) | qc4 (i : Nat) | qc2 (i : Nat)
  | idxMax
  | alpha (i : Nat) | beta (i : Nat) | ctab (i : Nat)
  | k8 (i : Nat) | k4 (i : Nat) | k2 (i : Nat)
  | reserved
deriving DecidableEq, Repr

/-- The register at an offset below 0x400 (10_state.md section 8). -/
def lowReg (off : Nat) : Reg :=
  match off with
  | 0x000 => .id
  | 0x004 => .ctrl
  | 0x008 => .status
  | 0x00C => .cmd
  | 0x010 => .errcode
  | 0x014 => .errinfo
  | 0x018 => .frameW
  | 0x01C => .frameH
  | 0x020 => .curY
  | 0x024 => .curU
  | 0x028 => .curV
  | 0x030 => .compY
  | 0x034 => .compU
  | 0x038 => .compV
  | 0x040 => .laY
  | 0x044 => .laU
  | 0x048 => .laV
  | 0x050 => .pushY
  | 0x054 => .pushU
  | 0x058 => .pushV
  | 0x060 => .refY 0
  | 0x064 => .refU 0
  | 0x068 => .refV 0
  | 0x070 => .refY 1
  | 0x074 => .refU 1
  | 0x078 => .refV 1
  | 0x080 => .refY 2
  | 0x084 => .refU 2
  | 0x088 => .refV 2
  | 0x090 => .refY 3
  | 0x094 => .refU 3
  | 0x098 => .refV 3
  | 0x0A0 => .refcnt
  | 0x0B0 => .vPosX
  | 0x0B4 => .vPosY
  | 0x0B8 => .vSpanX
  | 0x0BC => .vSpanY
  | 0x0C0 => .vRef
  | 0x0C4 => .src
  | 0x0C8 => .dst
  | 0x0D0 => .tY
  | 0x0D4 => .tC
  | 0x0D8 => .dbkStrength
  | 0x0E0 => .cost 0
  | 0x0E4 => .cost 1
  | 0x0E8 => .cost 2
  | 0x0EC => .cost 3
  | _ => .reserved

/-- The entry of a table of `n` words at `base`, if the offset falls into it. -/
def tableEntry (base n off : Nat) : Option Nat :=
  if base ≤ off ∧ off < base + 4 * n then some ((off - base) / 4) else none

/-- The first table a list of `(base, words, register)` has at an offset. -/
def tableReg (off : Nat) : List (Nat × Nat × (Nat → Reg)) → Reg
  | [] => .reserved
  | (base, n, f) :: rest =>
    match tableEntry base n off with
    | some i => f i
    | none => tableReg off rest

/-- The register at an aligned offset of the window (10_state.md R23 to R45). -/
def regAt (off : Nat) : Reg :=
  if off < 0x400 then lowReg off
  else tableReg off
    [(0x400, 64, .ql8), (0x500, 16, .ql4), (0x540, 16, .qc4), (0x580, 4, .qc2), (0x5C0, 1, fun _ => .idxMax),
     (0x600, 64, .alpha), (0x700, 64, .beta), (0x800, 64, .ctab), (0x900, 64, .k8), (0xA00, 16, .k4),
     (0xA40, 4, .k2)]

/-- Zero-extension of a stored value. -/
def zextReg {w : Nat} (v : BitVec w) : Word := v.setWidth 32

/-- Sign-extension of a stored value. -/
def sextReg {w : Nat} (v : BitVec w) : Word := v.signExtend 32

/-- What a deblocking table entry reads: 0 beyond `IDXMAX` (10_state.md R43). -/
def deblockEntry (p : Params) (t : List Nat) (i : Nat) : Word :=
  if i ≤ p.idxMax then BitVec.ofNat 32 (t.getD i 0) else 0

/-- What a slot of the reference table reads; an invalid slot reads 0 (10_state.md R34). -/
def slotReg (t : RefTable) (n : Nat) (f : Raster → Word) : Word :=
  if n < t.count.toNat then f (RefTable.slot t n) else 0

/-- What the host reads from a register (10_state.md R24 to R45). Reads have no side effects (R23). -/
def State.readReg (s : State) : Reg → Word
  | .id => 0x59560201
  | .ctrl => Ctrl.toWord s.ctrl
  | .status => Status.toWord s.status
  | .cmd => s.cmd
  | .errcode => BitVec.ofNat 32 (errCodeNum s.errCode)
  | .errinfo => s.errInfo
  | .frameW => zextReg s.regs.frameW
  | .frameH => zextReg s.regs.frameH
  | .curY => s.regs.cur.y
  | .curU => s.regs.cur.u
  | .curV => s.regs.cur.v
  | .compY => s.regs.comp.y
  | .compU => s.regs.comp.u
  | .compV => s.regs.comp.v
  | .laY => s.regs.la.y
  | .laU => s.regs.la.u
  | .laV => s.regs.la.v
  | .pushY => s.regs.push.y
  | .pushU => s.regs.push.u
  | .pushV => s.regs.push.v
  | .refY n => slotReg s.refs n Raster.y
  | .refU n => slotReg s.refs n Raster.u
  | .refV n => slotReg s.refs n Raster.v
  | .refcnt => zextReg s.refs.count
  | .vPosX => sextReg s.regs.vPosX
  | .vPosY => sextReg s.regs.vPosY
  | .vSpanX => sextReg s.regs.vSpanX
  | .vSpanY => sextReg s.regs.vSpanY
  | .vRef => sextReg s.regs.vRef
  | .src => s.regs.src
  | .dst => s.regs.dst
  | .tY => zextReg s.regs.tY
  | .tC => zextReg s.regs.tC
  | .dbkStrength => zextReg s.regs.dbkStrength
  | .cost k => s.cost.extractLsb' (32 * k) 32
  | .ql8 i => BitVec.ofNat 32 (s.cfg.ql8.getD i 0)
  | .ql4 i => BitVec.ofNat 32 (s.cfg.ql4.getD i 0)
  | .qc4 i => BitVec.ofNat 32 (s.cfg.qc4.getD i 0)
  | .qc2 i => BitVec.ofNat 32 (s.cfg.qc2.getD i 0)
  | .idxMax => BitVec.ofNat 32 s.cfg.idxMax
  | .alpha i => deblockEntry s.cfg s.cfg.alpha i
  | .beta i => deblockEntry s.cfg s.cfg.beta i
  | .ctab i => deblockEntry s.cfg s.cfg.ctab i
  | .k8 i => BitVec.ofInt 32 (basis8.getD i 0)
  | .k4 i => BitVec.ofInt 32 (basis4.getD i 0)
  | .k2 i => BitVec.ofInt 32 (basis2.getD i 0)
  | .reserved => 0

/-- The operand registers with one of them written, its stored width kept (10_state.md R23, R29 to R40); `none`
for a register that is not an operand register. -/
def Operands.write (o : Operands) (v : Word) : Reg → Option Operands
  | .frameW => some { o with frameW := v.setWidth 16 }
  | .frameH => some { o with frameH := v.setWidth 16 }
  | .curY => some { o with cur := { o.cur with y := v } }
  | .curU => some { o with cur := { o.cur with u := v } }
  | .curV => some { o with cur := { o.cur with v := v } }
  | .compY => some { o with comp := { o.comp with y := v } }
  | .compU => some { o with comp := { o.comp with u := v } }
  | .compV => some { o with comp := { o.comp with v := v } }
  | .laY => some { o with la := { o.la with y := v } }
  | .laU => some { o with la := { o.la with u := v } }
  | .laV => some { o with la := { o.la with v := v } }
  | .pushY => some { o with push := { o.push with y := v } }
  | .pushU => some { o with push := { o.push with u := v } }
  | .pushV => some { o with push := { o.push with v := v } }
  | .vPosX => some { o with vPosX := v.setWidth 16 }
  | .vPosY => some { o with vPosY := v.setWidth 16 }
  | .vSpanX => some { o with vSpanX := v.setWidth 16 }
  | .vSpanY => some { o with vSpanY := v.setWidth 16 }
  | .vRef => some { o with vRef := v.setWidth 16 }
  | .src => some { o with src := v }
  | .dst => some { o with dst := v }
  | .tY => some { o with tY := v.setWidth 16 }
  | .tC => some { o with tC := v.setWidth 16 }
  | .dbkStrength => some { o with dbkStrength := v.setWidth 8 }
  | _ => none

/-- A host write to a register (10_state.md R25 to R27, R51): `CTRL` and `STATUS` always; `CMD` launches when the
core is idle without error and is otherwise discarded with `OVR`; an operand register is discarded with `OVR`
while `BUSY`; a read-only register ignores it (R23, R45; log 15). -/
def State.writeReg (s : State) (r : Reg) (v : Word) : State :=
  match r with
  | .ctrl => if v.getLsbD 31 then State.resetCore s else { s with ctrl := Ctrl.ofWord v }
  | .status => { s with status := Status.clearOnWrite s.status v }
  | .cmd => if s.status.busy || s.status.err then State.overrun s else State.launch v s
  | r =>
    match Operands.write s.regs v r with
    | none => s
    | some o => if s.status.busy then State.overrun s else { s with regs := o }

end Sys2Proof.Machine
end

