-- ==== Sys2Proof/Machine/HostPort.lean ====
section
/-! DEFINITION. The events of the world outside the core (log 4): bus accesses of the host, hardware reset, bus
errors, and the core's own turn. -/

namespace Sys2Proof.Machine

/-- The bytes of a bus access. -/
def BusSize.bytes : BusSize → Nat
  | .byte => 1
  | .half => 2
  | .word => 4

/-- The byte addresses of a bus access. -/
def busRegion (addr : Word) (size : BusSize) : Region := ⟨addr.toNat, BusSize.bytes size⟩

/-- The access touches the register window. -/
def State.touchesWindow (s : State) (addr : Word) (size : BusSize) : Bool :=
  Region.overlaps (busRegion addr size) (Params.window s.cfg)

/-- An aligned 32-bit access, the only kind the register window has (10_state.md R23). -/
def windowAccessOk (addr : Word) (size : BusSize) : Bool :=
  size == .word && addr.toNat % 4 == 0

/-- The offset of an address in the register window (10_state.md R23). -/
def State.windowOffset (s : State) (addr : Word) : Nat := addr.toNat - s.cfg.regBase.toNat

/-- The first byte of a host access to data memory that is not backed. -/
def State.hostHole (s : State) (addr : Word) (size : BusSize) : Option Nat :=
  ((List.range (BusSize.bytes size)).map (addr.toNat + ·)).find? fun a => !Params.backed s.cfg a

/-- The host stores the low bytes of a word, the lowest first (20_memory.md R61). -/
def Memory.storeBytes : Memory → Nat → Nat → Word → Memory
  | m, _, 0, _ => m
  | m, a, k + 1, v => Memory.storeBytes (Memory.setByte m a (v.extractLsb' 0 8)) (a + 1) k (v >>> 8)

/-- Bytes put together to a word, the first the lowest (20_memory.md R61). -/
def wordOfBytes : List Byte → Word
  | [] => 0
  | b :: rest => (wordOfBytes rest <<< 8) ||| b.setWidth 32

/-- The host writes data memory. Writing the footprint of the command in flight is a race (20_memory.md R77). -/
def State.hostStore (s : State) (addr : Word) (size : BusSize) (v : Word) : State :=
  let n := BusSize.bytes size
  { s with
    mem := Memory.storeBytes s.mem addr.toNat n v
    raced := s.raced || ((List.range n).map (addr.toNat + ·)).any (State.inFootprint s) }

/-- The core's turn: the command in flight completes; a word that is no encoding faults with `E_ILLEGAL`
(60_exceptions.md R201); an idle core does nothing (10_state.md R50). -/
def State.turn (s : State) : Host.Outcome State Fault Refusal :=
  if s.status.busy then
    match decode s.latch.word with
    | .ok i => exec i s
    | .error _ => .next (State.trap .illegal s)
  else .next s

/-- The state in which the completion of the command in flight would leave the core, if it came right after a host
read: the read's own choices, at most three, are set apart from the completion's free values (log 28). -/
def State.afterTurn (s : State) : State :=
  let u := { s with freeCtr := s.freeCtr + 3 }
  match State.turn u with
  | .next t => t
  | _ => u

/-- The data memory as the completion of the command in flight would leave it. -/
def State.memAfter (s : State) : Memory := (State.afterTurn s).mem

/-- One byte of a host read: an element in the write footprint of the command in flight is either the old or the
new value, unspecified which (20_memory.md R77; log 25). The element that `a` belongs to picks its own choice. -/
def State.hostByte (s : State) (first a : Nat) : Byte :=
  if State.inWriteFootprint s a && Config.freeBool (s.freeCtr + (a / 2 - first / 2)) then
    Memory.byte (State.memAfter s) a
  else Memory.byte s.mem a

/-- The host reads data memory. If it reads the write footprint of the command in flight, its choices and all free
values that stand behind the new values it may show are used up: no later read, completion or reset draws one of them
again. So the free values of each read, of the completion and of a reset are independent (DESIGN CHOICE, log 28: the
spec says of each element "any `S16` value", 20_memory.md R77, 70_reset_and_hazards.md R232, R240, and not whether one
of them binds another). -/
def State.hostLoad (s : State) (addr : Word) (size : BusSize) : State :=
  let as := (List.range (BusSize.bytes size)).map (addr.toNat + ·)
  { s with
    rdata := wordOfBytes (as.map (State.hostByte s addr.toNat))
    freeCtr := if as.any (State.inWriteFootprint s) then (State.afterTurn s).freeCtr else s.freeCtr }

/-- A host write: the register window, or data memory elsewhere (20_memory.md R60). -/
def State.hostWrite (s : State) (addr : Word) (size : BusSize) (v : Word) : Host.Outcome State Fault Refusal :=
  if State.touchesWindow s addr size then
    if windowAccessOk addr size then .next (State.writeReg s (regAt (State.windowOffset s addr)) v)
    else .refused .windowAccess
  else
    match State.hostHole s addr size with
    | some a => .fault (.hostUnbacked a)
    | none => .next (State.hostStore s addr size v)

/-- A host read: the register window, or data memory elsewhere (20_memory.md R60). -/
def State.hostRead (s : State) (addr : Word) (size : BusSize) : Host.Outcome State Fault Refusal :=
  if State.touchesWindow s addr size then
    if windowAccessOk addr size then
      .next { s with rdata := State.readReg s (regAt (State.windowOffset s addr)) }
    else .refused .windowAccess
  else
    match State.hostHole s addr size with
    | some a => .fault (.hostUnbacked a)
    | none => .next (State.hostLoad s addr size)

/-- The platform's bus error reaches a command in flight only (60_exceptions.md R209; log 23). -/
def State.busErrorAt (s : State) (addr : Word) : State :=
  if s.status.busy then { s with busRefused := addr.toNat :: s.busRefused } else s

/-- One event. -/
def State.event (s : State) : HostEvent → Host.Outcome State Fault Refusal
  | .write addr size v => State.hostWrite s addr size v
  | .read addr size => State.hostRead s addr size
  | .hardReset => .next (State.resetCore s)
  | .busError addr => .next (State.busErrorAt s addr)
  | .coreTurn => State.turn s

/-- The step's work: the oldest event of the inbox; with no event left the core has its turn, so a command in
flight completes (70_reset_and_hazards.md R250; log 4). -/
def State.advance (s : State) : Host.Outcome State Fault Refusal :=
  match s.inbox with
  | [] => State.turn s
  | e :: rest => State.event { s with inbox := rest } e

/-- The host's write of a command word to `CMD` has just been accepted, and the core has its turn next. -/
def State.launchNext (s : State) (w : Word) : State :=
  { State.launch w s with inbox := .coreTurn :: s.inbox }

end Sys2Proof.Machine
end

