-- ==== Sys2Proof/Machine/Step.lean ====
section
/-! DEFINITION. One step of the machine, and how a command word comes to run. -/

namespace Sys2Proof.Machine

/-- One step: one event of the world outside, or the core's turn (log 4). -/
def step (s : State) : Host.Outcome State Fault Refusal := State.advance s

/-- The state in which the very next step runs the command word: the host's write to `CMD` has just launched it
(10_state.md R50) and the core has its turn (log 4). The table's bits are those of the word. -/
def State.withFetchWord (s : State) (nbits w : Nat) : State :=
  State.launchNext s (BitVec.ofNat 32 (w % 2 ^ nbits))

end Sys2Proof.Machine
end

