-- ==== Sys2Proof/Safety.lean ====
section
/-! DEFINITION. What counts as a safe state and an ended run, in the terms the claims use. -/

namespace Sys2Proof.Machine

/-- A state with `ERR = 1` is a faulted state, never a final one (70_reset_and_hazards.md R251). -/
def State.faulted (s : State) : Bool := s.status.err

/-- A run has ended well: the core is idle and no fault is latched (70_reset_and_hazards.md R251). -/
def State.endedWell (s : State) : Bool := !s.status.busy && !s.status.err

/-- The flags never contradict each other: a launched command waits with `DONE` clear and no error; a latched
error has `DONE` clear (10_state.md R50, R51, 60_exceptions.md R210, R214). -/
def State.FlagsOk (s : State) : Prop :=
  (s.status.busy = true → s.status.done = false ∧ s.status.err = false)
    ∧ (s.status.err = true → s.status.done = false)

/-- `ERRCODE` and `ERRINFO` are 0 exactly while `ERR` is 0, but for the word, which may be 0 too
(10_state.md R28). -/
def State.ErrorLatchOk (s : State) : Prop :=
  (s.errCode = none ↔ s.status.err = false) ∧ (s.status.err = false → s.errInfo = 0)
    ∧ (s.status.err = true → s.errInfo = s.cmd)

/-- The latch differs from the visible registers only in `LA_EN`, and is empty when nothing is in flight
(10_state.md R48, R51, 70_reset_and_hazards.md R230); so are the model's own marks on a command in flight. -/
def State.LatchOk (s : State) : Prop :=
  (s.status.busy = true → s.latch.regs = s.regs ∧ s.latch.refs = s.refs ∧ s.latch.word = s.cmd)
    ∧ (s.status.busy = false → s.latch = Latch.empty ∧ s.raced = false ∧ s.busRefused = [])

/-- A base register that passed the null and alignment checks (60_exceptions.md R204, R205). -/
def baseOk (b : Word) : Prop := b ≠ 0 ∧ b.toNat % 2 = 0

/-- A slot of the reference table: pushed and checked if valid, 0 if not (10_state.md R34, 60_exceptions.md
R204). -/
def slotOk (valid : Prop) (r : Raster) : Prop :=
  (valid → baseOk r.y ∧ baseOk r.u ∧ baseOk r.v) ∧ (¬ valid → r = Raster.null)

/-- The reference table as REFPUSH and REFCLR leave it (10_state.md R34). -/
def RefTable.Ok (t : RefTable) : Prop :=
  t.count.toNat ≤ 4
    ∧ slotOk (0 < t.count.toNat) t.slot0 ∧ slotOk (1 < t.count.toNat) t.slot1
    ∧ slotOk (2 < t.count.toNat) t.slot2 ∧ slotOk (3 < t.count.toNat) t.slot3

/-- Every byte of data memory that was written lies in the 2^32-byte address space (20_memory.md R60, R70). -/
def Memory.Bounded (m : Memory) : Prop := ∀ c ∈ m, c.1 < 2 ^ 32

/-- What every step keeps. -/
structure State.Inv (s : State) : Prop where
  flags : State.FlagsOk s
  errorLatch : State.ErrorLatchOk s
  latch : State.LatchOk s
  table : RefTable.Ok s.refs
  memWf : Memory.wf s.mem = true
  memBounded : Memory.Bounded s.mem
  params : s.cfg.legal = true

/-! ## What a command may touch -/

/-- A data byte that the command in flight can access: backed by data memory outside the register window
(20_memory.md R60, R70), and not one at which the platform signals a bus error (60_exceptions.md R209). -/
def State.canAccess (s : State) (a : Nat) : Prop := Params.backed s.cfg a = true ∧ a ∉ s.busRefused

/-- Every byte of a region can be accessed; so the region ends inside the address space. -/
def State.CanAccess (s : State) (r : Region) : Prop := ∀ k, k < r.bytes → State.canAccess s (r.base + k)

/-- No byte outside a region differs (20_memory.md R63). -/
def Memory.SameOutside (r : Region) (m m' : Memory) : Prop :=
  ∀ a, (a < r.base ∨ r.base + r.bytes ≤ a) → Memory.byte m' a = Memory.byte m a

/-- No byte outside the elements at these addresses differs (20_memory.md R63). -/
def Memory.SameOutsideElems (es : List Nat) (m m' : Memory) : Prop :=
  ∀ a, (∀ e ∈ es, a ≠ e ∧ a ≠ e + 1) → Memory.byte m' a = Memory.byte m a

/-- `t` is `s` after a successful completion that changed no register: `BUSY` fell, `DONE` rose, the latch is
empty (the model's choice, log 13), every other register and flag is what it was (10_state.md R50). Data memory is
not said. -/
structure State.CompletedFrom (s t : State) : Prop where
  status : t.status = { s.status with busy := false, done := true }
  latch : t.latch = Latch.empty
  cfg : t.cfg = s.cfg
  ctrl : t.ctrl = s.ctrl
  cmd : t.cmd = s.cmd
  errCode : t.errCode = s.errCode
  errInfo : t.errInfo = s.errInfo
  regs : t.regs = s.regs
  refs : t.refs = s.refs
  cost : t.cost = s.cost
  inbox : t.inbox = s.inbox
  rdata : t.rdata = s.rdata

/-! ## When a command can run to its result -/

/-- A plane command with an existing table, legal buffers and memory behind both; nobody raced with it
(40_transform.md R120). -/
structure PlaneReady (sz : BitVec 4) (t : QSel) (s : State) : Prop where
  pair : Instr.planePairOk sz t = true
  src : baseOk s.latch.regs.src
  dst : baseOk s.latch.regs.dst
  reads : State.CanAccess s (bufferRegion s.latch.regs.src (2 * blockSize sz ^ 2))
  writes : State.CanAccess s (bufferRegion s.latch.regs.dst (2 * blockSize sz ^ 2))
  quiet : s.raced = false

/-- A block transform with a legal size, legal buffers and memory behind both; nobody raced with it
(40_transform.md R124). -/
structure BlockReady (sz : BitVec 4) (s : State) : Prop where
  size : Instr.blockSizeOk sz = true
  src : baseOk s.latch.regs.src
  dst : baseOk s.latch.regs.dst
  reads : State.CanAccess s (bufferRegion s.latch.regs.src (3 * blockSize sz ^ 2))
  writes : State.CanAccess s (bufferRegion s.latch.regs.dst (3 * blockSize sz ^ 2))
  quiet : s.raced = false

/-- A raster with legal bases and memory behind its three planes (20_memory.md R64, R70). -/
structure RasterReady (s : State) (r : Raster) : Prop where
  y : baseOk r.y
  u : baseOk r.u
  v : baseOk r.v
  planes : ∀ p ∈ Operands.rasterRegions s.latch.regs r, State.CanAccess s p

/-- A buffer with a legal base and memory behind it (20_memory.md R70). -/
structure BufferReady (s : State) (b : Word) (bytes : Nat) : Prop where
  base : baseOk b
  bytes : State.CanAccess s (bufferRegion b bytes)

/-- A raster command with a legal size and frame that nobody raced with (41_motion_search.md R143,
42_reconstruct.md R171). -/
structure FrameReady (sz : BitVec 4) (s : State) : Prop where
  size : Instr.blockSizeOk sz = true
  width : frameDimLegal s.latch.regs.frameW = true
  height : frameDimLegal s.latch.regs.frameH = true
  quiet : s.raced = false

/-- The element `(addr, value)` pairs that writing a block of planes `y`, `u`, `v` at `S` to the composite
stands for, clipped to the frame (42_reconstruct.md R172). -/
def BlockWrite (o : Operands) (n : Nat) (y u v : Plane) (addr : Nat) (value : Int) : Prop :=
  (∃ i j, i < n ∧ j < n ∧ inside o.w o.h (o.sx + i) (o.sy + j) = true
      ∧ addr = planeAddr o.comp.y.toNat o.w (o.sx + i).toNat (o.sy + j).toNat ∧ value = y i j)
    ∨ (∃ i j, i < n / 2 ∧ j < n / 2 ∧ inside (o.w / 2) (o.h / 2) (o.sx / 2 + i) (o.sy / 2 + j) = true
      ∧ ((addr = planeAddr o.comp.u.toNat (o.w / 2) (o.sx / 2 + i).toNat (o.sy / 2 + j).toNat ∧ value = u i j)
        ∨ (addr = planeAddr o.comp.v.toNat (o.w / 2) (o.sx / 2 + i).toNat (o.sy / 2 + j).toNat
            ∧ value = v i j)))

/-- The three planes of the composite share no byte (20_memory.md R72). -/
def CompDisjoint (o : Operands) : Prop :=
  (Operands.rasterRegions o o.comp).Pairwise fun p q => Region.overlaps p q = false

/-- What the filter leaves in the four samples next to an edge: its results, or, untouched, what they held
(43_deblock.md R192). -/
def filtered (f : FilterParams) (e : EdgeSamples) : EdgeResult :=
  (filt f e).getD ⟨e.p1, e.p0, e.q0, e.q1⟩

/-- The sample `k` places behind the first of the four. -/
def EdgeResult.sample (r : EdgeResult) : Nat → Int
  | 0 => r.p1
  | 1 => r.p0
  | 2 => r.q0
  | _ => r.q1

/-- A plane after the left-edge pass, each row by itself (43_deblock.md R193). -/
def leftFiltered (f : FilterParams) (o : Operands) (n : Nat) (p : Plane) : Plane := fun x y =>
  let tx := o.sx.toNat
  if 3 ≤ o.sx ∧ o.sx + 2 < o.w ∧ 0 < o.sy ∧ o.sy ≤ y ∧ (y : Int) < o.sy + n ∧ y < o.h ∧ tx - 2 ≤ x ∧ x < tx + 2
  then (filtered f ⟨p (tx - 3) y, p (tx - 2) y, p (tx - 1) y, p tx y, p (tx + 1) y, p (tx + 2) y⟩).sample (x - (tx - 2))
  else p x y

/-- A plane after the top-edge pass, each column by itself (43_deblock.md R193). -/
def topFiltered (f : FilterParams) (o : Operands) (n : Nat) (p : Plane) : Plane := fun x y =>
  let ty := o.sy.toNat
  if 3 ≤ o.sy ∧ o.sy + 2 < o.h ∧ 0 < o.sx ∧ o.sx ≤ x ∧ (x : Int) < o.sx + n ∧ x < o.w ∧ ty - 2 ≤ y ∧ y < ty + 2
  then (filtered f ⟨p x (ty - 3), p x (ty - 2), p x (ty - 1), p x ty, p x (ty + 1), p x (ty + 2)⟩).sample (y - (ty - 2))
  else p x y

/-- The element addresses of the blocks that every MSEARCH reads: the searched block, and the 25 blocks of the
refinement in each reference (41_motion_search.md R155, R158). -/
def searchAlwaysReads (n : Nat) (l : Latch) (e : Nat) : Prop :=
  let o := l.regs
  e ∈ o.blockAddrs o.cur o.sx o.sy n
    ∨ ∃ tr ∈ Latch.searchOrder l, ∃ dx dy : Int, dx.natAbs ≤ 2 ∧ dy.natAbs ≤ 2
      ∧ e ∈ o.blockAddrs tr.2 (o.sx + dx) (o.sy + dy) n

/-- The element addresses of the blocks that some MSEARCH of these operands reads: those, and the blocks at the
admissible positions of each reference (41_motion_search.md R151, R153). -/
def searchMayRead (n : Nat) (l : Latch) (e : Nat) : Prop :=
  let o := l.regs
  searchAlwaysReads n l e
    ∨ ∃ tr ∈ Latch.searchOrder l, ∃ px py : Int, (px - o.sx).natAbs ≤ 48 ∧ (py - o.sy).natAbs ≤ 48
      ∧ 0 ≤ px ∧ px < o.w ∧ 0 ≤ py ∧ py < o.h ∧ e ∈ o.blockAddrs tr.2 px py n

/-! ## What the host does -/

/-- `s` with one more thing to happen, before everything that is already to come (log 4). -/
def State.given (s : State) (e : HostEvent) : State := { s with inbox := e :: s.inbox }

/-- The byte address of the register at an offset (10_state.md R23). -/
def State.regAddr (s : State) (off : Nat) : Word := s.cfg.regBase + BitVec.ofNat 32 off

/-- `s` when the host next writes a register. -/
def State.hostWrites (s : State) (off : Nat) (v : Word) : State :=
  State.given s (.write (State.regAddr s off) .word v)

/-- `s` when the host next reads a register. -/
def State.hostReads (s : State) (off : Nat) : State :=
  State.given s (.read (State.regAddr s off) .word)

/-- How a register shows a written value: its stored width, and the extension of a read (10_state.md R23). -/
inductive RegView where
  | word | unsigned16 | signed16 | unsigned8
deriving DecidableEq, Repr

/-- What a read returns after a write of `v` (10_state.md R23). -/
def RegView.shows : RegView → Word → Word
  | .word, v => v
  | .unsigned16, v => BitVec.ofNat 32 (v.toNat % 65536)
  | .signed16, v => (v.extractLsb' 0 16).signExtend 32
  | .unsigned8, v => BitVec.ofNat 32 (v.toNat % 256)

/-- The twenty-four operand registers, written out from the register map of 10_state.md section 8. -/
def operandRegs : List (Nat × RegView) :=
  [(0x018, .unsigned16), (0x01C, .unsigned16),
   (0x020, .word), (0x024, .word), (0x028, .word), (0x030, .word), (0x034, .word), (0x038, .word),
   (0x040, .word), (0x044, .word), (0x048, .word), (0x050, .word), (0x054, .word), (0x058, .word),
   (0x0B0, .signed16), (0x0B4, .signed16), (0x0B8, .signed16), (0x0BC, .signed16), (0x0C0, .signed16),
   (0x0C4, .word), (0x0C8, .word), (0x0D0, .unsigned16), (0x0D4, .unsigned16), (0x0D8, .unsigned8)]

/-- The offsets that 10_state.md R24 to R44 name, as runs `(first, words)` of 32-bit registers. -/
def namedRuns : List (Nat × Nat) :=
  [(0x000, 11), (0x030, 3), (0x040, 3), (0x050, 3), (0x060, 3), (0x070, 3), (0x080, 3), (0x090, 3), (0x0A0, 1),
   (0x0B0, 7), (0x0D0, 3), (0x0E0, 4), (0x400, 64), (0x500, 16), (0x540, 16), (0x580, 4), (0x5C0, 1),
   (0x600, 64), (0x700, 64), (0x800, 64), (0x900, 64), (0xA00, 16), (0xA40, 4)]

/-- An offset that R24 to R44 name. -/
def offsetNamed (off : Nat) : Bool :=
  namedRuns.any fun r => decide (r.1 ≤ off) && decide (off < r.1 + 4 * r.2)

/-- An offset the host can write: `CTRL`, `STATUS`, `CMD`, the operand registers (10_state.md section 8). -/
def offsetWritable (off : Nat) : Bool :=
  off == 0x004 || off == 0x008 || off == 0x00C || operandRegs.any fun r => r.1 == off

/-- What `ERRCODE` reads, written out from the table of 60_exceptions.md R200. -/
def errCodeShown : Option ErrCode → Word
  | none => 0
  | some .illegal => 1
  | some .size => 2
  | some .config => 3
  | some .ref => 4
  | some .null => 5
  | some .align => 6
  | some .pos => 7
  | some .addr => 8
  | some .bus => 9
  | some .range => 10

/-- The bits of a register, the lowest first. -/
def bitsShown : List Bool → Nat
  | [] => 0
  | b :: rest => b.toNat + 2 * bitsShown rest

/-! ## What makes a command fault, from 60_exceptions.md -/

/-- A byte address lies in the register window (20_memory.md R60). -/
def State.windowByte (s : State) (a : Nat) : Prop :=
  s.cfg.regBase.toNat ≤ a ∧ a < s.cfg.regBase.toNat + 4096

/-- The platform refuses a byte of a region: it is no memory, or lies in the register window, where `MemValid` is
false for the core's port (92_eei_decisions.md, OPEN parameters), or the bus signals an error (20_memory.md R70,
60_exceptions.md R209). -/
def State.refusesByte (s : State) (r : Region) : Prop :=
  ∃ k, k < r.bytes ∧ (Params.memValid s.cfg (r.base + k) = false ∨ s.windowByte (r.base + k)
    ∨ r.base + k ∈ s.busRefused)

/-- A word that is no encoding of a command, field by field (60_exceptions.md R201). -/
def illegalWord (w : Nat) : Bool :=
  let opc := w % 256
  let sz := w / 256 % 16
  let qsel := w / 4096 % 4
  let a := w / 16384 % 2
  let rsel := w / 32768 % 4
  !([0, 1, 2, 3, 4, 8, 9, 10, 11, 16, 17, 18, 24, 25].contains opc)
    || w / 131072 != 0
    || qsel == 3 || rsel == 3
    || (qsel != 0 && !([1, 2].contains opc))
    || (a != 0 && opc != 9)
    || (rsel != 0 && opc != 8)
    || (sz != 0 && [0, 24, 25].contains opc)

/-- The commands that read `FRAME_W` and `FRAME_H` (10_state.md R21). -/
def readsFrame : Instr → Bool
  | .nop => false
  | .fdctq _ _ => false
  | .dqidct _ _ => false
  | .xfwd _ => false
  | .xinv _ => false
  | .extract _ _ => true
  | .cost _ _ => true
  | .msearch _ => true
  | .resid _ => true
  | .mc _ => true
  | .intra _ => true
  | .dblk _ => true
  | .refpush => true
  | .refclr => false

/-- The commands that resolve `V_REF` (60_exceptions.md R200, code 4). -/
def resolvesRef : Instr → Bool
  | .nop => false
  | .fdctq _ _ => false
  | .dqidct _ _ => false
  | .xfwd _ => false
  | .xinv _ => false
  | .extract _ r => r == .ref
  | .cost _ _ => true
  | .msearch _ => false
  | .resid _ => true
  | .mc _ => true
  | .intra _ => false
  | .dblk _ => false
  | .refpush => false
  | .refclr => false

/-- `V_REF` names no raster (60_exceptions.md R206, in its own words). -/
def refMissing (l : Latch) : Prop :=
  let r := l.regs.vRef.toInt
  (¬ (1 ≤ r ∧ r ≤ 4) ∧ r ≠ -1) ∨ (1 ≤ r ∧ r ≤ 4 ∧ (l.refs.count.toNat : Int) ≤ 4 - r)
    ∨ (r = -1 ∧ l.laEn = false)

/-- The base registers a command uses (60_exceptions.md R204). -/
def usedBases (i : Instr) (l : Latch) : List Word :=
  let o := l.regs
  let resolved := if o.vRef.toInt = -1 then [o.la.y, o.la.u, o.la.v] else []
  match i with
  | .nop => []
  | .fdctq _ _ => [o.src, o.dst]
  | .dqidct _ _ => [o.src, o.dst]
  | .xfwd _ => [o.src, o.dst]
  | .xinv _ => [o.src, o.dst]
  | .extract _ .cur => [o.cur.y, o.cur.u, o.cur.v, o.dst]
  | .extract _ .comp => [o.comp.y, o.comp.u, o.comp.v, o.dst]
  | .extract _ .ref => o.dst :: resolved
  | .cost _ _ => [o.cur.y, o.cur.u, o.cur.v] ++ resolved
  | .msearch _ => [o.cur.y, o.cur.u, o.cur.v] ++ (if l.laEn then [o.la.y, o.la.u, o.la.v] else [])
  | .resid _ => [o.cur.y, o.cur.u, o.cur.v, o.dst] ++ resolved
  | .mc _ => [o.comp.y, o.comp.u, o.comp.v, o.src] ++ resolved
  | .intra _ => [o.comp.y, o.comp.u, o.comp.v, o.src]
  | .dblk _ => [o.comp.y, o.comp.u, o.comp.v]
  | .refpush => [o.push.y, o.push.u, o.push.v]
  | .refclr => []

/-- The base registers of the rasters and buffers through which a command reads and writes data memory
(20_memory.md R69, 41_motion_search.md R157). -/
def accessBases (i : Instr) (l : Latch) : List Word :=
  let o := l.regs
  let three := fun r : Raster => [r.y, r.u, r.v]
  let resolved := ((Latch.resolve l).map three).getD []
  match i with
  | .nop => []
  | .fdctq _ _ => [o.src, o.dst]
  | .dqidct _ _ => [o.src, o.dst]
  | .xfwd _ => [o.src, o.dst]
  | .xinv _ => [o.src, o.dst]
  | .extract _ .cur => o.dst :: three o.cur
  | .extract _ .comp => o.dst :: three o.comp
  | .extract _ .ref => o.dst :: resolved
  | .cost _ _ => three o.cur ++ resolved
  | .msearch _ => three o.cur ++ (Latch.searchOrder l).flatMap fun tr => three tr.2
  | .resid _ => o.dst :: (three o.cur ++ resolved)
  | .mc _ => o.src :: (three o.comp ++ resolved)
  | .intra _ => o.src :: three o.comp
  | .dblk _ => [o.comp.y]
  | .refpush => []
  | .refclr => []

/-- A command reads or writes data memory through a base register that points into the register window
(20_memory.md R60, 93_implementation_defined.md U8). -/
def State.baseMisplaced (i : Instr) (s : State) : Prop := ∃ b ∈ accessBases i s.latch, s.windowByte b.toNat

/-- The regions a command uses: the whole planes of its rasters, and its buffers (60_exceptions.md R208,
20_memory.md R69). -/
def usedRegions (i : Instr) (l : Latch) : List Region :=
  let o := l.regs
  let whole := Operands.rasterRegions o
  let resolved := ((Latch.resolve l).map whole).getD []
  match i with
  | .nop => []
  | .fdctq sz _ => [⟨o.src.toNat, 2 * blockSize sz ^ 2⟩, ⟨o.dst.toNat, 2 * blockSize sz ^ 2⟩]
  | .dqidct sz _ => [⟨o.src.toNat, 2 * blockSize sz ^ 2⟩, ⟨o.dst.toNat, 2 * blockSize sz ^ 2⟩]
  | .xfwd sz => [⟨o.src.toNat, 3 * blockSize sz ^ 2⟩, ⟨o.dst.toNat, 3 * blockSize sz ^ 2⟩]
  | .xinv sz => [⟨o.src.toNat, 3 * blockSize sz ^ 2⟩, ⟨o.dst.toNat, 3 * blockSize sz ^ 2⟩]
  | .extract sz .cur => ⟨o.dst.toNat, 5 * blockSize sz ^ 2⟩ :: whole o.cur
  | .extract sz .comp => ⟨o.dst.toNat, 5 * blockSize sz ^ 2⟩ :: whole o.comp
  | .extract sz .ref => ⟨o.dst.toNat, 5 * blockSize sz ^ 2⟩ :: resolved
  | .cost _ _ => whole o.cur ++ resolved
  | .msearch _ => whole o.cur ++ (Latch.searchOrder l).flatMap fun tr => whole tr.2
  | .resid sz => ⟨o.dst.toNat, 3 * blockSize sz ^ 2⟩ :: (whole o.cur ++ resolved)
  | .mc sz => ⟨o.src.toNat, 3 * blockSize sz ^ 2⟩ :: (whole o.comp ++ resolved)
  | .intra sz => ⟨o.src.toNat, 3 * blockSize sz ^ 2⟩ :: whole o.comp
  | .dblk _ => whole o.comp
  | .refpush => whole o.push
  | .refclr => []

/-- The command meets the condition of a code in 2 to 8 (60_exceptions.md R202 to R208); the codes 1, 9 and 10
are no conditions on the latch alone. -/
def failsCheck (i : Instr) (l : Latch) : ErrCode → Prop
  | .illegal => False
  | .size => i.wellFormed = false
  | .config => readsFrame i = true ∧ (frameDimLegal l.regs.frameW = false ∨ frameDimLegal l.regs.frameH = false)
  | .ref => resolvesRef i = true ∧ refMissing l
  | .null => ∃ b ∈ usedBases i l, b = 0
  | .align => ∃ b ∈ usedBases i l, b.toNat % 2 = 1
  | .pos => (∃ sz, i = .msearch sz)
      ∧ ¬ (0 ≤ l.regs.sx ∧ l.regs.sx < l.regs.w ∧ 0 ≤ l.regs.sy ∧ l.regs.sy < l.regs.h)
  | .addr => ∃ r ∈ usedRegions i l, 2 ^ 32 < r.base + r.bytes
  | .bus => False
  | .range => False

end Sys2Proof.Machine
end

