-- ==== Sys2Proof/Certificates/Slice0/Obligations.lean ====
section
/-! DEFINITION. The statements for the provers: what the numbered rules of spec/ say of the machine. -/

open Sys2Proof Sys2Proof.Machine

/-! ## Encoding -/

/-- 30_encoding.md R90 to R98: a word decodes to a command exactly when it is that command's encoding. -/
def Obligations.DecodeEncodeAgree : Prop :=
  ∀ (w : Word) (i : Instr), decode w = .ok i ↔ encode i = w

/-- 30_encoding.md R101: the worked encodings. -/
def Obligations.WorkedEncodings : Prop :=
  ∀ p ∈ [((0x00000301 : Word), Instr.fdctq 3 .l), (0x00001201, .fdctq 2 .c), (0x00002101, .fdctq 1 .u),
      (0x00000302, .dqidct 3 .l), (0x00000403, .xfwd 4), (0x00000404, .xinv 4), (0x00010308, .extract 3 .ref),
      (0x00004309, .cost 3 true), (0x00000309, .cost 3 false), (0x0000040A, .msearch 4),
      (0x0000040B, .resid 4), (0x00000410, .mc 4), (0x00000211, .intra 2), (0x00000312, .dblk 3),
      (0x00000018, .refpush), (0x00000019, .refclr), (0x00000000, .nop)],
    decode p.1 = .ok p.2

/-- 60_exceptions.md R201: the core's turn faults with `E_ILLEGAL` on a word that is no encoding, field by field;
every other word is a command, which it executes. That a word of a bad size or without a table is such a command,
which faults by itself (30_encoding.md R92, 60_exceptions.md R202), is the model's reading, log 12; that a step with
no event to come is the core's turn is the model's choice, log 4. -/
def Obligations.IllegalWordFaults : Prop :=
  ∀ s : State, s.status.busy = true → s.inbox = [] →
    (illegalWord s.latch.word.toNat = true → step s = .next (State.trap .illegal s))
      ∧ (illegalWord s.latch.word.toNat = false → ∃ i, decode s.latch.word = .ok i ∧ step s = exec i s)

/-! ## The step -/

/-- A step of a core with a command in flight is `exec` of the decoded command, when nothing else happens or
when the core's turn is the next event; a step of an idle core then changes nothing (10_state.md R50). The events
that a step takes are the model's choice, log 4. -/
def Obligations.StepRunsDecodedCommand : Prop :=
  (∀ (s : State) (i : Instr), s.status.busy = true → decode s.latch.word = .ok i →
      (s.inbox = [] → step s = exec i s) ∧ step (s.given .coreTurn) = exec i s)
    ∧ ∀ s : State, s.status.busy = false →
      (s.inbox = [] → step s = .next s) ∧ step (s.given .coreTurn) = .next s

/-- 10_state.md R27: a write to `CMD` launches its word when the core is idle and without error, whatever the
word is; otherwise it is discarded and sets `OVR`. A read returns the last word launched, 0 after reset. -/
def Obligations.CmdWriteLaunches : Prop :=
  (∀ (s : State) (w : Word), s.cfg.legal = true →
      (s.status.busy = false → s.status.err = false →
        ∃ t, step (s.hostWrites 0x00C w) = .next t
          ∧ t = { s with
              cmd := w
              status := { s.status with busy := true, done := false }
              latch := ⟨w, s.ctrl.laEn, s.regs, s.refs⟩
              raced := t.raced
              busRefused := t.busRefused }
          ∧ (∀ e, decode w = .error e → step (t.given .coreTurn) = .next (State.trap .illegal t)))
        ∧ (s.status.busy = true ∨ s.status.err = true →
          step (s.hostWrites 0x00C w) = .next { s with status := { s.status with ovr := true } })
        ∧ step (s.hostReads 0x00C) = .next { s with rdata := s.cmd })
    ∧ State.reset.cmd = 0

/-- 10_state.md R51, with R25 and R26: a write to `CTRL` stores its three bits or resets the core, and a write to
`STATUS` clears what it names, in every state; what the host's other writes do while the core is busy or in
error. -/
def Obligations.WritesWhileNotIdle : Prop :=
  ∀ (s : State) (v : Word), s.cfg.legal = true →
    (v.getLsbD 31 = false → step (s.hostWrites 0x004 v)
        = .next { s with ctrl := ⟨v.getLsbD 0, v.getLsbD 1, v.getLsbD 2⟩ })
      ∧ (v.getLsbD 31 = true → step (s.hostWrites 0x004 v) = step (s.given .hardReset))
      ∧ step (s.hostWrites 0x008 v)
        = .next { s with
            status := { s.status with
              done := s.status.done && !v.getLsbD 1
              ovr := s.status.ovr && !v.getLsbD 4 } }
      ∧ (s.status.busy = true ∨ s.status.err = true →
        step (s.hostWrites 0x00C v) = .next { s with status := { s.status with ovr := true } })
      ∧ (s.status.busy = true → ∀ r ∈ operandRegs,
        step (s.hostWrites r.1 v) = .next { s with status := { s.status with ovr := true } })
      ∧ (s.status.busy = false → ∀ r ∈ operandRegs, ∃ t, step (s.hostWrites r.1 v) = .next t
        ∧ t = { s with regs := t.regs }
        ∧ step (t.hostReads r.1) = .next { t with rdata := r.2.shows v })

/-! ## The register window -/

/-- 10_state.md R23 for the operand registers of R29 to R40: a write keeps the stored bits of one register, a
read extends them, no other operand register is touched. -/
def Obligations.OperandRegisterReadBack : Prop :=
  ∀ (s : State) (v : Word), s.cfg.legal = true → s.status.busy = false → ∀ r ∈ operandRegs,
    ∃ t, step (s.hostWrites r.1 v) = .next t ∧ t = { s with regs := t.regs }
      ∧ step (t.hostReads r.1) = .next { t with rdata := r.2.shows v }
      ∧ ∀ q ∈ operandRegs, q.1 ≠ r.1 →
        ∃ d, step (s.hostReads q.1) = .next { s with rdata := d }
          ∧ step (t.hostReads q.1) = .next { t with rdata := d }

/-- 10_state.md R45: an unlisted offset reads 0 and ignores writes. -/
def Obligations.UnlistedOffsetsReadZero : Prop :=
  ∀ (s : State) (off : Nat) (v : Word), s.cfg.legal = true → off < 4096 → off % 4 = 0 →
    offsetNamed off = false →
    step (s.hostReads off) = .next { s with rdata := 0 } ∧ step (s.hostWrites off v) = .next s

/-- 10_state.md R23: a read has no side effect (it leaves its data in `rdata`, a field of the model's own,
log 5); a read-only register ignores a write, also while the core is busy (the model's reading, log 15). What a read
of `ID`, `CTRL`, `STATUS`, `ERRCODE`, `ERRINFO`, the reference table and `COST0` to `COST3` returns: R24, R25, R26,
R28, R34, R41. -/
def Obligations.ReadsAndReadOnlyWritesChangeNothing : Prop :=
  ∀ s : State, s.cfg.legal = true →
    (∀ off, off < 4096 → off % 4 = 0 →
      (∃ d, step (s.hostReads off) = .next { s with rdata := d })
        ∧ (offsetWritable off = false → ∀ v, step (s.hostWrites off v) = .next s))
      ∧ step (s.hostReads 0x000) = .next { s with rdata := 0x59560201 }
      ∧ step (s.hostReads 0x004)
        = .next { s with rdata := BitVec.ofNat 32 (bitsShown [s.ctrl.ieDone, s.ctrl.ieErr, s.ctrl.laEn]) }
      ∧ step (s.hostReads 0x008)
        = .next { s with
            rdata := BitVec.ofNat 32 (bitsShown
              [s.status.busy, s.status.done, s.status.err, s.status.matched, s.status.ovr]) }
      ∧ step (s.hostReads 0x010) = .next { s with rdata := errCodeShown s.errCode }
      ∧ step (s.hostReads 0x014) = .next { s with rdata := s.errInfo }
      ∧ (∀ slot ∈ [(0, s.refs.slot0), (1, s.refs.slot1), (2, s.refs.slot2), (3, s.refs.slot3)],
        let shown := fun v : Word => if slot.1 < s.refs.count.toNat then v else 0
        step (s.hostReads (0x060 + 16 * slot.1)) = .next { s with rdata := shown slot.2.y }
          ∧ step (s.hostReads (0x064 + 16 * slot.1)) = .next { s with rdata := shown slot.2.u }
          ∧ step (s.hostReads (0x068 + 16 * slot.1)) = .next { s with rdata := shown slot.2.v })
      ∧ step (s.hostReads 0x0A0) = .next { s with rdata := BitVec.ofNat 32 s.refs.count.toNat }
      ∧ ∀ k, k < 4 →
        step (s.hostReads (0x0E0 + 4 * k)) = .next { s with rdata := BitVec.ofNat 32 (s.cost.toNat / 2 ^ (32 * k)) }

/-- The register window takes aligned 32-bit accesses only; the model refuses any other (10_state.md R23,
93_implementation_defined.md U7); an access that only partly lies in it counts too (the model's choice, log 10). -/
def Obligations.WindowNeedsAlignedWords : Prop :=
  ∀ (s : State) (addr : Word) (size : BusSize) (v : Word),
    (∃ k, k < size.bytes ∧ s.cfg.regBase.toNat ≤ addr.toNat + k ∧ addr.toNat + k < s.cfg.regBase.toNat + 4096) →
    (size ≠ .word ∨ addr.toNat % 4 ≠ 0) →
    step (s.given (.write addr size v)) = .refused .windowAccess
      ∧ step (s.given (.read addr size)) = .refused .windowAccess

/-- 10_state.md R42 to R44: the tables the host reads are the ones the commands use, each at its offset. -/
def Obligations.TablesReadBack : Prop :=
  ∀ s : State, s.cfg.legal = true →
    (∀ a b, a < 8 → b < 8 → step (s.hostReads (0x400 + 4 * (8 * b + a)))
        = .next { s with rdata := BitVec.ofNat 32 (qtab s.cfg 8 .l a b) })
      ∧ (∀ a b, a < 4 → b < 4 → step (s.hostReads (0x500 + 4 * (4 * b + a)))
        = .next { s with rdata := BitVec.ofNat 32 (qtab s.cfg 4 .l a b) })
      ∧ (∀ a b, a < 4 → b < 4 → step (s.hostReads (0x540 + 4 * (4 * b + a)))
        = .next { s with rdata := BitVec.ofNat 32 (qtab s.cfg 4 .c a b) })
      ∧ (∀ a b, a < 2 → b < 2 → step (s.hostReads (0x580 + 4 * (2 * b + a)))
        = .next { s with rdata := BitVec.ofNat 32 (qtab s.cfg 2 .c a b) })
      ∧ step (s.hostReads 0x5C0) = .next { s with rdata := BitVec.ofNat 32 s.cfg.idxMax }
      ∧ (∀ i, i < 64 →
        step (s.hostReads (0x600 + 4 * i))
            = .next { s with rdata := if i ≤ s.cfg.idxMax then BitVec.ofNat 32 (s.cfg.alpha.getD i 0) else 0 }
          ∧ step (s.hostReads (0x700 + 4 * i))
            = .next { s with rdata := if i ≤ s.cfg.idxMax then BitVec.ofNat 32 (s.cfg.beta.getD i 0) else 0 }
          ∧ step (s.hostReads (0x800 + 4 * i))
            = .next { s with rdata := if i ≤ s.cfg.idxMax then BitVec.ofNat 32 (s.cfg.ctab.getD i 0) else 0 })
      ∧ (∀ k n, k < 8 → n < 8 → step (s.hostReads (0x900 + 4 * (8 * k + n)))
        = .next { s with rdata := BitVec.ofInt 32 (basis 8 k n) })
      ∧ (∀ k n, k < 4 → n < 4 → step (s.hostReads (0xA00 + 4 * (4 * k + n)))
        = .next { s with rdata := BitVec.ofInt 32 (basis 4 k n) })
      ∧ ∀ k n, k < 2 → n < 2 → step (s.hostReads (0xA40 + 4 * (2 * k + n)))
        = .next { s with rdata := BitVec.ofInt 32 (basis 2 k n) }

/-- 60_exceptions.md R215: the interrupt line is a function of the flags and their enables; acknowledging
`DONE` leaves only the error source. -/
def Obligations.InterruptLine : Prop :=
  (∀ s : State, s.irq = true ↔
      (s.status.done = true ∧ s.ctrl.ieDone = true) ∨ (s.status.err = true ∧ s.ctrl.ieErr = true))
    ∧ ∀ s : State, s.cfg.legal = true → ∃ t, step (s.hostWrites 0x008 2) = .next t
      ∧ t.irq = (s.status.err && s.ctrl.ieErr)

/-! ## Faults -/

/-- 60_exceptions.md R202: an unsupported size, or a pair without a table, is `E_SIZE`. -/
def Obligations.SizeFaults : Prop :=
  ∀ (i : Instr) (s : State), i.wellFormed = false → exec i s = .next (State.trap .size s)

/-- 60_exceptions.md R203: a command that reads the frame size faults with `E_CONFIG` unless both dimensions
are multiples of 4 in 4..16384; after reset both are 0. -/
def Obligations.FrameSizeFaults : Prop :=
  (∀ (i : Instr) (s : State), i.wellFormed = true → readsFrame i = true →
      ¬ (s.latch.regs.frameW.toNat % 4 = 0 ∧ 4 ≤ s.latch.regs.frameW.toNat ∧ s.latch.regs.frameW.toNat ≤ 16384
        ∧ s.latch.regs.frameH.toNat % 4 = 0 ∧ 4 ≤ s.latch.regs.frameH.toNat
        ∧ s.latch.regs.frameH.toNat ≤ 16384) →
      exec i s = .next (State.trap .config s))
    ∧ State.reset.regs.frameW = 0 ∧ State.reset.regs.frameH = 0

/-- 60_exceptions.md R206: a command that resolves `V_REF` and finds no raster faults with `E_REF`; MSEARCH
never does. -/
def Obligations.ReferenceFaults : Prop :=
  (∀ (i : Instr) (s : State), i.wellFormed = true → resolvesRef i = true →
      frameDimLegal s.latch.regs.frameW = true → frameDimLegal s.latch.regs.frameH = true →
      refMissing s.latch → exec i s = .next (State.trap .ref s))
    ∧ ∀ (sz : BitVec 4) (s t : State), exec (.msearch sz) s = .next t → s.errCode ≠ some .ref →
      t.errCode ≠ some .ref

/-- 60_exceptions.md R212 with the causes of R202 to R208: a command reports the first of the codes 2 to 8
whose condition it meets, decided from the latch alone; one that meets none of them can only end well, in
`E_BUS` or in `E_RANGE`. -/
def Obligations.FirstFailedCheckDecides : Prop :=
  (∀ (i : Instr) (s : State) (e : ErrCode), failsCheck i s.latch e →
      (∀ e', ErrCode.num e' < ErrCode.num e → ¬ failsCheck i s.latch e') →
      exec i s = .next (State.trap e s))
    ∧ ∀ (i : Instr) (s t : State), (∀ e, ¬ failsCheck i s.latch e) → s.errCode = none →
      exec i s = .next t → t.errCode = none ∨ t.errCode = some .bus ∨ t.errCode = some .range

/-- 60_exceptions.md R210: a fault writes `BUSY`, `ERR`, `ERRCODE` and `ERRINFO` and nothing else; `E_BUS` alone
may change data memory. The interrupt line rises if `IE_ERR` is set. -/
def Obligations.FaultLatch : Prop :=
  ∀ (s t : State) (e : ErrCode), s.status.busy = true → s.status.err = false → s.errCode = none →
    s.inbox = [] → step s = .next t → t.errCode = some e →
    t.status = { s.status with busy := false, err := true } ∧ t.errInfo = s.latch.word
      ∧ t.ctrl = s.ctrl ∧ t.cmd = s.cmd ∧ t.regs = s.regs ∧ t.refs = s.refs ∧ t.cost = s.cost ∧ t.cfg = s.cfg
      ∧ (e ≠ .bus → t.mem = s.mem)
      ∧ (s.ctrl.ieErr = true → t.irq = true)

/-- 60_exceptions.md R209: after `E_BUS` only the command's write footprint can differ. -/
def Obligations.BusFaultFrame : Prop :=
  ∀ s t : State, s.status.busy = true → s.errCode = none → s.inbox = [] → step s = .next t →
    t.errCode = some .bus → ∀ a, s.inWriteFootprint a = false → Memory.byte t.mem a = Memory.byte s.mem a

/-- 60_exceptions.md R209, R211, R212 on every command whose codes 2 to 8 pass and none of whose base registers points
into the register window: a refused byte that it reads is `E_BUS`, raced or not; else, of a command nobody raced with,
a result outside `S16` is `E_RANGE`, with nothing written, even where a write would be refused; else a refused byte
that it writes is `E_BUS`; else it succeeds. A byte is refused where `MemValid` is false, a hole or the register
window (20_memory.md R70), or where the bus signals an error. EXTRACT, COST, MSEARCH and INTRA have no `E_RANGE` (R200). The same for
FDCTQ and DQIDCT with their bytes and results written out. MSEARCH, raced or not, is `E_BUS` if a block it reads in
every case is refused, and only if one it may read is (41_motion_search.md R151, R155, R158). Which elements a
command reads is the model's reading, log 16 and log 18; what a raced search reads is the model's choice, log 26;
which base registers count is the model's choice, log 9. -/
def Obligations.BusAndRangeInOrder : Prop :=
  (∀ (i : Instr) (s : State) (j : Job), checkOf i s.latch = none → jobOf i s = some j →
      ¬ State.baseMisplaced i s →
      ((∃ r ∈ j.reads, State.refusesByte s r) → ∃ t, exec i s = .next t ∧ t.errCode = some .bus)
        ∧ ((∀ r ∈ j.reads, ¬ State.refusesByte s r) → s.raced = false →
          (j.writes = none → exec i s = .next (State.trap .range s))
            ∧ ∀ ws, j.writes = some ws →
              ((∃ w ∈ ws, State.refusesByte s ⟨w.1, 2⟩) → ∃ t, exec i s = .next t ∧ t.errCode = some .bus)
                ∧ ((∀ w ∈ ws, ¬ State.refusesByte s ⟨w.1, 2⟩) →
                  ∃ t, exec i s = .next t ∧ t.status.done = true ∧ t.errCode = s.errCode))
        ∧ ((∃ sz r, i = .extract sz r) ∨ (∃ sz a, i = .cost sz a) ∨ (∃ sz, i = .msearch sz) ∨ (∃ sz, i = .intra sz) →
          j.writes ≠ none))
    ∧ (∀ (sz : BitVec 4) (q : QSel) (s : State) (i : Instr) (f : Plane → Plane),
      ((i = .fdctq sz q ∧ f = quant (blockSize sz) (qtab s.cfg (blockSize sz) q))
        ∨ (i = .dqidct sz q ∧ f = recon (blockSize sz) (qtab s.cfg (blockSize sz) q))) →
      Instr.planePairOk sz q = true → baseOk s.latch.regs.src → baseOk s.latch.regs.dst → s.raced = false →
      s.latch.regs.src.toNat + 2 * blockSize sz ^ 2 ≤ 2 ^ 32 →
      s.latch.regs.dst.toNat + 2 * blockSize sz ^ 2 ≤ 2 ^ 32 →
      ¬ s.windowByte s.latch.regs.src.toNat → ¬ s.windowByte s.latch.regs.dst.toNat →
      let refused := fun a => Params.memValid s.cfg a = false ∨ s.windowByte a ∨ a ∈ s.busRefused
      let level := f (fun x y => Memory.elem s.mem (s.latch.regs.src.toNat + 2 * (y * blockSize sz + x)))
      ((∃ k, k < 2 * blockSize sz ^ 2 ∧ refused (s.latch.regs.src.toNat + k)) →
          ∃ t, exec i s = .next t ∧ t.errCode = some .bus)
        ∧ ((∀ k, k < 2 * blockSize sz ^ 2 → ¬ refused (s.latch.regs.src.toNat + k)) →
          (∃ a b, a < blockSize sz ∧ b < blockSize sz ∧ s16ok (level a b) = false) →
          exec i s = .next (State.trap .range s))
        ∧ ((∀ k, k < 2 * blockSize sz ^ 2 → ¬ refused (s.latch.regs.src.toNat + k)) →
          (∀ a b, a < blockSize sz → b < blockSize sz → s16ok (level a b) = true) →
          (∃ k, k < 2 * blockSize sz ^ 2 ∧ refused (s.latch.regs.dst.toNat + k)) →
          ∃ t, exec i s = .next t ∧ t.errCode = some .bus))
    ∧ ∀ (sz : BitVec 4) (s : State), checkOf (.msearch sz) s.latch = none →
      ¬ State.baseMisplaced (.msearch sz) s →
      ((∃ e, searchAlwaysReads (blockSize sz) s.latch e ∧ State.refusesByte s ⟨e, 2⟩) →
          ∃ t, exec (.msearch sz) s = .next t ∧ t.errCode = some .bus)
        ∧ ∀ t, exec (.msearch sz) s = .next t → s.errCode = none → t.errCode = some .bus →
          ∃ e, searchMayRead (blockSize sz) s.latch e ∧ State.refusesByte s ⟨e, 2⟩

/-- 60_exceptions.md R213, R214: an error stays latched, code and word, and no command runs, until a reset. -/
def Obligations.ErrorIsSticky : Prop :=
  ∀ s t : State, s.cfg.legal = true → s.status.err = true → s.status.busy = false → step s = .next t →
    (∀ rest, s.inbox ≠ .hardReset :: rest) →
    (∀ v rest, s.inbox = .write (s.regAddr 0x004) .word v :: rest → v.getLsbD 31 = false) →
    t.status.err = true ∧ t.status.busy = false ∧ t.errCode = s.errCode ∧ t.errInfo = s.errInfo ∧ t.cmd = s.cmd

/-- A command whose codes 2 to 8 pass is refused exactly if a base register through which it reads or writes data
memory points into the register window, wherever its elements lie (20_memory.md R60, 93_implementation_defined.md U8);
FDCTQ and DQIDCT whose `SRC` starts below the window and runs into it are `E_BUS` (20_memory.md R70). Which base registers
count, and that the refusal comes before any `E_BUS` and `E_RANGE`, is the model's choice, log 9. -/
def Obligations.WindowIsNotData : Prop :=
  (∀ (i : Instr) (s : State), checkOf i s.latch = none →
      (exec i s = .refused .windowAsData ↔ State.baseMisplaced i s))
    ∧ ∀ (sz : BitVec 4) (q : QSel) (s : State), Instr.planePairOk sz q = true →
      baseOk s.latch.regs.src → baseOk s.latch.regs.dst →
      s.latch.regs.src.toNat + 2 * blockSize sz ^ 2 ≤ 2 ^ 32 →
      s.latch.regs.dst.toNat + 2 * blockSize sz ^ 2 ≤ 2 ^ 32 →
      ¬ s.windowByte s.latch.regs.src.toNat → ¬ s.windowByte s.latch.regs.dst.toNat →
      (∃ k, k < 2 * blockSize sz ^ 2 ∧ s.windowByte (s.latch.regs.src.toNat + k)) →
      ∀ i, i = .fdctq sz q ∨ i = .dqidct sz q → ∃ t, exec i s = .next t ∧ t.errCode = some .bus

/-! ## Reset -/

/-- 10_state.md R52, 70_reset_and_hazards.md R230: what every register below the tables reads after hardware
reset, from any state; the tables are untouched, and so is data memory if the core was idle. -/
def Obligations.ResetValues : Prop :=
  ∀ s : State, s.cfg.legal = true → ∃ t, step (s.given .hardReset) = .next t
    ∧ t.latch = Latch.empty ∧ t.irq = false ∧ t.cfg = s.cfg
    ∧ (∀ off, off < 0x400 → off % 4 = 0 → step (t.hostReads off) = .next { t with
        rdata := if off = 0x000 then 0x59560201
          else if off = 0x0D0 then BitVec.ofNat 32 s.cfg.tYReset.toNat
          else if off = 0x0D4 then BitVec.ofNat 32 s.cfg.tCReset.toNat
          else 0 })
    ∧ (s.status.busy = false → t.mem = s.mem)

/-- 70_reset_and_hazards.md R231: a write of `SRST` has exactly the effect of hardware reset, in every state;
`CTRL` reads 0 afterwards; nothing but the two resets clears `ERR`. -/
def Obligations.SoftResetIsHardwareReset : Prop :=
  (∀ (s : State) (v : Word), s.cfg.legal = true → v.getLsbD 31 = true →
      step (s.hostWrites 0x004 v) = step (s.given .hardReset)
        ∧ ∃ t, step (s.hostWrites 0x004 v) = .next t ∧ step (t.hostReads 0x004) = .next { t with rdata := 0 })
    ∧ ∀ s t : State, s.cfg.legal = true → s.status.err = true → step s = .next t → t.status.err = false →
      (∃ rest, s.inbox = .hardReset :: rest)
        ∨ ∃ v rest, s.inbox = .write (s.regAddr 0x004) .word v :: rest ∧ v.getLsbD 31 = true

/-- 70_reset_and_hazards.md R232: a reset abandons the command in flight: it sets neither `DONE` nor `ERR`,
the core is idle, and outside the command's write footprint (20_memory.md R69) data memory is what it was. That a
command bound to fail one of the codes 1 to 8, which makes no access (60_exceptions.md R212), has no footprint here is
the model's reading, log 7; that no write of the abandoned command arrives after the reset, not even before the host
reads `BUSY = 0`, is the model's choice, log 27. -/
def Obligations.ResetAbandonsCommand : Prop :=
  ∀ s : State, s.status.busy = true → ∃ t, step (s.given .hardReset) = .next t
    ∧ t.status.busy = false ∧ t.status.done = false ∧ t.status.err = false ∧ t.cost = 0
    ∧ (∀ a, s.inWriteFootprint a = false → Memory.byte t.mem a = Memory.byte s.mem a)
    ∧ step (t.given .coreTurn) = .next t

/-- The state after reset meets the invariant. -/
def Obligations.ResetStateInv : Prop := State.Inv State.reset

/-! ## Transform commands -/

/-- 40_transform.md R121: FDCTQ writes the quantised levels of the plane at `SRC` to the plane at `DST`. -/
def Obligations.FdctqWritesLevels : Prop :=
  ∀ (sz : BitVec 4) (q : QSel) (s : State), PlaneReady sz q s →
    let m := blockSize sz
    let src := s.latch.regs.src.toNat
    let dst := s.latch.regs.dst.toNat
    let level := fun a b =>
      rn (fwdInt m (fun x y => Memory.elem s.mem (src + 2 * (y * m + x))) a b) (qtab s.cfg m q a b * 2 ^ 28)
    (∀ a b, a < m → b < m → s16ok (level a b) = true) →
    ∃ t, exec (.fdctq sz q) s = .next t ∧ State.CompletedFrom s t
      ∧ (∀ a b, a < m → b < m → Memory.elem t.mem (dst + 2 * (b * m + a)) = level a b)
      ∧ Memory.SameOutside ⟨dst, 2 * m ^ 2⟩ s.mem t.mem

/-- 40_transform.md R122: DQIDCT writes the reconstructed samples of the levels at `SRC` to the plane at
`DST`. -/
def Obligations.DqidctWritesSamples : Prop :=
  ∀ (sz : BitVec 4) (q : QSel) (s : State), PlaneReady sz q s →
    let m := blockSize sz
    let src := s.latch.regs.src.toNat
    let dst := s.latch.regs.dst.toNat
    let sample := fun x y =>
      128 + rn (invInt m (fun a b => Memory.elem s.mem (src + 2 * (b * m + a)) * (qtab s.cfg m q a b : Int)) x y)
        (2 ^ 28)
    (∀ x y, x < m → y < m → s16ok (sample x y) = true) →
    ∃ t, exec (.dqidct sz q) s = .next t ∧ State.CompletedFrom s t
      ∧ (∀ x y, x < m → y < m → Memory.elem t.mem (dst + 2 * (y * m + x)) = sample x y)
      ∧ Memory.SameOutside ⟨dst, 2 * m ^ 2⟩ s.mem t.mem

/-- 40_transform.md R123, R124, 20_memory.md R66, R68: XFWD writes the coefficient list of the bundle at `SRC`,
sub-unit by sub-unit; with a level outside `S16` it is `E_RANGE`. -/
def Obligations.XfwdWritesCoefficientList : Prop :=
  ∀ (sz : BitVec 4) (s : State), BlockReady sz s →
    let n := blockSize sz
    let src := s.latch.regs.src.toNat
    let dst := s.latch.regs.dst.toNat
    let y : Plane := fun i j => Memory.elem s.mem (src + 2 * (j * n + i))
    let u : Plane := fun i j => Memory.elem s.mem (src + 2 * n ^ 2 + 2 * (j * (n / 2) + i))
    let v : Plane := fun i j => Memory.elem s.mem (src + 2 * n ^ 2 + 2 * (n / 2) ^ 2 + 2 * (j * (n / 2) + i))
    ((∀ w ∈ forwardWrites s.cfg dst n y u v, s16ok w.2 = true) →
      ∃ t, exec (.xfwd sz) s = .next t ∧ State.CompletedFrom s t
        ∧ (n = 4 →
          (∀ a b, a < 4 → b < 4 →
              Memory.elem t.mem (dst + 2 * (4 * b + a)) = quant 4 (qtab s.cfg 4 .l) y a b)
            ∧ ∀ a b, a < 2 → b < 2 →
              Memory.elem t.mem (dst + 32 + 2 * (2 * b + a)) = quant 2 (qtab s.cfg 2 .c) u a b
                ∧ Memory.elem t.mem (dst + 40 + 2 * (2 * b + a)) = quant 2 (qtab s.cfg 2 .c) v a b)
        ∧ (n ≠ 4 → ∀ tx ty, tx < n / 8 → ty < n / 8 →
          let d := dst + 192 * (ty * (n / 8) + tx)
          (∀ a b, a < 8 → b < 8 → Memory.elem t.mem (d + 2 * (8 * b + a))
              = quant 8 (qtab s.cfg 8 .l) (fun i j => y (8 * tx + i) (8 * ty + j)) a b)
            ∧ ∀ a b, a < 4 → b < 4 →
              Memory.elem t.mem (d + 128 + 2 * (4 * b + a))
                  = quant 4 (qtab s.cfg 4 .c) (fun i j => u (4 * tx + i) (4 * ty + j)) a b
                ∧ Memory.elem t.mem (d + 160 + 2 * (4 * b + a))
                  = quant 4 (qtab s.cfg 4 .c) (fun i j => v (4 * tx + i) (4 * ty + j)) a b)
        ∧ Memory.SameOutside ⟨dst, 3 * n ^ 2⟩ s.mem t.mem)
      ∧ ((∃ w ∈ forwardWrites s.cfg dst n y u v, s16ok w.2 = false) → exec (.xfwd sz) s = .next (State.trap .range s))

/-- 40_transform.md R123, R125, 20_memory.md R66, R68: XINV writes the bundle that the coefficient list at `SRC`
reconstructs to; with a sample outside `S16` it is `E_RANGE`. -/
def Obligations.XinvWritesBundle : Prop :=
  ∀ (sz : BitVec 4) (s : State), BlockReady sz s →
    let n := blockSize sz
    let src := s.latch.regs.src.toNat
    let dst := s.latch.regs.dst.toNat
    let unit := fun x y m => src + 192 * ((y / m) * (n / 8) + x / m)
    let levels := fun (d m : Nat) => fun a b => Memory.elem s.mem (d + 2 * (b * m + a))
    let y : Plane := fun i j =>
      if n = 4 then recon 4 (qtab s.cfg 4 .l) (levels src 4) i j
      else recon 8 (qtab s.cfg 8 .l) (levels (unit i j 8) 8) (i % 8) (j % 8)
    let u : Plane := fun i j =>
      if n = 4 then recon 2 (qtab s.cfg 2 .c) (levels (src + 32) 2) i j
      else recon 4 (qtab s.cfg 4 .c) (levels (unit i j 4 + 128) 4) (i % 4) (j % 4)
    let v : Plane := fun i j =>
      if n = 4 then recon 2 (qtab s.cfg 2 .c) (levels (src + 40) 2) i j
      else recon 4 (qtab s.cfg 4 .c) (levels (unit i j 4 + 160) 4) (i % 4) (j % 4)
    ((∀ i j, i < n → j < n → s16ok (y i j) = true) →
      (∀ i j, i < n / 2 → j < n / 2 → s16ok (u i j) = true ∧ s16ok (v i j) = true) →
      ∃ t, exec (.xinv sz) s = .next t ∧ State.CompletedFrom s t
        ∧ (∀ i j, i < n → j < n → Memory.elem t.mem (dst + 2 * (j * n + i)) = y i j)
        ∧ (∀ i j, i < n / 2 → j < n / 2 →
          Memory.elem t.mem (dst + 2 * n ^ 2 + 2 * (j * (n / 2) + i)) = u i j
            ∧ Memory.elem t.mem (dst + 2 * n ^ 2 + 2 * (n / 2) ^ 2 + 2 * (j * (n / 2) + i)) = v i j)
        ∧ Memory.SameOutside ⟨dst, 3 * n ^ 2⟩ s.mem t.mem)
      ∧ ((∃ i j, i < n ∧ j < n ∧ s16ok (y i j) = false)
          ∨ (∃ i j, i < n / 2 ∧ j < n / 2 ∧ (s16ok (u i j) = false ∨ s16ok (v i j) = false)) →
        exec (.xinv sz) s = .next (State.trap .range s))

/-- 40_transform.md R126: the levels of a plane mirrored about 128 are the negated levels. -/
def Obligations.MirroredPlaneNegatesLevels : Prop :=
  ∀ (m : Nat) (q : QTable) (p : Plane) (a b : Nat),
    quant m q (fun x y => 256 - p x y) a b = - quant m q p a b

/-- 40_transform.md R114: the forward transform is separable: a pass over `x`, then a pass over `y`, or the
other way round. -/
def Obligations.ForwardTransformIsSeparable : Prop :=
  ∀ (m : Nat) (p : Plane) (a b : Nat),
    fwdInt m p a b = sumTo m (fun y => basis m b y * sumTo m fun x => basis m a x * (p x y - 128))
      ∧ fwdInt m p a b = sumTo m (fun x => basis m a x * sumTo m fun y => basis m b y * (p x y - 128))

/-- 40_transform.md R115: with `|P - 128| ≤ 4095` no level can overflow, whatever the table is. -/
def Obligations.SmallSamplesNeverOverflow : Prop :=
  ∀ (m : Nat) (q : QTable) (p : Plane), (m = 2 ∨ m = 4 ∨ m = 8) →
    (∀ a b, a < m → b < m → 1 ≤ q a b) → (∀ x y, x < m → y < m → (p x y - 128).natAbs ≤ 4095) →
    ∀ a b, a < m → b < m → s16ok (quant m q p a b) = true

/-- 40_transform.md R121, R122, corner cases: a plane of 128 has only zero levels; a plane of 0 has the DC level
`RN(-128 m² K(0,0)², Q(0,0) 2^28)` and zeros elsewhere; zero levels reconstruct to 128. -/
def Obligations.FlatPlanes : Prop :=
  (∀ (m : Nat) (q : QTable) (a b : Nat), quant m q (fun _ _ => 128) a b = 0)
    ∧ (∀ (m : Nat) (q : QTable), (m = 2 ∨ m = 4 ∨ m = 8) →
      quant m q (fun _ _ => 0) 0 0 = rn (-128 * m ^ 2 * basis m 0 0 ^ 2) (q 0 0 * 2 ^ 28)
        ∧ ∀ a b, a < m → b < m → ¬ (a = 0 ∧ b = 0) → quant m q (fun _ _ => 0) a b = 0)
    ∧ ∀ (m : Nat) (q : QTable) (x y : Nat), recon m q (fun _ _ => 0) x y = 128

/-! ## Extraction, cost, search, residual -/

/-- 41_motion_search.md R142, R144: EXTRACT writes the block of its raster, clipped, and the validity plane. -/
def Obligations.ExtractCopiesBlock : Prop :=
  ∀ (sz : BitVec 4) (sel : RSel) (s : State) (ra : Raster) (px py : Int), FrameReady sz s →
    (match sel with
      | .cur => ra = s.latch.regs.cur ∧ px = s.latch.regs.sx ∧ py = s.latch.regs.sy
      | .comp => ra = s.latch.regs.comp ∧ px = s.latch.regs.sx ∧ py = s.latch.regs.sy
      | .ref => Latch.resolve s.latch = some ra ∧ px = s.latch.regs.mx ∧ py = s.latch.regs.my) →
    RasterReady s ra → BufferReady s s.latch.regs.dst (5 * blockSize sz ^ 2) →
    let n := blockSize sz
    let w := s.latch.regs.w
    let h := s.latch.regs.h
    let dst := s.latch.regs.dst.toNat
    ∃ t, exec (.extract sz sel) s = .next t ∧ State.CompletedFrom s t
      ∧ (∀ i j, i < n → j < n →
        Memory.elem t.mem (dst + 2 * (j * n + i))
            = (if inside w h (px + i) (py + j)
              then Memory.elem s.mem (ra.y.toNat + 2 * ((py + j).toNat * w + (px + i).toNat)) else 0)
          ∧ Memory.elem t.mem (dst + 3 * n ^ 2 + 2 * (j * n + i)) = if inside w h (px + i) (py + j) then 0 else 1)
      ∧ (∀ i j, i < n / 2 → j < n / 2 →
        Memory.elem t.mem (dst + 2 * n ^ 2 + 2 * (j * (n / 2) + i))
            = (if inside (w / 2) (h / 2) (px / 2 + i) (py / 2 + j)
              then Memory.elem s.mem (ra.u.toNat + 2 * ((py / 2 + j).toNat * (w / 2) + (px / 2 + i).toNat))
              else 0)
          ∧ Memory.elem t.mem (dst + 2 * n ^ 2 + 2 * (n / 2) ^ 2 + 2 * (j * (n / 2) + i))
            = if inside (w / 2) (h / 2) (px / 2 + i) (py / 2 + j)
              then Memory.elem s.mem (ra.v.toNat + 2 * ((py / 2 + j).toNat * (w / 2) + (px / 2 + i).toNat))
              else 0)
      ∧ Memory.SameOutside ⟨dst, 5 * n ^ 2⟩ s.mem t.mem

/-- 41_motion_search.md R150: COST writes the cost of the searched block against the block the vector points at,
and nothing else. -/
def Obligations.CostReportsCost : Prop :=
  ∀ (sz : BitVec 4) (alpha : Bool) (s : State) (ra : Raster), FrameReady sz s →
    RasterReady s s.latch.regs.cur → Latch.resolve s.latch = some ra → RasterReady s ra →
    let o := s.latch.regs
    ∃ t, exec (.cost sz alpha) s = .next t
      ∧ State.CompletedFrom { s with cost := t.cost } t ∧ t.mem = s.mem
      ∧ t.cost.toNat = blockCost (blockSize sz) (o.extract s.mem o.cur o.sx o.sy)
        (o.extract s.mem ra o.mx o.my) alpha

/-- 41_motion_search.md R158: MSEARCH writes `MATCH`, the span, `V_REF` and the cost of its best candidate, or the
no-match values when no reference exists, and nothing else. -/
def Obligations.MsearchReportsBest : Prop :=
  ∀ (sz : BitVec 4) (s : State), FrameReady sz s → RasterReady s s.latch.regs.cur →
    (∀ tr ∈ Latch.searchOrder s.latch, RasterReady s tr.2) →
    0 ≤ s.latch.regs.sx → s.latch.regs.sx < s.latch.regs.w → 0 ≤ s.latch.regs.sy →
    s.latch.regs.sy < s.latch.regs.h →
    ∃ t, exec (.msearch sz) s = .next t ∧ t.mem = s.mem
      ∧ State.CompletedFrom
        { s with
          status := { s.status with matched := t.status.matched }
          regs := { s.regs with vSpanX := t.regs.vSpanX, vSpanY := t.regs.vSpanY, vRef := t.regs.vRef }
          cost := t.cost } t
      ∧ (Latch.searchOrder s.latch = [] →
        t.status.matched = false ∧ t.regs.vSpanX = 0 ∧ t.regs.vSpanY = 0 ∧ t.regs.vRef = 0
          ∧ t.cost.toNat = 2 ^ 128 - 1)
      ∧ (Latch.searchOrder s.latch ≠ [] →
        ∃ r c, searchAll (blockSize sz) s.latch s.mem = some (r, c) ∧ t.status.matched = true
          ∧ t.regs.vSpanX.toInt = s.latch.regs.sx - c.pos.1 ∧ t.regs.vSpanY.toInt = s.latch.regs.sy - c.pos.2
          ∧ t.regs.vRef.toInt = r ∧ t.cost.toNat = c.cost)

/-- 41_motion_search.md R145, R146: the cost fits 93 bits, is symmetric in its two blocks, and counts the squared
sum of the validity differences exactly when `alpha` is set. -/
def Obligations.CostProperties : Prop :=
  (∀ (sz : BitVec 4) (b c : Block) (alpha : Bool), Instr.blockSizeOk sz = true →
      (∀ i j, s16ok (b.y i j) = true ∧ s16ok (b.u i j) = true ∧ s16ok (b.v i j) = true
        ∧ s16ok (c.y i j) = true ∧ s16ok (c.u i j) = true ∧ s16ok (c.v i j) = true
        ∧ (b.a i j = 0 ∨ b.a i j = 1) ∧ (c.a i j = 0 ∨ c.a i j = 1)) →
      blockCost (blockSize sz) b c alpha < 2 ^ 93)
    ∧ (∀ (n : Nat) (b c : Block) (alpha : Bool), blockCost n b c alpha = blockCost n c b alpha)
    ∧ ∀ (n : Nat) (b c : Block), blockCost n b c true = blockCost n b c false + sqDiff n b.a c.a ^ 2

/-- 41_motion_search.md R151, R152, R153, R154: the hexagon search evaluates admissible positions only, each once,
the searched position first if it is admissible, and returns a cheapest of all it evaluated. It evaluates the
admissible points of the hexagon of radius 4 around the searched position, and those of the hexagon of radius 2 and
of the nine-point pattern around one last centre, from which its result is at most one away. -/
def Obligations.HexSearchIsSound : Prop :=
  ∀ t : Target,
    let seen := t.hexSearch.seen
    let evaluated := fun p : Pos => t.admissible p = true → p ∈ seen
    (∀ p ∈ seen,
        (p.1 - t.sx).natAbs ≤ 48 ∧ (p.2 - t.sy).natAbs ≤ 48 ∧ 0 ≤ p.1 ∧ p.1 < t.w ∧ 0 ≤ p.2 ∧ p.2 < t.h)
      ∧ seen.Nodup
      ∧ (∀ b, t.hexSearch.best = some b → b.pos ∈ seen ∧ b.cost = t.costAt b.pos
        ∧ ∀ p ∈ seen, b.cost ≤ t.costAt p)
      ∧ (t.admissible (t.sx, t.sy) = true →
        seen.getLast? = some (t.sx, t.sy) ∧ t.hexSearch.best ≠ none)
      ∧ (∀ d ∈ [(0, 0), (4, 0), (2, 4), (-2, 4), (-4, 0), (-2, -4), (2, -4)],
        evaluated (t.sx + d.1, t.sy + d.2))
      ∧ ∃ c : Pos,
        (∀ d ∈ [(0, 0), (2, 0), (1, 2), (-1, 2), (-2, 0), (-1, -2), (1, -2)], evaluated (c.1 + d.1, c.2 + d.2))
          ∧ (∀ dx dy : Int, dx.natAbs ≤ 1 → dy.natAbs ≤ 1 → evaluated (c.1 + dx, c.2 + dy))
          ∧ ∀ b, t.hexSearch.best = some b → (b.pos.1 - c.1).natAbs ≤ 1 ∧ (b.pos.2 - c.2).natAbs ≤ 1

/-- 41_motion_search.md R154 (a): the search terminates by itself: more rounds than the model allows change
nothing. The bound on the rounds is the model's choice, log 17. -/
def Obligations.HexSearchTerminates : Prop :=
  ∀ (t : Target) (k : Nat), t.hexLoop (hexFuel + k) (t.sx, t.sy) 4 ⟨[], none⟩ = t.hexSearch

/-- 41_motion_search.md R141, R155, R157, R158: the candidate MSEARCH reports has the cost of its position in the
raster of its tag, lies within 48 of the searched position, and is at most the cost of every one of the 25
offsets of the refinement in every reference. -/
def Obligations.MsearchChoosesBest : Prop :=
  ∀ (n : Nat) (l : Latch) (mem : Memory) (r : Int) (c : Candidate), searchAll n l mem = some (r, c) →
    (∃ ra, (r, ra) ∈ Latch.searchOrder l
        ∧ c.cost = blockCost n (l.regs.extract mem l.regs.cur l.regs.sx l.regs.sy)
          (l.regs.extract mem ra c.pos.1 c.pos.2) true)
      ∧ (l.regs.sx - c.pos.1).natAbs ≤ 48 ∧ (l.regs.sy - c.pos.2).natAbs ≤ 48
      ∧ ∀ tr ∈ Latch.searchOrder l, ∀ dx dy : Int, -2 ≤ dx → dx ≤ 2 → -2 ≤ dy → dy ≤ 2 →
        c.cost ≤ blockCost n (l.regs.extract mem l.regs.cur l.regs.sx l.regs.sy)
          (l.regs.extract mem tr.2 (l.regs.sx + dx) (l.regs.sy + dy)) true

/-- 41_motion_search.md R160, R161: RESID writes the gated differences of the two blocks; with one outside
`S16` it is `E_RANGE`. -/
def Obligations.ResidWritesGatedDifferences : Prop :=
  ∀ (sz : BitVec 4) (s : State) (ra : Raster), FrameReady sz s → RasterReady s s.latch.regs.cur →
    Latch.resolve s.latch = some ra → RasterReady s ra →
    BufferReady s s.latch.regs.dst (3 * blockSize sz ^ 2) →
    let n := blockSize sz
    let o := s.latch.regs
    let dst := o.dst.toNat
    let b := o.extract s.mem o.cur o.sx o.sy
    let c := o.extract s.mem ra o.mx o.my
    let gated := fun (d : Int) (t : Half) => if d.natAbs ≤ t.toNat then 0 else d
    ((∀ i j, i < n → j < n → s16ok (gated (b.y i j - c.y i j) o.tY) = true) →
      (∀ i j, i < n / 2 → j < n / 2 →
        s16ok (gated (b.u i j - c.u i j) o.tC) = true ∧ s16ok (gated (b.v i j - c.v i j) o.tC) = true) →
      ∃ t, exec (.resid sz) s = .next t ∧ State.CompletedFrom s t
        ∧ (∀ i j, i < n → j < n → Memory.elem t.mem (dst + 2 * (j * n + i)) = gated (b.y i j - c.y i j) o.tY)
        ∧ (∀ i j, i < n / 2 → j < n / 2 →
          Memory.elem t.mem (dst + 2 * n ^ 2 + 2 * (j * (n / 2) + i)) = gated (b.u i j - c.u i j) o.tC
            ∧ Memory.elem t.mem (dst + 2 * n ^ 2 + 2 * (n / 2) ^ 2 + 2 * (j * (n / 2) + i))
              = gated (b.v i j - c.v i j) o.tC)
        ∧ Memory.SameOutside ⟨dst, 3 * n ^ 2⟩ s.mem t.mem)
      ∧ ((∃ i j, i < n ∧ j < n ∧ s16ok (gated (b.y i j - c.y i j) o.tY) = false)
          ∨ (∃ i j, i < n / 2 ∧ j < n / 2 ∧ (s16ok (gated (b.u i j - c.u i j) o.tC) = false
            ∨ s16ok (gated (b.v i j - c.v i j) o.tC) = false)) →
        exec (.resid sz) s = .next (State.trap .range s))

/-! ## Reconstruction -/

/-- 42_reconstruct.md R172, R173, 20_memory.md R72: MC writes prediction plus residual to the block footprint in
the composite. Where planes of the composite overlap, an element hit twice holds one of the values written to
it; where they do not, every element holds its own. -/
def Obligations.McComposites : Prop :=
  ∀ (sz : BitVec 4) (s : State) (ra : Raster), FrameReady sz s → RasterReady s s.latch.regs.comp →
    Latch.resolve s.latch = some ra → RasterReady s ra →
    BufferReady s s.latch.regs.src (3 * blockSize sz ^ 2) →
    let n := blockSize sz
    let o := s.latch.regs
    let src := o.src.toNat
    let p := o.extract s.mem ra o.mx o.my
    let y : Plane := fun i j => p.y i j + Memory.elem s.mem (src + 2 * (j * n + i))
    let u : Plane := fun i j => p.u i j + Memory.elem s.mem (src + 2 * n ^ 2 + 2 * (j * (n / 2) + i))
    let v : Plane := fun i j =>
      p.v i j + Memory.elem s.mem (src + 2 * n ^ 2 + 2 * (n / 2) ^ 2 + 2 * (j * (n / 2) + i))
    (∀ i j, i < n → j < n → s16ok (y i j) = true) →
    (∀ i j, i < n / 2 → j < n / 2 → s16ok (u i j) = true ∧ s16ok (v i j) = true) →
    ∃ t, exec (.mc sz) s = .next t ∧ State.CompletedFrom s t
      ∧ (∀ a w, BlockWrite o n y u v a w → ∃ w', BlockWrite o n y u v a w' ∧ Memory.elem t.mem a = w')
      ∧ (CompDisjoint o → ∀ a w, BlockWrite o n y u v a w → Memory.elem t.mem a = w)
      ∧ Memory.SameOutsideElems (o.blockAddrs o.comp o.sx o.sy n) s.mem t.mem

/-- 42_reconstruct.md R173: one sum of MC outside `S16`, luma or chroma, is `E_RANGE`, even for a sample that the
clip would skip. -/
def Obligations.McChecksEverySum : Prop :=
  ∀ (sz : BitVec 4) (s : State) (ra : Raster), FrameReady sz s → RasterReady s s.latch.regs.comp →
    Latch.resolve s.latch = some ra → RasterReady s ra →
    BufferReady s s.latch.regs.src (3 * blockSize sz ^ 2) →
    let n := blockSize sz
    let o := s.latch.regs
    let src := o.src.toNat
    let p := o.extract s.mem ra o.mx o.my
    (∃ i j, i < n ∧ j < n ∧ s16ok (p.y i j + Memory.elem s.mem (src + 2 * (j * n + i))) = false)
      ∨ (∃ i j, i < n / 2 ∧ j < n / 2
        ∧ (s16ok (p.u i j + Memory.elem s.mem (src + 2 * n ^ 2 + 2 * (j * (n / 2) + i))) = false
          ∨ s16ok (p.v i j
            + Memory.elem s.mem (src + 2 * n ^ 2 + 2 * (n / 2) ^ 2 + 2 * (j * (n / 2) + i))) = false)) →
    exec (.mc sz) s = .next (State.trap .range s)

/-- 42_reconstruct.md R172, R176, 20_memory.md R72: INTRA writes the raw samples at `SRC` to the block footprint
in the composite. -/
def Obligations.IntraOverwrites : Prop :=
  ∀ (sz : BitVec 4) (s : State), FrameReady sz s → RasterReady s s.latch.regs.comp →
    BufferReady s s.latch.regs.src (3 * blockSize sz ^ 2) →
    let n := blockSize sz
    let o := s.latch.regs
    let src := o.src.toNat
    let y : Plane := fun i j => Memory.elem s.mem (src + 2 * (j * n + i))
    let u : Plane := fun i j => Memory.elem s.mem (src + 2 * n ^ 2 + 2 * (j * (n / 2) + i))
    let v : Plane := fun i j => Memory.elem s.mem (src + 2 * n ^ 2 + 2 * (n / 2) ^ 2 + 2 * (j * (n / 2) + i))
    ∃ t, exec (.intra sz) s = .next t ∧ State.CompletedFrom s t
      ∧ (∀ a w, BlockWrite o n y u v a w → ∃ w', BlockWrite o n y u v a w' ∧ Memory.elem t.mem a = w')
      ∧ (CompDisjoint o → ∀ a w, BlockWrite o n y u v a w → Memory.elem t.mem a = w)
      ∧ Memory.SameOutsideElems (o.blockAddrs o.comp o.sx o.sy n) s.mem t.mem

/-! ## Deblocking -/

/-- 43_deblock.md R193, R194: DBLK leaves in the luma plane of the composite what its two passes leave in the
private copy, and touches nothing but the samples next to the two edges; with a result outside `S16` it is
`E_RANGE`. -/
def Obligations.DblkFiltersPlane : Prop :=
  ∀ (sz : BitVec 4) (s : State), FrameReady sz s → RasterReady s s.latch.regs.comp →
    let o := s.latch.regs
    let before : Plane := fun x y => Memory.elem s.mem (o.comp.y.toNat + 2 * (y * o.w + x))
    let done := deblocked (filterParams s.cfg o) o (blockSize sz) before
    (∀ after, done = some after → ∃ t, exec (.dblk sz) s = .next t ∧ State.CompletedFrom s t
      ∧ (∀ x y, x < o.w → y < o.h →
        Memory.elem t.mem (o.comp.y.toNat + 2 * (y * o.w + x)) = after x y)
      ∧ Memory.SameOutsideElems
        ((deblockSamples o (blockSize sz)).map fun c => o.comp.y.toNat + 2 * (c.2 * o.w + c.1)) s.mem t.mem)
      ∧ (done = none → exec (.dblk sz) s = .next (State.trap .range s))

/-- 43_deblock.md R190 (a), R194: a block at the top or left edge of the frame, or at a negative position, is not
filtered: DBLK succeeds and writes nothing. -/
def Obligations.DblkAtFrameEdgeWritesNothing : Prop :=
  ∀ (sz : BitVec 4) (s : State), FrameReady sz s → RasterReady s s.latch.regs.comp →
    (s.latch.regs.sx ≤ 0 ∨ s.latch.regs.sy ≤ 0) →
    ∃ t, exec (.dblk sz) s = .next t ∧ State.CompletedFrom s t ∧ t.mem = s.mem

/-- 43_deblock.md R192, R193: after a successful DBLK the luma plane is the plane before it with each row of the left
edge filtered and then, on what that leaves, each column of the top edge. So a row of the left edge that the top edge
does not reach holds the filter of its six samples, and so does a column of the top edge that the left edge does not
reach. -/
def Obligations.DblkFiltersBothEdges : Prop :=
  ∀ (sz : BitVec 4) (s t : State), FrameReady sz s → RasterReady s s.latch.regs.comp →
    s.status.done = false → exec (.dblk sz) s = .next t → t.status.done = true →
    let o := s.latch.regs
    let n := blockSize sz
    let f := filterParams s.cfg o
    let tx := o.sx.toNat
    let ty := o.sy.toNat
    let before : Plane := fun x y => Memory.elem s.mem (o.comp.y.toNat + 2 * (y * o.w + x))
    let now : Plane := fun x y => Memory.elem t.mem (o.comp.y.toNat + 2 * (y * o.w + x))
    (∀ x y, x < o.w → y < o.h → now x y = topFiltered f o n (leftFiltered f o n before) x y)
      ∧ (3 ≤ o.sx → o.sx + 2 < o.w → 0 < o.sy → ∀ y : Nat, o.sy + 2 ≤ y → (y : Int) < o.sy + n → y < o.h →
        let e : EdgeSamples := ⟨before (tx - 3) y, before (tx - 2) y, before (tx - 1) y, before tx y,
          before (tx + 1) y, before (tx + 2) y⟩
        match filt f e with
        | none => now (tx - 2) y = e.p1 ∧ now (tx - 1) y = e.p0 ∧ now tx y = e.q0 ∧ now (tx + 1) y = e.q1
        | some r => now (tx - 2) y = r.p1 ∧ now (tx - 1) y = r.p0 ∧ now tx y = r.q0 ∧ now (tx + 1) y = r.q1)
      ∧ (3 ≤ o.sy → o.sy + 2 < o.h → 0 < o.sx → ∀ x : Nat, o.sx + 2 ≤ x → (x : Int) < o.sx + n → x < o.w →
        let e : EdgeSamples := ⟨before x (ty - 3), before x (ty - 2), before x (ty - 1), before x ty,
          before x (ty + 1), before x (ty + 2)⟩
        match filt f e with
        | none => now x (ty - 2) = e.p1 ∧ now x (ty - 1) = e.p0 ∧ now x ty = e.q0 ∧ now x (ty + 1) = e.q1
        | some r => now x (ty - 2) = r.p1 ∧ now x (ty - 1) = r.p0 ∧ now x ty = r.q0 ∧ now x (ty + 1) = r.q1)

/-- 43_deblock.md R192: the filter moves each of its four samples by at most `c`, keeps `p0 + q0`, and leaves the
edge untouched exactly when one of the three strict conditions fails. -/
def Obligations.FilterIsBounded : Prop :=
  ∀ (f : FilterParams) (e : EdgeSamples), 0 ≤ f.c →
    (filt f e = none ↔ ¬ (((e.p0 - e.q0).natAbs : Int) < f.alpha ∧ ((e.p1 - e.p0).natAbs : Int) < f.beta
        ∧ ((e.q0 - e.q1).natAbs : Int) < f.beta))
      ∧ ∀ r, filt f e = some r →
        ((r.p1 - e.p1).natAbs : Int) ≤ f.c ∧ ((r.p0 - e.p0).natAbs : Int) ≤ f.c
          ∧ ((r.q0 - e.q0).natAbs : Int) ≤ f.c ∧ ((r.q1 - e.q1).natAbs : Int) ≤ f.c
          ∧ r.p0 + r.q0 = e.p0 + e.q0

/-! ## The commands with no data path -/

/-- 42_reconstruct.md R181, R182: NOP has no effect beyond its completion; REFCLR empties the reference table and
touches nothing else. -/
def Obligations.NopAndRefclrComplete : Prop :=
  (∀ s : State, ∃ t, exec .nop s = .next t ∧ State.CompletedFrom s t ∧ t.mem = s.mem)
    ∧ ∀ s : State, ∃ t, exec .refclr s = .next t ∧ State.CompletedFrom { s with refs := t.refs } t ∧ t.mem = s.mem
      ∧ t.refs = ⟨⟨0, 0, 0⟩, ⟨0, 0, 0⟩, ⟨0, 0, 0⟩, ⟨0, 0, 0⟩, 0⟩

/-- 42_reconstruct.md R180: REFPUSH shifts the table by one slot, puts the pushed raster into `REF0`, and counts at
most four; it touches nothing else. -/
def Obligations.RefpushShiftsTable : Prop :=
  ∀ s : State, frameDimLegal s.latch.regs.frameW = true → frameDimLegal s.latch.regs.frameH = true →
    baseOk s.latch.regs.push.y → baseOk s.latch.regs.push.u → baseOk s.latch.regs.push.v →
    (∀ r ∈ Operands.rasterRegions s.latch.regs s.latch.regs.push, r.base + r.bytes ≤ 2 ^ 32) →
    ∃ t, exec .refpush s = .next t ∧ State.CompletedFrom { s with refs := t.refs } t ∧ t.mem = s.mem
      ∧ t.refs.slot0 = s.latch.regs.push ∧ t.refs.slot1 = s.latch.refs.slot0 ∧ t.refs.slot2 = s.latch.refs.slot1
      ∧ t.refs.slot3 = s.latch.refs.slot2 ∧ t.refs.count.toNat = min (s.latch.refs.count.toNat + 1) 4

/-- 42_reconstruct.md R180, 10_state.md R37: after a push `r = 4` names the pushed raster, and each other index
what the next higher one named before. -/
def Obligations.PushRenumbersReferences : Prop :=
  ∀ (l : Latch) (pushed : Raster) (v w : Half), l.refs.count.toNat ≤ 4 →
    let resolve := fun (t : RefTable) (r : Half) =>
      Latch.resolve { l with refs := t, regs := { l.regs with vRef := r } }
    (v.toInt = 4 → resolve (RefTable.pushed l.refs pushed) v = some pushed)
      ∧ (1 ≤ v.toInt → v.toInt ≤ 3 → w.toInt = v.toInt + 1 →
        resolve (RefTable.pushed l.refs pushed) v = resolve l.refs w)
      ∧ (v.toInt = -1 → resolve (RefTable.pushed l.refs pushed) v = resolve l.refs v)

/-! ## The host and data memory -/

/-- 20_memory.md R61, R77: a host store puts its bytes into data memory, the lowest first, and changes no other
byte; it is a race exactly if it hits the footprint of the command in flight. Which accesses the host makes is the
model's choice, log 24; the mark of a race is a field of the model's own (log 5), and which bytes are the footprint
and what the mark does is the model's reading, log 6. -/
def Obligations.HostStoreWritesBytes : Prop :=
  ∀ (s : State) (addr : Word) (size : BusSize) (v : Word),
    (∀ k, k < size.bytes → Params.backed s.cfg (addr.toNat + k) = true) →
    ∃ t, step (s.given (.write addr size v)) = .next t
      ∧ t = { s with mem := t.mem, raced := t.raced }
      ∧ (∀ k, k < size.bytes → Memory.byte t.mem (addr.toNat + k) = v.extractLsb' (8 * k) 8)
      ∧ Memory.SameOutside ⟨addr.toNat, size.bytes⟩ s.mem t.mem
      ∧ (t.raced = true ↔ s.raced = true ∨ ∃ k, k < size.bytes ∧ s.inFootprint (addr.toNat + k) = true)

/-- 20_memory.md R61, R63, R77: a host load returns the bytes of data memory, the lowest first; each element in the
write footprint of the command in flight is either the old one or the new one, whole. That the new one is what the
command's completion would leave is the model's reading, log 25; that its free values, if it has any, are drawn for
this read alone is the model's choice, log 28; which accesses the host makes is the model's choice,
log 24; `rdata`, where the data appear, is a field of the model's own, log 5. -/
def Obligations.HostLoadReadsBytes : Prop :=
  ∀ (s : State) (addr : Word) (size : BusSize),
    (∀ k, k < size.bytes → Params.backed s.cfg (addr.toNat + k) = true) →
    ∃ t, step (s.given (.read addr size)) = .next t
      ∧ t = { s with rdata := t.rdata, freeCtr := t.freeCtr }
      ∧ (∃ new : Nat → Bool, ∀ k, k < size.bytes →
        let a := addr.toNat + k
        t.rdata.extractLsb' (8 * k) 8
          = if s.inWriteFootprint a = true ∧ new (a / 2) = true then Memory.byte s.memAfter a
            else Memory.byte s.mem a)
      ∧ ∀ k, size.bytes ≤ k → k < 4 → t.rdata.extractLsb' (8 * k) 8 = 0

/-! ## All commands -/

/-- Every command completes, in success or in a fault that is a next state, unless a base register through which it
reads or writes data memory points into the register window (10_state.md R50, 20_memory.md R60); when that refusal
comes, and for which base registers, is the model's choice, log 9. -/
def Obligations.CommandsComplete : Prop :=
  ∀ (i : Instr) (s : State),
    (∃ t, exec i s = .next t)
      ∨ (exec i s = .refused .windowAsData ∧ checkOf i s.latch = none ∧ State.baseMisplaced i s)

/-- 10_state.md R50, 60_exceptions.md R200: a completion lowers `BUSY`, empties the latch, and either raises
`DONE` and touches no error register, or raises `ERR` with a code and the command word and leaves `DONE`. That the
latch is emptied is the model's choice, log 13. -/
def Obligations.CommandEndsInDoneOrError : Prop :=
  ∀ (i : Instr) (s t : State), exec i s = .next t →
    t.status.busy = false ∧ t.latch = Latch.empty
      ∧ ((t.status.done = true ∧ t.status.err = s.status.err ∧ t.errCode = s.errCode ∧ t.errInfo = s.errInfo)
        ∨ (t.status.done = s.status.done ∧ t.status.err = true ∧ (∃ e, t.errCode = some e)
          ∧ t.errInfo = s.latch.word))

/-- 10_state.md R21, R26, R34, R41, 20_memory.md R63, R69: what a command of any kind leaves unchanged, however it
ends. -/
def Obligations.CommandFrame : Prop :=
  ∀ (i : Instr) (s t : State), exec i s = .next t →
    t.cfg = s.cfg ∧ t.ctrl = s.ctrl ∧ t.cmd = s.cmd ∧ t.inbox = s.inbox ∧ t.rdata = s.rdata
      ∧ t.status.ovr = s.status.ovr
      ∧ { t.regs with vSpanX := s.regs.vSpanX, vSpanY := s.regs.vSpanY, vRef := s.regs.vRef } = s.regs
      ∧ ((∀ sz, i ≠ .msearch sz) → t.regs = s.regs ∧ t.status.matched = s.status.matched)
      ∧ ((∀ sz, i ≠ .msearch sz) → (∀ sz a, i ≠ .cost sz a) → t.cost = s.cost)
      ∧ (i ≠ .refpush → i ≠ .refclr → t.refs = s.refs)
      ∧ (jobOf i s = none → t.mem = s.mem)
      ∧ ∀ j, jobOf i s = some j → Memory.SameOutsideElems j.foot s.mem t.mem

/-- 10_state.md R48: a command reads the latch, not the visible registers: whatever these hold, it leaves the same
data memory, result registers and reference table, and ends the same way. A register or table that it does not
write stays what it was. -/
def Obligations.LatchedOperandsDecide : Prop :=
  ∀ (i : Instr) (s t : State) (o : Operands) (f : RefTable) (c : Ctrl) (w : Word),
    exec i s = .next t →
    ∃ u, exec i { s with regs := o, refs := f, ctrl := c, cmd := w } = .next u
      ∧ u.mem = t.mem ∧ u.status = t.status ∧ u.errCode = t.errCode ∧ u.errInfo = t.errInfo ∧ u.cost = t.cost
      ∧ u.cfg = t.cfg ∧ u.ctrl = c ∧ u.cmd = w
      ∧ ((t.regs = s.regs ∧ u.regs = o)
        ∨ ((∃ sz, i = .msearch sz)
          ∧ u.regs = { o with vSpanX := t.regs.vSpanX, vSpanY := t.regs.vSpanY, vRef := t.regs.vRef }))
      ∧ ((t.refs = s.refs ∧ u.refs = f) ∨ ((i = .refpush ∨ i = .refclr) ∧ u.refs = t.refs))

/-! ## Invariants of the step -/

/-- Every step keeps the canonical form of data memory and its 2^32-byte address space, and no step changes the
platform's parameters (20_memory.md R60, R70, 10_state.md R42, R43). -/
def Obligations.StepKeepsMemoryInOrder : Prop :=
  ∀ s t : State, Memory.wf s.mem = true → Memory.Bounded s.mem → step s = .next t →
    Memory.wf t.mem = true ∧ Memory.Bounded t.mem ∧ t.cfg = s.cfg

/-- Every step keeps the flags, the error latch and the in-flight latch consistent (10_state.md R28, R48, R50,
60_exceptions.md R210, R214). That an idle core's latch is empty is the model's choice, log 13. -/
def Obligations.StepKeepsLatches : Prop :=
  ∀ s t : State, State.FlagsOk s → State.ErrorLatchOk s → State.LatchOk s → step s = .next t →
    State.FlagsOk t ∧ State.ErrorLatchOk t ∧ State.LatchOk t

/-- Every step keeps the reference table as pushes leave it: at most four slots, the valid ones with legal bases,
the invalid ones 0 (10_state.md R34, 60_exceptions.md R204). -/
def Obligations.StepKeepsReferenceTable : Prop :=
  ∀ s t : State, State.LatchOk s → RefTable.Ok s.refs → step s = .next t → RefTable.Ok t.refs
end

