-- ==== Sys2Proof/Laws/Memory.lean ====
section
/-! SUPPORT. Data memory: what a read returns after each write operation, and that every operation keeps the
canonical form and the address space. -/

namespace Sys2Proof.Machine

theorem Memory.find_setByte_self (m : Memory) (a : Nat) (b : Byte) : (m.setByte a b).find a = some b := by
  induction m with
  | nil => simp [Memory.setByte, Memory.find]
  | cons c rest ih =>
    obtain ⟨k, v⟩ := c
    unfold Memory.setByte
    split
    · simp [Memory.find]
    · split
      · simp [Memory.find]
      · rename_i h1 h2
        have : k ≠ a := fun h => h2 h.symm
        simp [Memory.find, this, ih]

theorem Memory.find_setByte_ne (m : Memory) {a a' : Nat} (b : Byte) (h : a' ≠ a) :
    (m.setByte a b).find a' = m.find a' := by
  induction m with
  | nil => simp [Memory.setByte, Memory.find, Ne.symm h]
  | cons c rest ih =>
    obtain ⟨k, v⟩ := c
    unfold Memory.setByte
    split
    · simp [Memory.find, Ne.symm h]
    · split
      · rename_i h1 h2
        subst h2
        simp [Memory.find, Ne.symm h]
      · simp [Memory.find, ih]

@[simp] theorem Memory.byte_setByte_self (m : Memory) (a : Nat) (b : Byte) : (m.setByte a b).byte a = b := by
  simp [Memory.byte, Memory.find_setByte_self]

theorem Memory.byte_setByte_ne (m : Memory) {a a' : Nat} (b : Byte) (h : a' ≠ a) :
    (m.setByte a b).byte a' = m.byte a' := by
  simp [Memory.byte, Memory.find_setByte_ne m b h]

theorem Memory.byte_setByte (m : Memory) (a a' : Nat) (b : Byte) :
    (m.setByte a b).byte a' = if a' = a then b else m.byte a' := by
  split
  · next h => subst h; simp
  · next h => exact Memory.byte_setByte_ne m b h

theorem Half.append_extract (v : Half) : v.extractLsb' 8 8 ++ v.extractLsb' 0 8 = v := by
  ext i hi
  simp only [BitVec.getElem_append, BitVec.getElem_extractLsb']
  split
  · next h =>
    simp only [Nat.zero_add]
    exact BitVec.getLsbD_eq_getElem (by omega)
  · next h =>
    have : 8 + (i - 8) = i := by omega
    rw [this]; simp [BitVec.getLsbD_eq_getElem hi]

@[simp] theorem Memory.half_setHalf_self (m : Memory) (a : Nat) (v : Half) : (m.setHalf a v).half a = v := by
  unfold Memory.half Memory.setHalf
  rw [Memory.byte_setByte_self, Memory.byte_setByte_ne _ _ (by omega), Memory.byte_setByte_self]
  exact Half.append_extract v

/-- A byte that is neither of an element's two is left alone by a write of the element. -/
theorem Memory.byte_setHalf_ne (m : Memory) {a b : Nat} (v : Half) (h0 : b ≠ a) (h1 : b ≠ a + 1) :
    (m.setHalf a v).byte b = m.byte b := by
  simp [Memory.setHalf, Memory.byte_setByte_ne, h0, h1]

/-- Writing one element leaves an element of another even address alone. -/
theorem Memory.half_setHalf_ne (m : Memory) {a b : Nat} (v : Half) (ha : a % 2 = 0) (hb : b % 2 = 0)
    (h : b ≠ a) : (m.setHalf a v).half b = m.half b := by
  unfold Memory.half
  rw [Memory.byte_setHalf_ne m v (by omega) (by omega), Memory.byte_setHalf_ne m v (by omega) (by omega)]

theorem Memory.elem_eq_of_byte_eq {m m' : Memory} {a : Nat} (h0 : m'.byte a = m.byte a)
    (h1 : m'.byte (a + 1) = m.byte (a + 1)) : m'.elem a = m.elem a := by
  simp [Memory.elem, Memory.half, h0, h1]

theorem Memory.elem_s16 (m : Memory) (a : Nat) : s16ok (m.elem a) = true := by
  have h1 := BitVec.le_toInt (m.half a)
  have h2 := BitVec.toInt_lt (x := m.half a)
  norm_num at h1 h2
  unfold s16ok Memory.elem
  rw [Bool.and_eq_true, decide_eq_true_iff, decide_eq_true_iff]
  omega

theorem toInt_ofInt_s16 {v : Int} (h : s16ok v = true) : (BitVec.ofInt 16 v).toInt = v := by
  simp only [s16ok, Bool.and_eq_true, decide_eq_true_eq] at h
  rw [BitVec.toInt_ofInt_eq_self (by decide) (by norm_num; omega) (by norm_num; omega)]

/-- Reading back an element that was written: `S16` values survive (00_scope.md R12, R14). -/
theorem Memory.elem_setElem_self (m : Memory) (a : Nat) {v : Int} (h : s16ok v = true) :
    (m.setElem a v).elem a = v := by
  simp [Memory.elem, Memory.setElem, toInt_ofInt_s16 h]

theorem Memory.elem_setElem_ne (m : Memory) {a b : Nat} (v : Int) (ha : a % 2 = 0) (hb : b % 2 = 0)
    (h : b ≠ a) : (m.setElem a v).elem b = m.elem b := by
  simp [Memory.elem, Memory.setElem, Memory.half_setHalf_ne m _ ha hb h]

theorem Memory.byte_setElem_ne (m : Memory) {a b : Nat} (v : Int) (h0 : b ≠ a) (h1 : b ≠ a + 1) :
    (m.setElem a v).byte b = m.byte b :=
  Memory.byte_setHalf_ne m _ h0 h1

/-- A byte that no write of a command touches keeps its value (20_memory.md R63). -/
theorem Memory.byte_storeAll_of_not_mem (ws : List (Nat × Int)) {b : Nat} :
    ∀ (ctr : Nat) (seen : List Nat) (m : Memory), (∀ w ∈ ws, b ≠ w.1 ∧ b ≠ w.1 + 1) →
      (Memory.storeAll ctr seen m ws).byte b = m.byte b := by
  induction ws with
  | nil => intro ctr seen m _; rfl
  | cons w rest ih =>
    intro ctr seen m h
    obtain ⟨a, v⟩ := w
    have hw := h (a, v) (by simp)
    have hr : ∀ w ∈ rest, b ≠ w.1 ∧ b ≠ w.1 + 1 := fun w hm => h w (by simp [hm])
    unfold Memory.storeAll
    split
    · exact ih _ _ _ hr
    · rw [ih _ _ _ hr, Memory.byte_setElem_ne m v hw.1 hw.2]

/-- An even address holds, after the writes of a command, one of the values written to it, or what it held if
none was (20_memory.md R72). -/
theorem Memory.elem_storeAll_cases (ws : List (Nat × Int)) {b : Nat} (hb : b % 2 = 0) :
    ∀ (ctr : Nat) (seen : List Nat) (m : Memory), (∀ w ∈ ws, w.1 % 2 = 0 ∧ s16ok w.2 = true) →
      (∃ v, (b, v) ∈ ws ∧ (Memory.storeAll ctr seen m ws).elem b = v)
        ∨ ((∀ w ∈ ws, w.1 = b → b ∈ seen) ∧ (Memory.storeAll ctr seen m ws).elem b = m.elem b) := by
  induction ws with
  | nil => intro ctr seen m _; exact .inr ⟨by simp, rfl⟩
  | cons w rest ih =>
    intro ctr seen m h
    obtain ⟨a, v⟩ := w
    have hw := h (a, v) (by simp)
    have hr : ∀ w ∈ rest, w.1 % 2 = 0 ∧ s16ok w.2 = true := fun w hm => h w (by simp [hm])
    unfold Memory.storeAll
    split
    · next hc =>
      rcases ih (ctr + 1) seen m hr with ⟨u, hu, he⟩ | ⟨hn, he⟩
      · exact .inl ⟨u, by simp [hu], he⟩
      · refine .inr ⟨?_, he⟩
        intro w hm hwb
        rcases List.mem_cons.mp hm with rfl | hm
        · simp only [Bool.and_eq_true, List.contains_iff_mem] at hc
          exact hwb ▸ hc.1
        · exact hn w hm hwb
    · rcases ih (ctr + 1) (a :: seen) (m.setElem a v) hr with ⟨u, hu, he⟩ | ⟨hn, he⟩
      · exact .inl ⟨u, by simp [hu], he⟩
      · by_cases hab : b = a
        · subst hab
          exact .inl ⟨v, by simp, by rw [he, Memory.elem_setElem_self m b hw.2]⟩
        · refine .inr ⟨?_, by rw [he, Memory.elem_setElem_ne m v hw.1 hb hab]⟩
          intro w hm hwb
          rcases List.mem_cons.mp hm with rfl | hm
          · exact absurd hwb.symm hab
          · have := hn w hm hwb
            simpa [hab] using this

/-- Where no two writes disagree, every written element reads back (20_memory.md R76). -/
theorem Memory.elem_storeAll_of_mem {ws : List (Nat × Int)} (ctr : Nat) (m : Memory)
    (h : ∀ w ∈ ws, w.1 % 2 = 0 ∧ s16ok w.2 = true) {a : Nat} {v : Int} (hm : (a, v) ∈ ws)
    (hu : ∀ u, (a, u) ∈ ws → u = v) : (Memory.storeAll ctr [] m ws).elem a = v := by
  rcases Memory.elem_storeAll_cases ws (h _ hm).1 ctr [] m h with ⟨u, hmem, he⟩ | ⟨hn, _⟩
  · rw [he, hu u hmem]
  · exact absurd (hn _ hm rfl) (by simp)

/-! ## The canonical form -/

theorem Memory.wf_iff (m : Memory) : m.wf = true ↔ (m.map Prod.fst).Pairwise (· < ·) := by
  simp [Memory.wf]

theorem Memory.mem_setByte {m : Memory} {a : Nat} {b : Byte} {c : Host.Cell} (h : c ∈ m.setByte a b) :
    c = (a, b) ∨ c ∈ m := by
  induction m with
  | nil => simpa [Memory.setByte] using h
  | cons d rest ih =>
    obtain ⟨k, v⟩ := d
    unfold Memory.setByte at h
    split at h
    · simpa using h
    · split at h
      · rcases List.mem_cons.mp h with h | h
        · exact .inl h
        · exact .inr (by simp [h])
      · rcases List.mem_cons.mp h with h | h
        · exact .inr (by simp [h])
        · rcases ih h with h | h
          · exact .inl h
          · exact .inr (by simp [h])

theorem Memory.setByte_wf {m : Memory} (a : Nat) (b : Byte) (h : m.wf = true) : (m.setByte a b).wf = true := by
  rw [Memory.wf_iff] at h ⊢
  induction m with
  | nil => simp [Memory.setByte]
  | cons d rest ih =>
    obtain ⟨k, v⟩ := d
    rw [List.map_cons, List.pairwise_cons] at h
    obtain ⟨hk, hrest⟩ := h
    unfold Memory.setByte
    split
    · next hlt =>
      simp only [List.map_cons, List.pairwise_cons]
      refine ⟨?_, hk, hrest⟩
      intro x hx
      rcases List.mem_cons.mp hx with rfl | hx
      · exact hlt
      · exact lt_trans hlt (hk x hx)
    · split
      · next heq =>
        subst heq
        simp only [List.map_cons, List.pairwise_cons]
        exact ⟨hk, hrest⟩
      · next h1 h2 =>
        simp only [List.map_cons, List.pairwise_cons]
        refine ⟨?_, ih hrest⟩
        intro x hx
        obtain ⟨c, hc, rfl⟩ := List.mem_map.mp hx
        rcases Memory.mem_setByte hc with rfl | hc
        · have : k < a := by omega
          exact this
        · exact hk _ (List.mem_map.mpr ⟨c, hc, rfl⟩)

theorem Memory.setHalf_wf {m : Memory} (a : Nat) (v : Half) (h : m.wf = true) : (m.setHalf a v).wf = true :=
  Memory.setByte_wf _ _ (Memory.setByte_wf _ _ h)

theorem Memory.setElem_wf {m : Memory} (a : Nat) (v : Int) (h : m.wf = true) : (m.setElem a v).wf = true :=
  Memory.setHalf_wf _ _ h

theorem Memory.storeAll_wf (ws : List (Nat × Int)) : ∀ (ctr : Nat) (seen : List Nat) {m : Memory},
    m.wf = true → (Memory.storeAll ctr seen m ws).wf = true := by
  induction ws with
  | nil => intro ctr seen m h; exact h
  | cons w rest ih =>
    intro ctr seen m h
    obtain ⟨a, v⟩ := w
    unfold Memory.storeAll
    split
    · exact ih _ _ h
    · exact ih _ _ (Memory.setElem_wf a v h)

theorem Memory.setBacked_wf {m : Memory} (p : Params) (a : Nat) (b : Byte) (h : m.wf = true) :
    (Memory.setBacked p m a b).wf = true := by
  unfold Memory.setBacked
  split
  · exact Memory.setByte_wf a b h
  · exact h

theorem Memory.scramble_wf (p : Params) (as : List Nat) : ∀ (ctr : Nat) {m : Memory},
    m.wf = true → (Memory.scramble p ctr m as).wf = true := by
  induction as with
  | nil => intro ctr m h; exact h
  | cons a rest ih =>
    intro ctr m h
    exact ih _ (Memory.setBacked_wf p _ _ (Memory.setBacked_wf p _ _ h))

theorem Memory.byte_setBacked_ne (p : Params) (m : Memory) {a b : Nat} (v : Byte) (h : b ≠ a) :
    (Memory.setBacked p m a v).byte b = m.byte b := by
  unfold Memory.setBacked
  split
  · exact Memory.byte_setByte_ne m v h
  · rfl

/-- A byte outside a footprint survives the loss of the footprint (60_exceptions.md R209). -/
theorem Memory.byte_scramble_of_not_mem (p : Params) (as : List Nat) {b : Nat} : ∀ (ctr : Nat) (m : Memory),
    (∀ a ∈ as, b ≠ a ∧ b ≠ a + 1) → (Memory.scramble p ctr m as).byte b = m.byte b := by
  induction as with
  | nil => intro ctr m _; rfl
  | cons a rest ih =>
    intro ctr m h
    have ha := h a (by simp)
    unfold Memory.scramble
    rw [ih _ _ (fun c hc => h c (by simp [hc])), Memory.byte_setBacked_ne p _ _ ha.2,
      Memory.byte_setBacked_ne p _ _ ha.1]

theorem Memory.storeBytes_wf : ∀ (n : Nat) (a : Nat) (v : Word) {m : Memory},
    m.wf = true → (Memory.storeBytes m a n v).wf = true := by
  intro n
  induction n with
  | zero => intro a v m h; exact h
  | succ k ih => intro a v m h; exact ih _ _ (Memory.setByte_wf _ _ h)

theorem Memory.byte_storeBytes_of_not_mem {b : Nat} : ∀ (n : Nat) (a : Nat) (v : Word) (m : Memory),
    (b < a ∨ a + n ≤ b) → (Memory.storeBytes m a n v).byte b = m.byte b := by
  intro n
  induction n with
  | zero => intro a v m _; rfl
  | succ k ih =>
    intro a v m h
    unfold Memory.storeBytes
    rw [ih _ _ _ (by omega), Memory.byte_setByte_ne m _ (by omega)]

/-! ## The address space -/

theorem Memory.setByte_bounded {m : Memory} {a : Nat} (b : Byte) (h : Memory.Bounded m) (ha : a < 2 ^ 32) :
    Memory.Bounded (m.setByte a b) := by
  intro c hc
  rcases Memory.mem_setByte hc with rfl | hc
  · exact ha
  · exact h c hc

theorem Memory.storeAll_bounded (ws : List (Nat × Int)) : ∀ (ctr : Nat) (seen : List Nat) {m : Memory},
    Memory.Bounded m → (∀ w ∈ ws, w.1 + 1 < 2 ^ 32) → Memory.Bounded (Memory.storeAll ctr seen m ws) := by
  induction ws with
  | nil => intro ctr seen m h _; exact h
  | cons w rest ih =>
    intro ctr seen m h hw
    obtain ⟨a, v⟩ := w
    have ha := hw (a, v) (by simp)
    have hr : ∀ w ∈ rest, w.1 + 1 < 2 ^ 32 := fun w hm => hw w (by simp [hm])
    unfold Memory.storeAll
    split
    · exact ih _ _ h hr
    · exact ih _ _ (Memory.setByte_bounded _ (Memory.setByte_bounded _ h (by omega)) ha) hr

theorem Memory.setBacked_bounded {m : Memory} (p : Params) (a : Nat) (b : Byte) (h : Memory.Bounded m) :
    Memory.Bounded (Memory.setBacked p m a b) := by
  unfold Memory.setBacked
  split
  · next hb =>
    refine Memory.setByte_bounded b h ?_
    simp only [Params.backed, Bool.and_eq_true, decide_eq_true_eq] at hb
    exact hb.1.1
  · exact h

theorem Memory.scramble_bounded (p : Params) (as : List Nat) : ∀ (ctr : Nat) {m : Memory},
    Memory.Bounded m → Memory.Bounded (Memory.scramble p ctr m as) := by
  induction as with
  | nil => intro ctr m h; exact h
  | cons a rest ih =>
    intro ctr m h
    exact ih _ (Memory.setBacked_bounded p _ _ (Memory.setBacked_bounded p _ _ h))

end Sys2Proof.Machine
end

