-- ==== Sys2Proof/Laws/State.lean ====
section
/-! SUPPORT. One lemma per field of State and per update of it, each true by definition. -/

namespace Sys2Proof.Machine

/-! ## Launch -/

@[simp] theorem State.launch_cfg (w : Word) (s : State) : (State.launch w s).cfg = s.cfg := rfl
@[simp] theorem State.launch_ctrl (w : Word) (s : State) : (State.launch w s).ctrl = s.ctrl := rfl
@[simp] theorem State.launch_cmd (w : Word) (s : State) : (State.launch w s).cmd = w := rfl
@[simp] theorem State.launch_errCode (w : Word) (s : State) : (State.launch w s).errCode = s.errCode := rfl
@[simp] theorem State.launch_errInfo (w : Word) (s : State) : (State.launch w s).errInfo = s.errInfo := rfl
@[simp] theorem State.launch_regs (w : Word) (s : State) : (State.launch w s).regs = s.regs := rfl
@[simp] theorem State.launch_refs (w : Word) (s : State) : (State.launch w s).refs = s.refs := rfl
@[simp] theorem State.launch_cost (w : Word) (s : State) : (State.launch w s).cost = s.cost := rfl
@[simp] theorem State.launch_latch (w : Word) (s : State) : (State.launch w s).latch = ⟨w, s.ctrl.laEn, s.regs, s.refs⟩ := rfl
@[simp] theorem State.launch_mem (w : Word) (s : State) : (State.launch w s).mem = s.mem := rfl
@[simp] theorem State.launch_inbox (w : Word) (s : State) : (State.launch w s).inbox = s.inbox := rfl
@[simp] theorem State.launch_rdata (w : Word) (s : State) : (State.launch w s).rdata = s.rdata := rfl
@[simp] theorem State.launch_raced (w : Word) (s : State) : (State.launch w s).raced = false := rfl
@[simp] theorem State.launch_busRefused (w : Word) (s : State) : (State.launch w s).busRefused = [] := rfl
@[simp] theorem State.launch_freeCtr (w : Word) (s : State) : (State.launch w s).freeCtr = s.freeCtr := rfl
@[simp] theorem State.launch_busy (w : Word) (s : State) : (State.launch w s).status.busy = true := rfl
@[simp] theorem State.launch_done (w : Word) (s : State) : (State.launch w s).status.done = false := rfl
@[simp] theorem State.launch_err (w : Word) (s : State) : (State.launch w s).status.err = s.status.err := rfl
@[simp] theorem State.launch_matched (w : Word) (s : State) : (State.launch w s).status.matched = s.status.matched := rfl
@[simp] theorem State.launch_ovr (w : Word) (s : State) : (State.launch w s).status.ovr = s.status.ovr := rfl

/-! ## Retire -/

@[simp] theorem State.retire_cfg (s : State) : (State.retire s).cfg = s.cfg := rfl
@[simp] theorem State.retire_ctrl (s : State) : (State.retire s).ctrl = s.ctrl := rfl
@[simp] theorem State.retire_cmd (s : State) : (State.retire s).cmd = s.cmd := rfl
@[simp] theorem State.retire_errCode (s : State) : (State.retire s).errCode = s.errCode := rfl
@[simp] theorem State.retire_errInfo (s : State) : (State.retire s).errInfo = s.errInfo := rfl
@[simp] theorem State.retire_regs (s : State) : (State.retire s).regs = s.regs := rfl
@[simp] theorem State.retire_refs (s : State) : (State.retire s).refs = s.refs := rfl
@[simp] theorem State.retire_cost (s : State) : (State.retire s).cost = s.cost := rfl
@[simp] theorem State.retire_latch (s : State) : (State.retire s).latch = Latch.empty := rfl
@[simp] theorem State.retire_mem (s : State) : (State.retire s).mem = s.mem := rfl
@[simp] theorem State.retire_inbox (s : State) : (State.retire s).inbox = s.inbox := rfl
@[simp] theorem State.retire_rdata (s : State) : (State.retire s).rdata = s.rdata := rfl
@[simp] theorem State.retire_raced (s : State) : (State.retire s).raced = false := rfl
@[simp] theorem State.retire_busRefused (s : State) : (State.retire s).busRefused = [] := rfl
@[simp] theorem State.retire_freeCtr (s : State) : (State.retire s).freeCtr = s.freeCtr := rfl
@[simp] theorem State.retire_busy (s : State) : (State.retire s).status.busy = false := rfl
@[simp] theorem State.retire_done (s : State) : (State.retire s).status.done = s.status.done := rfl
@[simp] theorem State.retire_err (s : State) : (State.retire s).status.err = s.status.err := rfl
@[simp] theorem State.retire_matched (s : State) : (State.retire s).status.matched = s.status.matched := rfl
@[simp] theorem State.retire_ovr (s : State) : (State.retire s).status.ovr = s.status.ovr := rfl

/-! ## The error latch -/

@[simp] theorem State.trap_cfg (e : ErrCode) (s : State) : (State.trap e s).cfg = s.cfg := rfl
@[simp] theorem State.trap_ctrl (e : ErrCode) (s : State) : (State.trap e s).ctrl = s.ctrl := rfl
@[simp] theorem State.trap_cmd (e : ErrCode) (s : State) : (State.trap e s).cmd = s.cmd := rfl
@[simp] theorem State.trap_errCode (e : ErrCode) (s : State) : (State.trap e s).errCode = some e := rfl
@[simp] theorem State.trap_errInfo (e : ErrCode) (s : State) : (State.trap e s).errInfo = s.latch.word := rfl
@[simp] theorem State.trap_regs (e : ErrCode) (s : State) : (State.trap e s).regs = s.regs := rfl
@[simp] theorem State.trap_refs (e : ErrCode) (s : State) : (State.trap e s).refs = s.refs := rfl
@[simp] theorem State.trap_cost (e : ErrCode) (s : State) : (State.trap e s).cost = s.cost := rfl
@[simp] theorem State.trap_latch (e : ErrCode) (s : State) : (State.trap e s).latch = Latch.empty := rfl
@[simp] theorem State.trap_mem (e : ErrCode) (s : State) : (State.trap e s).mem = s.mem := rfl
@[simp] theorem State.trap_inbox (e : ErrCode) (s : State) : (State.trap e s).inbox = s.inbox := rfl
@[simp] theorem State.trap_rdata (e : ErrCode) (s : State) : (State.trap e s).rdata = s.rdata := rfl
@[simp] theorem State.trap_raced (e : ErrCode) (s : State) : (State.trap e s).raced = false := rfl
@[simp] theorem State.trap_busRefused (e : ErrCode) (s : State) : (State.trap e s).busRefused = [] := rfl
@[simp] theorem State.trap_freeCtr (e : ErrCode) (s : State) : (State.trap e s).freeCtr = s.freeCtr := rfl
@[simp] theorem State.trap_busy (e : ErrCode) (s : State) : (State.trap e s).status.busy = false := rfl
@[simp] theorem State.trap_done (e : ErrCode) (s : State) : (State.trap e s).status.done = s.status.done := rfl
@[simp] theorem State.trap_err (e : ErrCode) (s : State) : (State.trap e s).status.err = true := rfl
@[simp] theorem State.trap_matched (e : ErrCode) (s : State) : (State.trap e s).status.matched = s.status.matched := rfl
@[simp] theorem State.trap_ovr (e : ErrCode) (s : State) : (State.trap e s).status.ovr = s.status.ovr := rfl

/-! ## Successful completion -/

@[simp] theorem State.finish_cfg (s : State) : (State.finish s).cfg = s.cfg := rfl
@[simp] theorem State.finish_ctrl (s : State) : (State.finish s).ctrl = s.ctrl := rfl
@[simp] theorem State.finish_cmd (s : State) : (State.finish s).cmd = s.cmd := rfl
@[simp] theorem State.finish_errCode (s : State) : (State.finish s).errCode = s.errCode := rfl
@[simp] theorem State.finish_errInfo (s : State) : (State.finish s).errInfo = s.errInfo := rfl
@[simp] theorem State.finish_regs (s : State) : (State.finish s).regs = s.regs := rfl
@[simp] theorem State.finish_refs (s : State) : (State.finish s).refs = s.refs := rfl
@[simp] theorem State.finish_cost (s : State) : (State.finish s).cost = s.cost := rfl
@[simp] theorem State.finish_latch (s : State) : (State.finish s).latch = Latch.empty := rfl
@[simp] theorem State.finish_mem (s : State) : (State.finish s).mem = s.mem := rfl
@[simp] theorem State.finish_inbox (s : State) : (State.finish s).inbox = s.inbox := rfl
@[simp] theorem State.finish_rdata (s : State) : (State.finish s).rdata = s.rdata := rfl
@[simp] theorem State.finish_raced (s : State) : (State.finish s).raced = false := rfl
@[simp] theorem State.finish_busRefused (s : State) : (State.finish s).busRefused = [] := rfl
@[simp] theorem State.finish_freeCtr (s : State) : (State.finish s).freeCtr = s.freeCtr := rfl
@[simp] theorem State.finish_busy (s : State) : (State.finish s).status.busy = false := rfl
@[simp] theorem State.finish_done (s : State) : (State.finish s).status.done = true := rfl
@[simp] theorem State.finish_err (s : State) : (State.finish s).status.err = s.status.err := rfl
@[simp] theorem State.finish_matched (s : State) : (State.finish s).status.matched = s.status.matched := rfl
@[simp] theorem State.finish_ovr (s : State) : (State.finish s).status.ovr = s.status.ovr := rfl

/-! ## The registers after a reset -/

@[simp] theorem State.resetRegs_cfg (s : State) : (State.resetRegs s).cfg = s.cfg := rfl
@[simp] theorem State.resetRegs_ctrl (s : State) : (State.resetRegs s).ctrl = Ctrl.reset := rfl
@[simp] theorem State.resetRegs_cmd (s : State) : (State.resetRegs s).cmd = 0 := rfl
@[simp] theorem State.resetRegs_errCode (s : State) : (State.resetRegs s).errCode = none := rfl
@[simp] theorem State.resetRegs_errInfo (s : State) : (State.resetRegs s).errInfo = 0 := rfl
@[simp] theorem State.resetRegs_regs (s : State) : (State.resetRegs s).regs = Operands.reset s.cfg := rfl
@[simp] theorem State.resetRegs_refs (s : State) : (State.resetRegs s).refs = RefTable.empty := rfl
@[simp] theorem State.resetRegs_cost (s : State) : (State.resetRegs s).cost = 0 := rfl
@[simp] theorem State.resetRegs_latch (s : State) : (State.resetRegs s).latch = Latch.empty := rfl
@[simp] theorem State.resetRegs_mem (s : State) : (State.resetRegs s).mem = s.mem := rfl
@[simp] theorem State.resetRegs_inbox (s : State) : (State.resetRegs s).inbox = s.inbox := rfl
@[simp] theorem State.resetRegs_rdata (s : State) : (State.resetRegs s).rdata = s.rdata := rfl
@[simp] theorem State.resetRegs_raced (s : State) : (State.resetRegs s).raced = false := rfl
@[simp] theorem State.resetRegs_busRefused (s : State) : (State.resetRegs s).busRefused = [] := rfl
@[simp] theorem State.resetRegs_freeCtr (s : State) : (State.resetRegs s).freeCtr = s.freeCtr := rfl
@[simp] theorem State.resetRegs_busy (s : State) : (State.resetRegs s).status.busy = false := rfl
@[simp] theorem State.resetRegs_done (s : State) : (State.resetRegs s).status.done = false := rfl
@[simp] theorem State.resetRegs_err (s : State) : (State.resetRegs s).status.err = false := rfl
@[simp] theorem State.resetRegs_matched (s : State) : (State.resetRegs s).status.matched = false := rfl
@[simp] theorem State.resetRegs_ovr (s : State) : (State.resetRegs s).status.ovr = false := rfl

/-! ## A discarded host write -/

@[simp] theorem State.overrun_cfg (s : State) : (State.overrun s).cfg = s.cfg := rfl
@[simp] theorem State.overrun_ctrl (s : State) : (State.overrun s).ctrl = s.ctrl := rfl
@[simp] theorem State.overrun_cmd (s : State) : (State.overrun s).cmd = s.cmd := rfl
@[simp] theorem State.overrun_errCode (s : State) : (State.overrun s).errCode = s.errCode := rfl
@[simp] theorem State.overrun_errInfo (s : State) : (State.overrun s).errInfo = s.errInfo := rfl
@[simp] theorem State.overrun_regs (s : State) : (State.overrun s).regs = s.regs := rfl
@[simp] theorem State.overrun_refs (s : State) : (State.overrun s).refs = s.refs := rfl
@[simp] theorem State.overrun_cost (s : State) : (State.overrun s).cost = s.cost := rfl
@[simp] theorem State.overrun_latch (s : State) : (State.overrun s).latch = s.latch := rfl
@[simp] theorem State.overrun_mem (s : State) : (State.overrun s).mem = s.mem := rfl
@[simp] theorem State.overrun_inbox (s : State) : (State.overrun s).inbox = s.inbox := rfl
@[simp] theorem State.overrun_rdata (s : State) : (State.overrun s).rdata = s.rdata := rfl
@[simp] theorem State.overrun_raced (s : State) : (State.overrun s).raced = s.raced := rfl
@[simp] theorem State.overrun_busRefused (s : State) : (State.overrun s).busRefused = s.busRefused := rfl
@[simp] theorem State.overrun_freeCtr (s : State) : (State.overrun s).freeCtr = s.freeCtr := rfl
@[simp] theorem State.overrun_busy (s : State) : (State.overrun s).status.busy = s.status.busy := rfl
@[simp] theorem State.overrun_done (s : State) : (State.overrun s).status.done = s.status.done := rfl
@[simp] theorem State.overrun_err (s : State) : (State.overrun s).status.err = s.status.err := rfl
@[simp] theorem State.overrun_matched (s : State) : (State.overrun s).status.matched = s.status.matched := rfl
@[simp] theorem State.overrun_ovr (s : State) : (State.overrun s).status.ovr = true := rfl

/-! ## Result registers -/

@[simp] theorem State.applyResults_cfg (r : Results) (s : State) : (State.applyResults r s).cfg = s.cfg := by cases r <;> rfl
@[simp] theorem State.applyResults_ctrl (r : Results) (s : State) : (State.applyResults r s).ctrl = s.ctrl := by cases r <;> rfl
@[simp] theorem State.applyResults_cmd (r : Results) (s : State) : (State.applyResults r s).cmd = s.cmd := by cases r <;> rfl
@[simp] theorem State.applyResults_errCode (r : Results) (s : State) : (State.applyResults r s).errCode = s.errCode := by cases r <;> rfl
@[simp] theorem State.applyResults_errInfo (r : Results) (s : State) : (State.applyResults r s).errInfo = s.errInfo := by cases r <;> rfl
@[simp] theorem State.applyResults_refs (r : Results) (s : State) : (State.applyResults r s).refs = s.refs := by cases r <;> rfl
@[simp] theorem State.applyResults_latch (r : Results) (s : State) : (State.applyResults r s).latch = s.latch := by cases r <;> rfl
@[simp] theorem State.applyResults_mem (r : Results) (s : State) : (State.applyResults r s).mem = s.mem := by cases r <;> rfl
@[simp] theorem State.applyResults_inbox (r : Results) (s : State) : (State.applyResults r s).inbox = s.inbox := by cases r <;> rfl
@[simp] theorem State.applyResults_rdata (r : Results) (s : State) : (State.applyResults r s).rdata = s.rdata := by cases r <;> rfl
@[simp] theorem State.applyResults_raced (r : Results) (s : State) : (State.applyResults r s).raced = s.raced := by cases r <;> rfl
@[simp] theorem State.applyResults_busRefused (r : Results) (s : State) : (State.applyResults r s).busRefused = s.busRefused := by cases r <;> rfl
@[simp] theorem State.applyResults_freeCtr (r : Results) (s : State) : (State.applyResults r s).freeCtr = s.freeCtr := by cases r <;> rfl
@[simp] theorem State.applyResults_busy (r : Results) (s : State) : (State.applyResults r s).status.busy = s.status.busy := by cases r <;> rfl
@[simp] theorem State.applyResults_done (r : Results) (s : State) : (State.applyResults r s).status.done = s.status.done := by cases r <;> rfl
@[simp] theorem State.applyResults_err (r : Results) (s : State) : (State.applyResults r s).status.err = s.status.err := by cases r <;> rfl
@[simp] theorem State.applyResults_ovr (r : Results) (s : State) : (State.applyResults r s).status.ovr = s.status.ovr := by cases r <;> rfl

/-! ## A bus fault -/

@[simp] theorem State.busFault_cfg (foot : List Nat) (s : State) : (State.busFault foot s).cfg = s.cfg := rfl
@[simp] theorem State.busFault_ctrl (foot : List Nat) (s : State) : (State.busFault foot s).ctrl = s.ctrl := rfl
@[simp] theorem State.busFault_cmd (foot : List Nat) (s : State) : (State.busFault foot s).cmd = s.cmd := rfl
@[simp] theorem State.busFault_errCode (foot : List Nat) (s : State) : (State.busFault foot s).errCode = some .bus := rfl
@[simp] theorem State.busFault_errInfo (foot : List Nat) (s : State) : (State.busFault foot s).errInfo = s.latch.word := rfl
@[simp] theorem State.busFault_regs (foot : List Nat) (s : State) : (State.busFault foot s).regs = s.regs := rfl
@[simp] theorem State.busFault_refs (foot : List Nat) (s : State) : (State.busFault foot s).refs = s.refs := rfl
@[simp] theorem State.busFault_cost (foot : List Nat) (s : State) : (State.busFault foot s).cost = s.cost := rfl
@[simp] theorem State.busFault_latch (foot : List Nat) (s : State) : (State.busFault foot s).latch = Latch.empty := rfl
@[simp] theorem State.busFault_mem (foot : List Nat) (s : State) : (State.busFault foot s).mem = Memory.scramble s.cfg s.freeCtr s.mem foot := rfl
@[simp] theorem State.busFault_inbox (foot : List Nat) (s : State) : (State.busFault foot s).inbox = s.inbox := rfl
@[simp] theorem State.busFault_rdata (foot : List Nat) (s : State) : (State.busFault foot s).rdata = s.rdata := rfl
@[simp] theorem State.busFault_raced (foot : List Nat) (s : State) : (State.busFault foot s).raced = false := rfl
@[simp] theorem State.busFault_busRefused (foot : List Nat) (s : State) : (State.busFault foot s).busRefused = [] := rfl
@[simp] theorem State.busFault_freeCtr (foot : List Nat) (s : State) : (State.busFault foot s).freeCtr = s.freeCtr + foot.length := rfl
@[simp] theorem State.busFault_busy (foot : List Nat) (s : State) : (State.busFault foot s).status.busy = false := rfl
@[simp] theorem State.busFault_done (foot : List Nat) (s : State) : (State.busFault foot s).status.done = s.status.done := rfl
@[simp] theorem State.busFault_err (foot : List Nat) (s : State) : (State.busFault foot s).status.err = true := rfl
@[simp] theorem State.busFault_matched (foot : List Nat) (s : State) : (State.busFault foot s).status.matched = s.status.matched := rfl
@[simp] theorem State.busFault_ovr (foot : List Nat) (s : State) : (State.busFault foot s).status.ovr = s.status.ovr := rfl

/-! ## Success with writes and results -/

@[simp] theorem State.succeed_cfg (ws : List (Nat × Int)) (r : Results) (s : State) : (State.succeed ws r s).cfg = s.cfg := by cases r <;> rfl
@[simp] theorem State.succeed_ctrl (ws : List (Nat × Int)) (r : Results) (s : State) : (State.succeed ws r s).ctrl = s.ctrl := by cases r <;> rfl
@[simp] theorem State.succeed_cmd (ws : List (Nat × Int)) (r : Results) (s : State) : (State.succeed ws r s).cmd = s.cmd := by cases r <;> rfl
@[simp] theorem State.succeed_errCode (ws : List (Nat × Int)) (r : Results) (s : State) : (State.succeed ws r s).errCode = s.errCode := by cases r <;> rfl
@[simp] theorem State.succeed_errInfo (ws : List (Nat × Int)) (r : Results) (s : State) : (State.succeed ws r s).errInfo = s.errInfo := by cases r <;> rfl
@[simp] theorem State.succeed_refs (ws : List (Nat × Int)) (r : Results) (s : State) : (State.succeed ws r s).refs = s.refs := by cases r <;> rfl
@[simp] theorem State.succeed_latch (ws : List (Nat × Int)) (r : Results) (s : State) : (State.succeed ws r s).latch = Latch.empty := by cases r <;> rfl
@[simp] theorem State.succeed_mem (ws : List (Nat × Int)) (r : Results) (s : State) : (State.succeed ws r s).mem = Memory.storeAll s.freeCtr [] s.mem ws := by cases r <;> rfl
@[simp] theorem State.succeed_inbox (ws : List (Nat × Int)) (r : Results) (s : State) : (State.succeed ws r s).inbox = s.inbox := by cases r <;> rfl
@[simp] theorem State.succeed_rdata (ws : List (Nat × Int)) (r : Results) (s : State) : (State.succeed ws r s).rdata = s.rdata := by cases r <;> rfl
@[simp] theorem State.succeed_raced (ws : List (Nat × Int)) (r : Results) (s : State) : (State.succeed ws r s).raced = false := by cases r <;> rfl
@[simp] theorem State.succeed_busRefused (ws : List (Nat × Int)) (r : Results) (s : State) : (State.succeed ws r s).busRefused = [] := by cases r <;> rfl
@[simp] theorem State.succeed_freeCtr (ws : List (Nat × Int)) (r : Results) (s : State) : (State.succeed ws r s).freeCtr = s.freeCtr + ws.length := by cases r <;> rfl
@[simp] theorem State.succeed_busy (ws : List (Nat × Int)) (r : Results) (s : State) : (State.succeed ws r s).status.busy = false := by cases r <;> rfl
@[simp] theorem State.succeed_done (ws : List (Nat × Int)) (r : Results) (s : State) : (State.succeed ws r s).status.done = true := by cases r <;> rfl
@[simp] theorem State.succeed_err (ws : List (Nat × Int)) (r : Results) (s : State) : (State.succeed ws r s).status.err = s.status.err := by cases r <;> rfl
@[simp] theorem State.succeed_ovr (ws : List (Nat × Int)) (r : Results) (s : State) : (State.succeed ws r s).status.ovr = s.status.ovr := by cases r <;> rfl

/-! ## Reset -/

@[simp] theorem State.resetCore_cfg (s : State) : (State.resetCore s).cfg = s.cfg := rfl
@[simp] theorem State.resetCore_ctrl (s : State) : (State.resetCore s).ctrl = Ctrl.reset := rfl
@[simp] theorem State.resetCore_cmd (s : State) : (State.resetCore s).cmd = 0 := rfl
@[simp] theorem State.resetCore_errCode (s : State) : (State.resetCore s).errCode = none := rfl
@[simp] theorem State.resetCore_errInfo (s : State) : (State.resetCore s).errInfo = 0 := rfl
@[simp] theorem State.resetCore_regs (s : State) : (State.resetCore s).regs = Operands.reset s.cfg := rfl
@[simp] theorem State.resetCore_refs (s : State) : (State.resetCore s).refs = RefTable.empty := rfl
@[simp] theorem State.resetCore_cost (s : State) : (State.resetCore s).cost = 0 := rfl
@[simp] theorem State.resetCore_latch (s : State) : (State.resetCore s).latch = Latch.empty := rfl
@[simp] theorem State.resetCore_mem (s : State) : (State.resetCore s).mem = Memory.scramble s.cfg s.freeCtr s.mem (State.writeFootprint s) := rfl
@[simp] theorem State.resetCore_inbox (s : State) : (State.resetCore s).inbox = s.inbox := rfl
@[simp] theorem State.resetCore_rdata (s : State) : (State.resetCore s).rdata = s.rdata := rfl
@[simp] theorem State.resetCore_raced (s : State) : (State.resetCore s).raced = false := rfl
@[simp] theorem State.resetCore_busRefused (s : State) : (State.resetCore s).busRefused = [] := rfl
@[simp] theorem State.resetCore_freeCtr (s : State) : (State.resetCore s).freeCtr = s.freeCtr + (State.writeFootprint s).length := rfl
@[simp] theorem State.resetCore_busy (s : State) : (State.resetCore s).status.busy = false := rfl
@[simp] theorem State.resetCore_done (s : State) : (State.resetCore s).status.done = false := rfl
@[simp] theorem State.resetCore_err (s : State) : (State.resetCore s).status.err = false := rfl
@[simp] theorem State.resetCore_matched (s : State) : (State.resetCore s).status.matched = false := rfl
@[simp] theorem State.resetCore_ovr (s : State) : (State.resetCore s).status.ovr = false := rfl

/-! ## What the result registers become -/

@[simp] theorem State.applyResults_keep (s : State) : State.applyResults .keep s = s := rfl

@[simp] theorem State.applyResults_cost_cost (c : CostReg) (s : State) :
    (State.applyResults (.cost c) s).cost = c := rfl

@[simp] theorem State.applyResults_search_cost (f : Bool) (dx dy r : Half) (c : CostReg) (s : State) :
    (State.applyResults (.search f dx dy r c) s).cost = c := rfl

@[simp] theorem State.applyResults_search_matched (f : Bool) (dx dy r : Half) (c : CostReg) (s : State) :
    (State.applyResults (.search f dx dy r c) s).status.matched = f := rfl

@[simp] theorem State.applyResults_search_regs (f : Bool) (dx dy r : Half) (c : CostReg) (s : State) :
    (State.applyResults (.search f dx dy r c) s).regs =
      { s.regs with vSpanX := dx, vSpanY := dy, vRef := r } := rfl

@[simp] theorem State.applyResults_cost_regs (c : CostReg) (s : State) :
    (State.applyResults (.cost c) s).regs = s.regs := rfl

@[simp] theorem State.applyResults_cost_matched (c : CostReg) (s : State) :
    (State.applyResults (.cost c) s).status.matched = s.status.matched := rfl

theorem State.succeed_regs (ws : List (Nat × Int)) (r : Results) (s : State) :
    (State.succeed ws r s).regs = (State.applyResults r s).regs := by cases r <;> rfl

theorem State.succeed_cost (ws : List (Nat × Int)) (r : Results) (s : State) :
    (State.succeed ws r s).cost = (State.applyResults r s).cost := by cases r <;> rfl

theorem State.succeed_matched (ws : List (Nat × Int)) (r : Results) (s : State) :
    (State.succeed ws r s).status.matched = (State.applyResults r s).status.matched := by cases r <;> rfl

/-! ## The host's accesses to data memory, and the platform's bus error -/

@[simp] theorem State.hostStore_cfg (s : State) (a : Word) (z : BusSize) (v : Word) : (State.hostStore s a z v).cfg = s.cfg := rfl
@[simp] theorem State.hostStore_ctrl (s : State) (a : Word) (z : BusSize) (v : Word) : (State.hostStore s a z v).ctrl = s.ctrl := rfl
@[simp] theorem State.hostStore_status (s : State) (a : Word) (z : BusSize) (v : Word) : (State.hostStore s a z v).status = s.status := rfl
@[simp] theorem State.hostStore_cmd (s : State) (a : Word) (z : BusSize) (v : Word) : (State.hostStore s a z v).cmd = s.cmd := rfl
@[simp] theorem State.hostStore_errCode (s : State) (a : Word) (z : BusSize) (v : Word) : (State.hostStore s a z v).errCode = s.errCode := rfl
@[simp] theorem State.hostStore_errInfo (s : State) (a : Word) (z : BusSize) (v : Word) : (State.hostStore s a z v).errInfo = s.errInfo := rfl
@[simp] theorem State.hostStore_regs (s : State) (a : Word) (z : BusSize) (v : Word) : (State.hostStore s a z v).regs = s.regs := rfl
@[simp] theorem State.hostStore_refs (s : State) (a : Word) (z : BusSize) (v : Word) : (State.hostStore s a z v).refs = s.refs := rfl
@[simp] theorem State.hostStore_cost (s : State) (a : Word) (z : BusSize) (v : Word) : (State.hostStore s a z v).cost = s.cost := rfl
@[simp] theorem State.hostStore_latch (s : State) (a : Word) (z : BusSize) (v : Word) : (State.hostStore s a z v).latch = s.latch := rfl
@[simp] theorem State.hostStore_inbox (s : State) (a : Word) (z : BusSize) (v : Word) : (State.hostStore s a z v).inbox = s.inbox := rfl
@[simp] theorem State.hostStore_rdata (s : State) (a : Word) (z : BusSize) (v : Word) : (State.hostStore s a z v).rdata = s.rdata := rfl
@[simp] theorem State.hostStore_busRefused (s : State) (a : Word) (z : BusSize) (v : Word) : (State.hostStore s a z v).busRefused = s.busRefused := rfl
@[simp] theorem State.hostStore_freeCtr (s : State) (a : Word) (z : BusSize) (v : Word) : (State.hostStore s a z v).freeCtr = s.freeCtr := rfl

@[simp] theorem State.hostLoad_cfg (s : State) (a : Word) (z : BusSize) : (State.hostLoad s a z).cfg = s.cfg := rfl
@[simp] theorem State.hostLoad_ctrl (s : State) (a : Word) (z : BusSize) : (State.hostLoad s a z).ctrl = s.ctrl := rfl
@[simp] theorem State.hostLoad_status (s : State) (a : Word) (z : BusSize) : (State.hostLoad s a z).status = s.status := rfl
@[simp] theorem State.hostLoad_cmd (s : State) (a : Word) (z : BusSize) : (State.hostLoad s a z).cmd = s.cmd := rfl
@[simp] theorem State.hostLoad_errCode (s : State) (a : Word) (z : BusSize) : (State.hostLoad s a z).errCode = s.errCode := rfl
@[simp] theorem State.hostLoad_errInfo (s : State) (a : Word) (z : BusSize) : (State.hostLoad s a z).errInfo = s.errInfo := rfl
@[simp] theorem State.hostLoad_regs (s : State) (a : Word) (z : BusSize) : (State.hostLoad s a z).regs = s.regs := rfl
@[simp] theorem State.hostLoad_refs (s : State) (a : Word) (z : BusSize) : (State.hostLoad s a z).refs = s.refs := rfl
@[simp] theorem State.hostLoad_cost (s : State) (a : Word) (z : BusSize) : (State.hostLoad s a z).cost = s.cost := rfl
@[simp] theorem State.hostLoad_latch (s : State) (a : Word) (z : BusSize) : (State.hostLoad s a z).latch = s.latch := rfl
@[simp] theorem State.hostLoad_mem (s : State) (a : Word) (z : BusSize) : (State.hostLoad s a z).mem = s.mem := rfl
@[simp] theorem State.hostLoad_inbox (s : State) (a : Word) (z : BusSize) : (State.hostLoad s a z).inbox = s.inbox := rfl
@[simp] theorem State.hostLoad_raced (s : State) (a : Word) (z : BusSize) : (State.hostLoad s a z).raced = s.raced := rfl
@[simp] theorem State.hostLoad_busRefused (s : State) (a : Word) (z : BusSize) : (State.hostLoad s a z).busRefused = s.busRefused := rfl

@[simp] theorem State.busErrorAt_cfg (s : State) (a : Word) : (State.busErrorAt s a).cfg = s.cfg := by unfold State.busErrorAt; split <;> rfl
@[simp] theorem State.busErrorAt_ctrl (s : State) (a : Word) : (State.busErrorAt s a).ctrl = s.ctrl := by unfold State.busErrorAt; split <;> rfl
@[simp] theorem State.busErrorAt_status (s : State) (a : Word) : (State.busErrorAt s a).status = s.status := by unfold State.busErrorAt; split <;> rfl
@[simp] theorem State.busErrorAt_cmd (s : State) (a : Word) : (State.busErrorAt s a).cmd = s.cmd := by unfold State.busErrorAt; split <;> rfl
@[simp] theorem State.busErrorAt_errCode (s : State) (a : Word) : (State.busErrorAt s a).errCode = s.errCode := by unfold State.busErrorAt; split <;> rfl
@[simp] theorem State.busErrorAt_errInfo (s : State) (a : Word) : (State.busErrorAt s a).errInfo = s.errInfo := by unfold State.busErrorAt; split <;> rfl
@[simp] theorem State.busErrorAt_regs (s : State) (a : Word) : (State.busErrorAt s a).regs = s.regs := by unfold State.busErrorAt; split <;> rfl
@[simp] theorem State.busErrorAt_refs (s : State) (a : Word) : (State.busErrorAt s a).refs = s.refs := by unfold State.busErrorAt; split <;> rfl
@[simp] theorem State.busErrorAt_cost (s : State) (a : Word) : (State.busErrorAt s a).cost = s.cost := by unfold State.busErrorAt; split <;> rfl
@[simp] theorem State.busErrorAt_latch (s : State) (a : Word) : (State.busErrorAt s a).latch = s.latch := by unfold State.busErrorAt; split <;> rfl
@[simp] theorem State.busErrorAt_mem (s : State) (a : Word) : (State.busErrorAt s a).mem = s.mem := by unfold State.busErrorAt; split <;> rfl
@[simp] theorem State.busErrorAt_inbox (s : State) (a : Word) : (State.busErrorAt s a).inbox = s.inbox := by unfold State.busErrorAt; split <;> rfl
@[simp] theorem State.busErrorAt_rdata (s : State) (a : Word) : (State.busErrorAt s a).rdata = s.rdata := by unfold State.busErrorAt; split <;> rfl
@[simp] theorem State.busErrorAt_raced (s : State) (a : Word) : (State.busErrorAt s a).raced = s.raced := by unfold State.busErrorAt; split <;> rfl
@[simp] theorem State.busErrorAt_freeCtr (s : State) (a : Word) : (State.busErrorAt s a).freeCtr = s.freeCtr := by unfold State.busErrorAt; split <;> rfl

/-! ## What the parts of the invariant read -/

theorem State.flagsOk_congr {s t : State} (h : t.status = s.status) (hs : State.FlagsOk s) : State.FlagsOk t := by
  unfold State.FlagsOk at *
  rw [h]
  exact hs

theorem State.errorLatchOk_congr {s t : State} (h1 : t.status = s.status) (h2 : t.errCode = s.errCode)
    (h3 : t.errInfo = s.errInfo) (h4 : t.cmd = s.cmd) (hs : State.ErrorLatchOk s) : State.ErrorLatchOk t := by
  unfold State.ErrorLatchOk at *
  rw [h1, h2, h3, h4]
  exact hs

theorem State.latchOk_congr {s t : State} (h1 : t.status = s.status) (h2 : t.latch = s.latch) (h3 : t.regs = s.regs)
    (h4 : t.refs = s.refs) (h5 : t.cmd = s.cmd) (h6 : t.raced = s.raced) (h7 : t.busRefused = s.busRefused)
    (hs : State.LatchOk s) : State.LatchOk t := by
  unfold State.LatchOk at *
  rw [h1, h2, h3, h4, h5, h6, h7]
  exact hs

/-- A core with nothing in flight has no footprint. -/
theorem State.inFootprint_of_idle {s : State} (h : s.status.busy = false) (a : Nat) :
    State.inFootprint s a = false := by
  simp [State.inFootprint, State.readFootprint, State.inWriteFootprint, State.writeFootprint, State.inFlight, h]

end Sys2Proof.Machine
end

