-- ==== Sys2Proof/Laws/Ops.lean ====
section
/-! SUPPORT. For each shared operation, once, everything it can answer: the provers cite these and unfold
nothing. -/

namespace Sys2Proof.Machine

/-! ## The frame of a memory command -/

/-- A command whose codes 2 to 8 do not all pass takes the fault of the first that fails. -/
theorem State.runCommand_some (e : ErrCode) (j : Job) (s : State) :
    State.runCommand (some e) j s = .next (State.trap e s) := rfl

theorem State.runCommand_none (j : Job) (s : State) : State.runCommand none j s = State.perform j s := rfl

/-- The writing phase ends in `E_BUS` or in success. -/
theorem State.commit_cases (foot : List Nat) (ws : List (Nat × Int)) (r : Results) (s : State) :
    State.commit foot ws r s = State.busFault foot s ∨ State.commit foot ws r s = State.succeed ws r s := by
  unfold State.commit
  split
  · exact .inl rfl
  · exact .inr rfl

/-- A command nobody raced with ends in `E_BUS`, `E_RANGE` or success. -/
theorem State.performQuiet_cases (j : Job) (s : State) :
    State.performQuiet j s = State.busFault j.foot s
      ∨ (j.writes = none ∧ State.performQuiet j s = State.trap .range s)
      ∨ ∃ ws, j.writes = some ws ∧ State.performQuiet j s = State.succeed ws j.results s := by
  unfold State.performQuiet
  split
  · exact .inl rfl
  · split
    · next h => exact .inr (.inl ⟨h, rfl⟩)
    · next ws h =>
      rcases State.commit_cases j.foot ws j.results s with hc | hc
      · exact .inl hc
      · exact .inr (.inr ⟨ws, h, hc⟩)

/-- The state a raced command works on: only the counter of free values has moved. -/
def State.bumped (j : Job) (s : State) : State := { s with freeCtr := s.freeCtr + j.foot.length + 8 }

/-- A raced command ends in `E_BUS`, in `E_RANGE` (if it can raise it) or in success with free values in its
footprint and its result registers. -/
theorem State.performRaced_cases (j : Job) (s : State) :
    State.performRaced j s = State.busFault j.foot (State.bumped j s)
      ∨ (j.ranges = true ∧ State.performRaced j s = State.trap .range (State.bumped j s))
      ∨ State.performRaced j s = State.succeed (freeWrites (s.freeCtr + 3) j.foot)
          (Results.raced (s.freeCtr + 2) j.results) (State.bumped j s) := by
  unfold State.performRaced
  simp only []
  split
  · exact .inl rfl
  · split
    · next h =>
      simp only [Bool.and_eq_true] at h
      exact .inr (.inl ⟨h.1, rfl⟩)
    · rcases State.commit_cases j.foot (freeWrites (s.freeCtr + 3) j.foot)
        (Results.raced (s.freeCtr + 2) j.results) (State.bumped j s) with hc | hc
      · exact .inl hc
      · exact .inr (.inr hc)

/-- No base register of a memory command points into the register window. -/
def State.OffWindow (j : Job) (s : State) : Prop := ∀ b ∈ j.bases, State.baseInWindow s b = false

/-- A memory command that may run answers a next state: the raced or the quiet completion. -/
theorem State.perform_of_offWindow {j : Job} {s : State} (h : State.OffWindow j s) :
    State.perform j s = .next (if s.raced then State.performRaced j s else State.performQuiet j s) := by
  have h1 : j.bases.any (State.baseInWindow s) = false := by
    rw [List.any_eq_false]; intro b hm; simp [h b hm]
  unfold State.perform
  rw [h1]
  cases s.raced <;> rfl

/-- A memory command is refused exactly if one of its base registers points into the register window
(20_memory.md R60). -/
theorem State.perform_refused {j : Job} {s : State} :
    State.perform j s = .refused .windowAsData ↔ ∃ b ∈ j.bases, State.baseInWindow s b = true := by
  unfold State.perform
  split
  · next h => simpa using h
  · next h =>
    have hn : ¬ ∃ b ∈ j.bases, State.baseInWindow s b = true := by simpa using h
    refine ⟨fun he => ?_, fun he => absurd he hn⟩
    split at he <;> cases he

/-- If a memory command answers a next state, it is the raced or the quiet completion. -/
theorem State.perform_next {j : Job} {s t : State} (h : State.perform j s = .next t) :
    (s.raced = true ∧ t = State.performRaced j s) ∨ (s.raced = false ∧ t = State.performQuiet j s) := by
  unfold State.perform at h
  split at h
  · cases h
  · split at h
    · next hr => exact .inl ⟨hr, by cases h; rfl⟩
    · next hr => exact .inr ⟨by simpa using hr, by cases h; rfl⟩

/-- If a command answers a next state, it is the fault of a failed check or the completion of its job. -/
theorem State.runCommand_next {c : Option ErrCode} {j : Job} {s t : State}
    (h : State.runCommand c j s = .next t) :
    (∃ e, c = some e ∧ t = State.trap e s) ∨ (c = none ∧ State.perform j s = .next t) := by
  cases c with
  | some e => exact .inl ⟨e, rfl, by cases h; rfl⟩
  | none => exact .inr ⟨rfl, h⟩

/-- The successful completion of a quiet command, on conditions about its job alone. -/
theorem State.runCommand_succeeds {j : Job} {s : State} {ws : List (Nat × Int)} (hraced : s.raced = false)
    (hwin : State.OffWindow j s) (hreads : ∀ r ∈ j.reads, State.accessRefused s r = false)
    (hws : j.writes = some ws) (hwrites : ∀ w ∈ ws, State.accessRefused s (elemRegion w.1) = false) :
    State.runCommand none j s = .next (State.succeed ws j.results s) := by
  have h1 : j.reads.any (State.accessRefused s) = false := by
    rw [List.any_eq_false]; intro r hm; simp [hreads r hm]
  have h2 : (ws.any fun w => State.accessRefused s (elemRegion w.1)) = false := by
    rw [List.any_eq_false]; intro w hm; simp [hwrites w hm]
  rw [State.runCommand_none, State.perform_of_offWindow hwin]
  simp [hraced, State.performQuiet, h1, hws, State.commit, h2]

/-! ## Commands, the turn, the step -/

/-- A command with a data path runs in the frame of memory commands. -/
theorem exec_of_jobOf {i : Instr} {s : State} {j : Job} (h : jobOf i s = some j) :
    exec i s = State.runCommand (checkOf i s.latch) j s := by
  cases i <;> simp only [jobOf, Option.some.injEq, reduceCtorEq] at h <;> subst h <;> rfl

/-- What a command can answer as a next state: a fault of its checks, its memory work, or one of the three
commands with no data path (60_exceptions.md R225). -/
theorem exec_next {i : Instr} {s t : State} (h : exec i s = .next t) :
    (∃ e, checkOf i s.latch = some e ∧ t = State.trap e s)
      ∨ (checkOf i s.latch = none ∧ ∃ j, jobOf i s = some j ∧ State.perform j s = .next t)
      ∨ (i = .nop ∧ t = State.finish s)
      ∨ (i = .refclr ∧ t = State.finish { s with refs := RefTable.empty })
      ∨ (i = .refpush ∧ checkRefpush s.latch = none
          ∧ t = State.finish { s with refs := RefTable.pushed s.latch.refs s.latch.regs.push }) := by
  cases hj : jobOf i s with
  | some j =>
    rw [exec_of_jobOf hj] at h
    rcases State.runCommand_next h with ⟨e, he, ht⟩ | ⟨he, ht⟩
    · exact .inl ⟨e, he, ht⟩
    · exact .inr (.inl ⟨he, j, rfl, ht⟩)
  | none =>
    cases i <;> simp only [jobOf, reduceCtorEq] at hj
    · exact .inr (.inr (.inl ⟨rfl, by cases h; rfl⟩))
    · change (match checkRefpush s.latch with
        | some e => Host.Outcome.next (State.trap e s)
        | none => .next (State.finish { s with refs := RefTable.pushed s.latch.refs s.latch.regs.push })) =
          .next t at h
      cases hc : checkRefpush s.latch with
      | some e => rw [hc] at h; exact .inl ⟨e, hc, by cases h; rfl⟩
      | none => rw [hc] at h; exact .inr (.inr (.inr (.inr ⟨rfl, rfl, by cases h; rfl⟩)))
    · exact .inr (.inr (.inr (.inl ⟨rfl, by cases h; rfl⟩)))

/-- What the core's turn can answer as a next state. -/
theorem State.turn_next {s t : State} (h : State.turn s = .next t) :
    (s.status.busy = false ∧ t = s)
      ∨ (s.status.busy = true ∧ (∃ e, decode s.latch.word = .error e) ∧ t = State.trap .illegal s)
      ∨ (s.status.busy = true ∧ ∃ i, decode s.latch.word = .ok i ∧ exec i s = .next t) := by
  unfold State.turn at h
  split at h
  · next hb =>
    split at h
    · next i hd => exact .inr (.inr ⟨hb, i, hd, h⟩)
    · next e hd => exact .inr (.inl ⟨hb, ⟨e, hd⟩, by cases h; rfl⟩)
  · next hb => exact .inl ⟨by simpa using hb, by cases h; rfl⟩

/-! ## Free values are used once -/

/-- The completion of a memory command does not bring a free value back. -/
theorem State.perform_freeCtr_le {j : Job} {s t : State} (h : State.perform j s = .next t) :
    s.freeCtr ≤ t.freeCtr := by
  rcases State.perform_next h with ⟨-, rfl⟩ | ⟨-, rfl⟩
  · rcases State.performRaced_cases j s with e | ⟨-, e⟩ | e <;> rw [e] <;>
      simp [State.busFault, State.succeed, State.bumped] <;> omega
  · rcases State.performQuiet_cases j s with e | ⟨-, e⟩ | ⟨ws, -, e⟩ <;> rw [e] <;>
      simp [State.busFault, State.succeed]

/-- The core's turn does not bring a free value back. -/
theorem State.turn_freeCtr_le {s t : State} (h : State.turn s = .next t) : s.freeCtr ≤ t.freeCtr := by
  rcases State.turn_next h with ⟨-, rfl⟩ | ⟨-, -, rfl⟩ | ⟨-, i, -, he⟩
  · exact Nat.le_refl _
  · simp
  · rcases exec_next he with ⟨e, -, rfl⟩ | ⟨-, j, -, hp⟩ | ⟨-, rfl⟩ | ⟨-, rfl⟩ | ⟨-, -, rfl⟩
    · simp
    · exact State.perform_freeCtr_le hp
    all_goals simp

/-- The completion that a host read looks ahead to draws its free values behind the read's own choices. -/
theorem State.afterTurn_freeCtr (s : State) : s.freeCtr + 3 ≤ (State.afterTurn s).freeCtr := by
  cases h : State.turn { s with freeCtr := s.freeCtr + 3 } with
  | next t => simpa [State.afterTurn, h] using State.turn_freeCtr_le h
  | _ => simp [State.afterTurn, h]

/-- What a host read of the write footprint in flight leaves of the free values: those behind the completion it
looked ahead to (log 28). -/
theorem State.hostLoad_freeCtr {s : State} {addr : Word} {size : BusSize} {k : Nat} (hk : k < size.bytes)
    (h : State.inWriteFootprint s (addr.toNat + k) = true) :
    (State.hostLoad s addr size).freeCtr = (State.afterTurn s).freeCtr := by
  unfold State.hostLoad
  refine if_pos ?_
  rw [List.any_eq_true]
  exact ⟨_, List.mem_map.mpr ⟨k, List.mem_range.mpr hk, rfl⟩, h⟩

/-- A host write either goes to a register or to backed data memory. -/
theorem State.hostWrite_next {s t : State} {addr : Word} {size : BusSize} {v : Word}
    (h : State.hostWrite s addr size v = .next t) :
    t = State.writeReg s (regAt (State.windowOffset s addr)) v
      ∨ (State.hostHole s addr size = none ∧ t = State.hostStore s addr size v) := by
  unfold State.hostWrite at h
  split at h
  · split at h
    · exact .inl (by cases h; rfl)
    · cases h
  · split at h
    · cases h
    · next hn => exact .inr ⟨hn, by cases h; rfl⟩

/-- A host read changes `rdata` and, where it made a free choice, the counter of free values. -/
theorem State.hostRead_next {s t : State} {addr : Word} {size : BusSize}
    (h : State.hostRead s addr size = .next t) : ∃ d c, t = { s with rdata := d, freeCtr := c } := by
  unfold State.hostRead at h
  split at h
  · split at h
    · exact ⟨_, s.freeCtr, by cases h; rfl⟩
    · cases h
  · split at h
    · cases h
    · exact ⟨_, _, by cases h; rfl⟩

/-- What a host write to a register can do: nothing, a reset, new `CTRL` bits, cleared flags, a launch, a raised
`OVR`, or new operand registers in an idle core. -/
theorem State.writeReg_cases (s : State) (r : Reg) (v : Word) :
    State.writeReg s r v = s
      ∨ State.writeReg s r v = State.resetCore s
      ∨ State.writeReg s r v = { s with ctrl := Ctrl.ofWord v }
      ∨ State.writeReg s r v = { s with status := Status.clearOnWrite s.status v }
      ∨ (s.status.busy = false ∧ s.status.err = false ∧ State.writeReg s r v = State.launch v s)
      ∨ State.writeReg s r v = State.overrun s
      ∨ (s.status.busy = false ∧ ∃ o, State.writeReg s r v = { s with regs := o }) := by
  unfold State.writeReg
  split
  · split
    · exact .inr (.inl rfl)
    · exact .inr (.inr (.inl rfl))
  · exact .inr (.inr (.inr (.inl rfl)))
  · split
    · exact .inr (.inr (.inr (.inr (.inr (.inl rfl)))))
    · next h =>
      simp only [Bool.or_eq_true, not_or, Bool.not_eq_true] at h
      exact .inr (.inr (.inr (.inr (.inl ⟨h.1, h.2, rfl⟩))))
  · split
    · exact .inl rfl
    · split
      · exact .inr (.inr (.inr (.inr (.inr (.inl rfl)))))
      · next o _ hb =>
        exact .inr (.inr (.inr (.inr (.inr (.inr ⟨by simpa using hb, o, rfl⟩)))))

/-- What a step can do: the core's turn, or one host or platform event. `u` is the state with the event
consumed. -/
theorem step_next {s t : State} (h : step s = .next t) :
    ∃ u, (u = s ∨ ∃ rest, u = { s with inbox := rest }) ∧
      (State.turn u = .next t
        ∨ (∃ addr size v, State.hostWrite u addr size v = .next t)
        ∨ (∃ addr size, State.hostRead u addr size = .next t)
        ∨ t = State.resetCore u
        ∨ ∃ addr, t = State.busErrorAt u addr) := by
  unfold step State.advance at h
  split at h
  · exact ⟨s, .inl rfl, .inl h⟩
  · next e rest _ =>
    refine ⟨{ s with inbox := rest }, .inr ⟨rest, rfl⟩, ?_⟩
    cases e with
    | write addr size v => exact .inr (.inl ⟨addr, size, v, h⟩)
    | read addr size => exact .inr (.inr (.inl ⟨addr, size, h⟩))
    | hardReset => exact .inr (.inr (.inr (.inl (by cases h; rfl))))
    | busError addr => exact .inr (.inr (.inr (.inr ⟨addr, by cases h; rfl⟩)))
    | coreTurn => exact .inl h

/-! ## Checks -/

/-- `firstFail` answers a code that stands in its list with a condition that holds. -/
theorem firstFail_some {l : List (Bool × ErrCode)} {e : ErrCode} (h : firstFail l = some e) : (true, e) ∈ l := by
  induction l with
  | nil => cases h
  | cons c rest ih =>
    obtain ⟨b, f⟩ := c
    unfold firstFail at h
    split at h
    · next hb => cases h; simp [hb]
    · exact List.mem_cons_of_mem _ (ih h)

/-- Every condition of a list that passes is false. -/
theorem firstFail_none {l : List (Bool × ErrCode)} : firstFail l = none ↔ ∀ c ∈ l, c.1 = false := by
  induction l with
  | nil => simp [firstFail]
  | cons c rest ih =>
    obtain ⟨b, f⟩ := c
    unfold firstFail
    cases b <;> simp [ih]

/-- The checked writes are the writes, each in range. -/
theorem checkedWrites_some {ws vs : List (Nat × Int)} (h : checkedWrites ws = some vs) :
    vs = ws ∧ ∀ w ∈ ws, s16ok w.2 = true := by
  unfold checkedWrites at h
  split at h
  · next ha => exact ⟨by cases h; rfl, by simpa [List.all_eq_true] using ha⟩
  · cases h

end Sys2Proof.Machine
end

