-- ==== Sys2Proof/Laws/Layout.lean ====
section
/-! SUPPORT. The layouts of data memory: which addresses an array occupies, that its elements are distinct, and
that an accessible region is not refused and does not start in the register window. -/

namespace Sys2Proof.Machine

/-! ## Arrays -/

theorem mem_cells {n x y : Nat} : (x, y) ∈ cells n ↔ x < n ∧ y < n := by
  simp [cells, and_comm]

theorem planeAddr_inj {b w x y x' y' : Nat} (hx : x < w) (hx' : x' < w)
    (h : planeAddr b w x y = planeAddr b w x' y') : x = x' ∧ y = y' := by
  have e : y * w + x = y' * w + x' := by unfold planeAddr at h; omega
  have hy : y = y' := by
    have h1 := congrArg (· / w) e
    have hw : 0 < w := by omega
    simpa [Nat.mul_comm _ w, Nat.mul_add_div hw, Nat.div_eq_of_lt hx, Nat.div_eq_of_lt hx'] using h1
  subst hy
  exact ⟨by omega, rfl⟩

theorem planeAddr_even {b w x y : Nat} (h : b % 2 = 0) : planeAddr b w x y % 2 = 0 := by
  unfold planeAddr; omega

theorem planeAddr_ge (b w x y : Nat) : b ≤ planeAddr b w x y := by
  unfold planeAddr; omega

/-- An element of a `w × h` array lies inside the `2 w h` bytes at its base. -/
theorem planeAddr_lt {b w h x y : Nat} (hx : x < w) (hy : y < h) : planeAddr b w x y + 2 ≤ b + 2 * w * h := by
  have h1 : (y + 1) * w ≤ h * w := Nat.mul_le_mul_right w hy
  have h2 : 2 * w * h = 2 * (h * w) := by ring
  have h3 : (y + 1) * w = y * w + w := by ring
  unfold planeAddr
  omega

theorem mem_planeAddrs {b m a : Nat} :
    a ∈ planeAddrs b m ↔ ∃ x y, x < m ∧ y < m ∧ a = planeAddr b m x y := by
  constructor
  · intro h
    obtain ⟨⟨x, y⟩, hc, rfl⟩ := List.mem_map.mp h
    exact ⟨x, y, (mem_cells.mp hc).1, (mem_cells.mp hc).2, rfl⟩
  · rintro ⟨x, y, hx, hy, rfl⟩
    exact List.mem_map.mpr ⟨(x, y), mem_cells.mpr ⟨hx, hy⟩, rfl⟩

theorem mem_planeWrites {b m a : Nat} {p : Plane} {v : Int} :
    (a, v) ∈ planeWrites b m p ↔ ∃ x y, x < m ∧ y < m ∧ a = planeAddr b m x y ∧ v = p x y := by
  constructor
  · intro h
    obtain ⟨⟨x, y⟩, hc, he⟩ := List.mem_map.mp h
    cases he
    exact ⟨x, y, (mem_cells.mp hc).1, (mem_cells.mp hc).2, rfl, rfl⟩
  · rintro ⟨x, y, hx, hy, rfl, rfl⟩
    exact List.mem_map.mpr ⟨(x, y), mem_cells.mpr ⟨hx, hy⟩, rfl⟩

/-- The offsets of a block that fall inside a plane (41_motion_search.md R142, 42_reconstruct.md R172). -/
theorem mem_spots {w h : Nat} {px py : Int} {n : Nat} {p : Spot} :
    p ∈ spots w h px py n ↔ p.i < n ∧ p.j < n ∧ inside w h (px + p.i) (py + p.j) = true
      ∧ p.x = (px + p.i).toNat ∧ p.y = (py + p.j).toNat := by
  unfold spots
  rw [List.mem_filterMap]
  constructor
  · rintro ⟨⟨i, j⟩, hc, he⟩
    obtain ⟨hi, hj⟩ := mem_cells.mp hc
    split at he
    · next hin => cases he; exact ⟨hi, hj, hin, rfl, rfl⟩
    · cases he
  · rintro ⟨hi, hj, hin, hx, hy⟩
    refine ⟨(p.i, p.j), mem_cells.mpr ⟨hi, hj⟩, ?_⟩
    obtain ⟨i, j, x, y⟩ := p
    simp only at hi hj hin hx hy ⊢
    rw [if_pos hin, hx, hy]

theorem inside_iff {w h : Nat} {x y : Int} :
    inside w h x y = true ↔ 0 ≤ x ∧ x < w ∧ 0 ≤ y ∧ y < h := by
  simp [inside, and_assoc]

/-- Where a spot lies: inside the plane. -/
theorem spot_bounds {w h : Nat} {px py : Int} {n : Nat} {p : Spot} (hp : p ∈ spots w h px py n) :
    p.x < w ∧ p.y < h := by
  obtain ⟨_, _, hin, hx, hy⟩ := mem_spots.mp hp
  obtain ⟨h1, h2, h3, h4⟩ := inside_iff.mp hin
  omega

/-- An element written by a bundle of three planes. -/
theorem mem_bundle3Writes {b n a : Nat} {y u v : Plane} {w : Int} :
    (a, w) ∈ bundle3Writes b n y u v ↔ (a, w) ∈ planeWrites b n y ∨ (a, w) ∈ planeWrites (bundleU b n) (n / 2) u
      ∨ (a, w) ∈ planeWrites (bundleV b n) (n / 2) v := by
  simp [bundle3Writes]

/-- An element written by a bundle of four planes. -/
theorem mem_bundle4Writes {b n c : Nat} {y u v a : Plane} {w : Int} :
    (c, w) ∈ bundle4Writes b n y u v a ↔ (c, w) ∈ bundle3Writes b n y u v ∨ (c, w) ∈ planeWrites (bundleA b n) n a := by
  simp [bundle4Writes]

/-! ## Access -/

theorem Region.overlaps_iff {r q : Region} :
    Region.overlaps r q = true ↔ ∃ k, k < r.bytes ∧ q.base ≤ r.base + k ∧ r.base + k < q.base + q.bytes := by
  unfold Region.overlaps
  rw [decide_eq_true_iff]
  constructor
  · intro h
    exact ⟨max r.base q.base - r.base, by omega, by omega, by omega⟩
  · rintro ⟨k, h1, h2, h3⟩
    omega

theorem Region.contains_iff {r : Region} {a : Nat} :
    Region.contains r a = true ↔ r.base ≤ a ∧ a < r.base + r.bytes := by
  simp [Region.contains]

theorem Params.backed_iff {p : Params} {a : Nat} :
    Params.backed p a = true ↔ a < 2 ^ 32 ∧ (∀ h ∈ p.holes, Region.contains h a = false)
      ∧ Region.contains (Params.window p) a = false := by
  simp [Params.backed, Params.memValid, and_assoc]

theorem Params.memValid_eq_false {p : Params} {a : Nat} :
    Params.memValid p a = false ↔ ∃ h ∈ p.holes, Region.contains h a = true := by
  simp [Params.memValid]

/-- An access is refused exactly if one of its bytes is: `MemValid` false, which it is in the register window, or a
bus error (20_memory.md R70, 60_exceptions.md R209). -/
theorem State.accessRefused_iff {s : State} {r : Region} :
    State.accessRefused s r = true ↔ State.refusesByte s r := by
  unfold State.accessRefused State.refusesByte State.windowByte
  simp only [Bool.or_eq_true, List.any_eq_true, Region.overlaps_iff, Params.memValid_eq_false, Region.contains_iff,
    Params.window]
  constructor
  · rintro ((⟨q, hq, k, hk, hc⟩ | ⟨k, hk, hc⟩) | ⟨a, ha, h1, h2⟩)
    · exact ⟨k, hk, .inl ⟨q, hq, hc⟩⟩
    · exact ⟨k, hk, .inr (.inl hc)⟩
    · exact ⟨a - r.base, by omega, .inr (.inr (by rwa [Nat.add_sub_cancel' h1]))⟩
  · rintro ⟨k, hk, ⟨q, hq, hc⟩ | hc | hc⟩
    · exact .inl (.inl ⟨q, hq, k, hk, hc⟩)
    · exact .inl (.inr ⟨k, hk, hc⟩)
    · exact .inr ⟨_, hc, by omega, by omega⟩

/-- An accessible region is not refused by the platform. -/
theorem State.accessRefused_of_canAccess {s : State} {r : Region} (h : State.CanAccess s r) :
    State.accessRefused s r = false := by
  rw [Bool.eq_false_iff]
  intro ho
  obtain ⟨k, hk, hr⟩ := State.accessRefused_iff.mp ho
  obtain ⟨hb, hn⟩ := h k hk
  obtain ⟨-, hh, hw⟩ := Params.backed_iff.mp hb
  rcases hr with hc | hc | hc
  · obtain ⟨q, hq, hc⟩ := Params.memValid_eq_false.mp hc
    rw [hh q hq] at hc; cases hc
  · have : Region.contains (Params.window s.cfg) (r.base + k) = true := Region.contains_iff.mpr hc
    rw [hw] at this; cases this
  · exact hn hc

/-- The base of an accessible region is not in the register window. -/
theorem State.baseInWindow_of_canAccess {s : State} {b : Word} {bytes : Nat}
    (h : State.CanAccess s (bufferRegion b bytes)) (hb : 0 < bytes) : State.baseInWindow s b = false :=
  (Params.backed_iff.mp (h 0 hb).1).2.2

/-- Part of an accessible region is accessible. -/
theorem State.CanAccess.mono {s : State} {r q : Region} (h : State.CanAccess s r) (h1 : r.base ≤ q.base)
    (h2 : q.base + q.bytes ≤ r.base + r.bytes) : State.CanAccess s q := by
  intro k hk
  have := h (q.base - r.base + k) (by omega)
  rwa [← Nat.add_assoc, Nat.add_sub_cancel' h1] at this

/-- A region with accessible bytes ends inside the address space. -/
theorem State.CanAccess.le {s : State} {r : Region} (h : State.CanAccess s r) (hb : 0 < r.bytes) :
    r.base + r.bytes ≤ 2 ^ 32 := by
  have := (Params.backed_iff.mp (h (r.bytes - 1) (by omega)).1).1
  omega

/-- An element of an accessible `w × h` array is accessible. -/
theorem State.CanAccess.elem {s : State} {b w h x y : Nat} (ha : State.CanAccess s ⟨b, 2 * w * h⟩) (hx : x < w)
    (hy : y < h) : State.CanAccess s (elemRegion (planeAddr b w x y)) :=
  ha.mono (planeAddr_ge b w x y) (planeAddr_lt hx hy)

/-! ## Base registers -/

theorem anyNull_eq_false {bs : List Word} : anyNull bs = false ↔ ∀ b ∈ bs, b ≠ 0 := by
  simp [anyNull]

theorem anyOdd_eq_false {bs : List Word} : anyOdd bs = false ↔ ∀ b ∈ bs, b.toNat % 2 = 0 := by
  simp [anyOdd]

theorem anyPastTop_eq_false {rs : List Region} :
    anyPastTop rs = false ↔ ∀ r ∈ rs, r.base + r.bytes ≤ 2 ^ 32 := by
  simp [anyPastTop]

/-- What `Resolve` answers: a valid slot, or the look-ahead raster (10_state.md R37). -/
theorem Latch.resolve_eq_some {l : Latch} {r : Raster} (h : Latch.resolve l = some r) :
    (1 ≤ l.regs.vRef.toInt ∧ l.regs.vRef.toInt ≤ 4 ∧ 4 - l.regs.vRef.toInt < (l.refs.count.toNat : Int)
        ∧ r = RefTable.slot l.refs (4 - l.regs.vRef.toInt).toNat)
      ∨ (l.regs.vRef.toInt = -1 ∧ l.laEn = true ∧ r = l.regs.la) := by
  unfold Latch.resolve at h
  simp only [] at h
  split at h
  · next hc => exact .inl ⟨hc.1, hc.2.1, hc.2.2, by cases h; rfl⟩
  · split at h
    · next hc => exact .inr ⟨hc.1, hc.2, by cases h; rfl⟩
    · cases h

end Sys2Proof.Machine
end

