-- ==== Sys2Proof/Laws/Commands.lean ====
section
/-! SUPPORT. How a command comes to its end: the fault of its first failed check, or its job's writes. -/

namespace Sys2Proof.Machine

/-! ## Checks -/

/-- A command whose check answers a code takes that fault (60_exceptions.md R212). -/
theorem exec_of_checkOf {i : Instr} {s : State} {e : ErrCode} (h : checkOf i s.latch = some e) :
    exec i s = .next (State.trap e s) := by
  cases i with
  | nop => cases h
  | refclr => cases h
  | refpush =>
    change (match checkRefpush s.latch with
      | some e => Host.Outcome.next (State.trap e s)
      | none => .next (State.finish { s with refs := RefTable.pushed s.latch.refs s.latch.regs.push })) = _
    change checkRefpush s.latch = _ at h
    rw [h]
  | _ => rw [exec_of_jobOf rfl, h, State.runCommand_some]

/-- Where the codes of a list rise, the first failed one is the least that fails. -/
theorem firstFail_least {l : List (Bool × ErrCode)} {e : ErrCode}
    (hs : (l.map Prod.snd).Pairwise fun a b => ErrCode.num a < ErrCode.num b) (he : (true, e) ∈ l)
    (hmin : ∀ f, ErrCode.num f < ErrCode.num e → (true, f) ∉ l) : firstFail l = some e := by
  induction l with
  | nil => cases he
  | cons c rest ih =>
    obtain ⟨b, g⟩ := c
    rw [List.map_cons, List.pairwise_cons] at hs
    unfold firstFail
    cases b with
    | false =>
      rw [if_neg (by simp)]
      refine ih hs.2 (by simpa using he) fun f hf hm => hmin f hf (by simp [hm])
    | true =>
      rw [if_pos rfl]
      rcases List.mem_cons.mp he with h | h
      · cases h; rfl
      · exact absurd (by simp : (true, g) ∈ (true, g) :: rest)
          (hmin g (hs.1 e (List.mem_map.mpr ⟨_, h, rfl⟩)))

/-- A check that cannot fail decides nothing. -/
theorem firstFail_skip (l m : List (Bool × ErrCode)) (e : ErrCode) :
    firstFail (l ++ (false, e) :: m) = firstFail (l ++ m) := by
  induction l with
  | nil => simp [firstFail]
  | cons c r ih => obtain ⟨b, f⟩ := c; cases b <;> simp [firstFail, ih]

theorem anyNull_iff {bs cs : List Word} (h : ∀ b, b ∈ cs ↔ b ∈ bs) : (∃ b ∈ cs, b = 0) ↔ anyNull bs = true := by
  simp [anyNull, h]

theorem anyOdd_iff {bs cs : List Word} (h : ∀ b, b ∈ cs ↔ b ∈ bs) :
    (∃ b ∈ cs, b.toNat % 2 = 1) ↔ anyOdd bs = true := by
  simp [anyOdd, h]

theorem anyPastTop_iff {bs cs : List Region} (h : ∀ b, b ∈ cs ↔ b ∈ bs) :
    (∃ r ∈ cs, 2 ^ 32 < r.base + r.bytes) ↔ anyPastTop bs = true := by
  simp [anyPastTop, h]

/-- `Resolve` fails exactly as `E_REF` says (10_state.md R37, 60_exceptions.md R206). -/
theorem Latch.resolve_isNone (l : Latch) : (Latch.resolve l).isNone = true ↔ refMissing l := by
  unfold Latch.resolve refMissing
  simp only []
  split
  · next h => simp; omega
  · split
    · next h => simp [h]
    · next h1 h2 =>
      simp only [Option.isNone_none, true_iff]
      by_cases h : l.regs.vRef.toInt = -1
      · refine .inr (.inr ⟨h, ?_⟩)
        cases hl : l.laEn
        · rfl
        · exact absurd ⟨h, hl⟩ h2
      · omega

theorem Latch.resolvedRegions_eq (l : Latch) :
    ((Latch.resolve l).map (Operands.rasterRegions l.regs)).getD [] = Latch.resolvedRegions l := by
  unfold Latch.resolvedRegions
  cases Latch.resolve l <;> rfl

theorem frameLegal_eq_false (o : Operands) :
    frameLegal o = false ↔ frameDimLegal o.frameW = false ∨ frameDimLegal o.frameH = false := by
  unfold frameLegal
  cases frameDimLegal o.frameW <;> simp

/-- The size check is the well-formedness of 30_encoding.md R92. -/
theorem blockSizeLegal_eq (sz : BitVec 4) : blockSizeLegal sz = Instr.blockSizeOk sz := rfl

/-- The table check is the well-formedness of 30_encoding.md R93. -/
theorem tableExists_eq (sz : BitVec 4) (t : QSel) : tableExists sz t = Instr.planePairOk sz t := by
  revert sz; cases t <;> decide

/-- A legal block size is one of the six (30_encoding.md R92). -/
theorem blockSize_cases {sz : BitVec 4} (h : Instr.blockSizeOk sz = true) :
    blockSize sz = 4 ∨ blockSize sz = 8 ∨ blockSize sz = 16 ∨ blockSize sz = 32 ∨ blockSize sz = 64
      ∨ blockSize sz = 128 := by
  revert h; revert sz; decide

/-- A legal transform size is one of the three (30_encoding.md R92). -/
theorem planeSize_cases {sz : BitVec 4} {t : QSel} (h : Instr.planePairOk sz t = true) :
    blockSize sz = 2 ∨ blockSize sz = 4 ∨ blockSize sz = 8 := by
  revert h; revert sz; cases t <;> decide

/-- A legal frame dimension (10_state.md R29). -/
theorem frameDimLegal_iff {d : Half} :
    frameDimLegal d = true ↔ d.toNat % 4 = 0 ∧ 4 ≤ d.toNat ∧ d.toNat ≤ 16384 := by
  simp [frameDimLegal, and_assoc]

/-! ## Success -/

/-- A quiet memory command whose checks pass and whose accesses are all possible succeeds with its writes. -/
theorem exec_succeeds {i : Instr} {s : State} {j : Job} {ws : List (Nat × Int)} (hj : jobOf i s = some j)
    (hc : checkOf i s.latch = none) (hq : s.raced = false) (hwin : State.OffWindow j s)
    (hr : ∀ r ∈ j.reads, State.CanAccess s r)
    (hf : ∀ a ∈ j.foot, State.CanAccess s (elemRegion a)) (hw : j.writes = some ws)
    (hs : ∀ w ∈ ws, w.1 ∈ j.foot) : exec i s = .next (State.succeed ws j.results s) := by
  rw [exec_of_jobOf hj, hc]
  exact State.runCommand_succeeds hq hwin
    (fun r h => State.accessRefused_of_canAccess (hr r h)) hw
    fun w h => State.accessRefused_of_canAccess (hf _ (hs w h))

/-- The plane of a legal frame at a legal base has a byte. -/
theorem Operands.rasterRegions_pos {o : Operands} {r : Raster} (hw : frameDimLegal o.frameW = true)
    (hh : frameDimLegal o.frameH = true) : ∀ p ∈ Operands.rasterRegions o r, 0 < p.bytes := by
  have h1 := frameDimLegal_iff.mp hw
  have h2 := frameDimLegal_iff.mp hh
  have hp : 0 < 2 * o.w * o.h := Nat.mul_pos (by unfold Operands.w; omega) (by unfold Operands.h; omega)
  have hc : 0 < 2 * (o.w / 2) * (o.h / 2) :=
    Nat.mul_pos (by unfold Operands.w; omega) (by unfold Operands.h; omega)
  intro p hm
  simp only [Operands.rasterRegions, List.mem_cons, List.not_mem_nil, or_false] at hm
  rcases hm with rfl | rfl | rfl
  · exact hp
  · exact hc
  · exact hc

/-- No base of a raster with memory behind its planes points into the register window. -/
theorem RasterReady.bases_offWindow {s : State} {r : Raster} (h : RasterReady s r)
    (hw : frameDimLegal s.latch.regs.frameW = true) (hh : frameDimLegal s.latch.regs.frameH = true) :
    ∀ b ∈ Raster.bases r, State.baseInWindow s b = false := by
  have hp := Operands.rasterRegions_pos (r := r) hw hh
  have ha := h.planes
  simp only [Operands.rasterRegions, List.forall_mem_cons, List.not_mem_nil, IsEmpty.forall_iff,
    implies_true, and_true] at hp ha
  intro b hb
  simp only [Raster.bases, List.mem_cons, List.not_mem_nil, or_false] at hb
  rcases hb with rfl | rfl | rfl
  · exact State.baseInWindow_of_canAccess ha.1 hp.1
  · exact State.baseInWindow_of_canAccess ha.2.1 hp.2.1
  · exact State.baseInWindow_of_canAccess ha.2.2 hp.2.2

/-- The base of a buffer with memory behind it does not point into the register window. -/
theorem BufferReady.base_offWindow {s : State} {b : Word} {bytes : Nat} (h : BufferReady s b bytes)
    (hb : 0 < bytes) : State.baseInWindow s b = false :=
  State.baseInWindow_of_canAccess h.bytes hb

/-- The base registers a job is judged by are those the rules of 20_memory.md R69 name, once `V_REF` resolves. -/
theorem mem_job_bases {i : Instr} {s : State} {j : Job} (hj : jobOf i s = some j) (hc : checkOf i s.latch = none)
    (b : Word) : b ∈ j.bases ↔ b ∈ accessBases i s.latch := by
  have href : ∀ l : List (Bool × ErrCode), firstFail l = none →
      ((Latch.resolve s.latch).isNone, ErrCode.ref) ∈ l →
      ∃ ra, Latch.resolve s.latch = some ra := fun l h hm => by
    have := firstFail_none.mp h _ hm
    cases hr : Latch.resolve s.latch with
    | none => rw [hr] at this; cases this
    | some ra => exact ⟨ra, rfl⟩
  cases i <;> simp only [jobOf, Option.some.injEq, reduceCtorEq] at hj <;> subst hj
  case extract sz r =>
    cases r with
    | ref =>
      obtain ⟨ra, hr⟩ := href _ hc (by simp [extractRaster])
      simp [jobExtract, accessBases, extractRaster, hr, Raster.bases]
      tauto
    | _ => simp [jobExtract, accessBases, extractRaster, Raster.bases]; tauto
  case cost sz a =>
    obtain ⟨ra, hr⟩ := href _ hc (by simp)
    simp [jobCost, accessBases, hr, Raster.bases]
  case resid sz =>
    obtain ⟨ra, hr⟩ := href _ hc (by simp)
    simp [jobResid, accessBases, hr, Raster.bases]
    tauto
  case mc sz =>
    obtain ⟨ra, hr⟩ := href _ hc (by simp)
    simp [jobMc, accessBases, hr, Raster.bases]
    tauto
  all_goals
    simp [jobFdctq, jobDqidct, jobPlane, jobXfwd, jobXinv, jobMsearch, jobIntra, jobDblk, accessBases, Raster.bases]

/-- A base register points into the register window, in the words of 20_memory.md R60. -/
theorem State.baseInWindow_iff {s : State} {b : Word} :
    State.baseInWindow s b = true ↔ s.windowByte b.toNat := Region.contains_iff

/-- The misplaced base registers, computed. -/
theorem State.baseMisplaced_iff {i : Instr} {s : State} :
    State.baseMisplaced i s ↔ (accessBases i s.latch).any (State.baseInWindow s) = true := by
  simp only [State.baseMisplaced, List.any_eq_true, State.baseInWindow_iff]

/-- A job is off the register window exactly if no base register is misplaced. -/
theorem State.offWindow_iff {i : Instr} {s : State} {j : Job} (hj : jobOf i s = some j)
    (hc : checkOf i s.latch = none) : State.OffWindow j s ↔ ¬ State.baseMisplaced i s := by
  unfold State.OffWindow State.baseMisplaced
  simp only [mem_job_bases hj hc, ← Bool.not_eq_true, State.baseInWindow_iff, not_exists, not_and]

/-- A quiet memory command whose checks pass and whose reads are all possible faults with `E_RANGE` if a result
does not pass `S16chk` (60_exceptions.md R211, R212). -/
theorem exec_out_of_range {i : Instr} {s : State} {j : Job} (hj : jobOf i s = some j)
    (hc : checkOf i s.latch = none) (hq : s.raced = false) (hr : ∀ r ∈ j.reads, State.accessRefused s r = false)
    (hwin : State.OffWindow j s) (hw : j.writes = none) : exec i s = .next (State.trap .range s) := by
  have h1 : j.reads.any (State.accessRefused s) = false := by
    rw [List.any_eq_false]; intro r hm; simp [hr r hm]
  rw [exec_of_jobOf hj, hc, State.runCommand_none, State.perform_of_offWindow hwin]
  simp [hq, State.performQuiet, h1, hw]

/-- A successful completion without result registers changes nothing but data memory and the completion flags. -/
theorem State.succeed_keep_completedFrom (ws : List (Nat × Int)) (s : State) :
    State.CompletedFrom s (State.succeed ws .keep s) := by
  constructor <;> rfl

/-- The checked writes of values that all pass `S16chk`. -/
theorem checkedWrites_of_all {ws : List (Nat × Int)} (h : ∀ w ∈ ws, s16ok w.2 = true) :
    checkedWrites ws = some ws := by
  unfold checkedWrites
  rw [if_pos (by rw [List.all_eq_true]; exact h)]

theorem checkedWrites_none {ws : List (Nat × Int)} (h : ∃ w ∈ ws, s16ok w.2 = false) : checkedWrites ws = none := by
  unfold checkedWrites
  rw [if_neg]
  rw [List.all_eq_true]
  obtain ⟨w, hm, hw⟩ := h
  intro hall
  rw [hall w hm] at hw
  cases hw

/-! ## The target that decides what MSEARCH reads -/

@[simp] theorem accessTarget_w (n : Nat) (s : State) (tr : Int × Raster) : (accessTarget n s tr).w = s.latch.regs.w := by
  unfold accessTarget; cases s.raced <;> rfl

@[simp] theorem accessTarget_h (n : Nat) (s : State) (tr : Int × Raster) : (accessTarget n s tr).h = s.latch.regs.h := by
  unfold accessTarget; cases s.raced <;> rfl

@[simp] theorem accessTarget_sx (n : Nat) (s : State) (tr : Int × Raster) :
    (accessTarget n s tr).sx = s.latch.regs.sx := by
  unfold accessTarget; cases s.raced <;> rfl

@[simp] theorem accessTarget_sy (n : Nat) (s : State) (tr : Int × Raster) :
    (accessTarget n s tr).sy = s.latch.regs.sy := by
  unfold accessTarget; cases s.raced <;> rfl

/-- A search that nobody raced with reads what it evaluates. -/
theorem accessTarget_quiet {n : Nat} {s : State} (h : s.raced = false) (tr : Int × Raster) :
    accessTarget n s tr = searchTarget n s.latch s.mem tr.2 := by
  simp [accessTarget, h]

end Sys2Proof.Machine
end

