-- ==== Sys2Proof/Laws/Footprint.lean ====
section
/-! SUPPORT. Every write of a command lies in its write footprint, and every footprint in the address space. -/

namespace Sys2Proof.Machine

/-! ## Layouts as sets of addresses -/

/-- An element of the coefficient list of a block of size at least 8 (20_memory.md R68). -/
theorem mem_listAddrs {b n a : Nat} (h4 : n ≠ 4) : a ∈ listAddrs b n ↔ ∃ tx ty, tx < n / 8 ∧ ty < n / 8 ∧
    (a ∈ planeAddrs (b + 192 * (ty * (n / 8) + tx)) 8
      ∨ a ∈ planeAddrs (b + 192 * (ty * (n / 8) + tx) + 128) 4
      ∨ a ∈ planeAddrs (b + 192 * (ty * (n / 8) + tx) + 160) 4) := by
  unfold listAddrs
  rw [if_neg h4, List.mem_flatMap]
  constructor
  · rintro ⟨⟨tx, ty⟩, hm, hh⟩
    obtain ⟨h1, h2⟩ := mem_cells.mp hm
    exact ⟨tx, ty, h1, h2, by simpa [subUnit, subIndex, or_assoc] using hh⟩
  · rintro ⟨tx, ty, h1, h2, hh⟩
    exact ⟨(tx, ty), mem_cells.mpr ⟨h1, h2⟩, by simpa [subUnit, subIndex, or_assoc] using hh⟩

/-- A write of the coefficient list of a block of size at least 8 (40_transform.md R124). -/
theorem mem_forwardWrites {p : Params} {b n a : Nat} {y u v : Plane} {w : Int} (h4 : n ≠ 4) :
    (a, w) ∈ forwardWrites p b n y u v ↔ ∃ tx ty, tx < n / 8 ∧ ty < n / 8 ∧
      ((a, w) ∈ planeWrites (b + 192 * (ty * (n / 8) + tx)) 8 (quant 8 (tableOf 8 p.ql8) (subPlane 8 tx ty y))
        ∨ (a, w) ∈ planeWrites (b + 192 * (ty * (n / 8) + tx) + 128) 4
          (quant 4 (tableOf 4 p.qc4) (subPlane 4 tx ty u))
        ∨ (a, w) ∈ planeWrites (b + 192 * (ty * (n / 8) + tx) + 160) 4
          (quant 4 (tableOf 4 p.qc4) (subPlane 4 tx ty v))) := by
  unfold forwardWrites
  rw [if_neg h4, List.mem_flatMap]
  constructor
  · rintro ⟨⟨tx, ty⟩, hm, hh⟩
    obtain ⟨h1, h2⟩ := mem_cells.mp hm
    exact ⟨tx, ty, h1, h2, by simpa [subUnit, subIndex, or_assoc] using hh⟩
  · rintro ⟨tx, ty, h1, h2, hh⟩
    exact ⟨(tx, ty), mem_cells.mpr ⟨h1, h2⟩, by simpa [subUnit, subIndex, or_assoc] using hh⟩

theorem mem_planeAddrs_of_mem_planeWrites {b m : Nat} {p : Plane} {w : Nat × Int} (h : w ∈ planeWrites b m p) :
    w.1 ∈ planeAddrs b m := by
  obtain ⟨a, v⟩ := w
  obtain ⟨x, y, hx, hy, ha, _⟩ := mem_planeWrites.mp h
  exact mem_planeAddrs.mpr ⟨x, y, hx, hy, ha⟩

theorem mem_bundle3Addrs_of_mem_bundle3Writes {b n : Nat} {y u v : Plane} {w : Nat × Int}
    (h : w ∈ bundle3Writes b n y u v) : w.1 ∈ bundle3Addrs b n := by
  unfold bundle3Writes at h
  unfold bundle3Addrs
  rw [List.mem_append, List.mem_append] at h ⊢
  rcases h with (h | h) | h
  · exact .inl (.inl (mem_planeAddrs_of_mem_planeWrites h))
  · exact .inl (.inr (mem_planeAddrs_of_mem_planeWrites h))
  · exact .inr (mem_planeAddrs_of_mem_planeWrites h)

theorem mem_listAddrs_of_mem_forwardWrites {p : Params} {b n : Nat} {y u v : Plane} {w : Nat × Int}
    (h : w ∈ forwardWrites p b n y u v) : w.1 ∈ listAddrs b n := by
  obtain ⟨a, w⟩ := w
  by_cases h4 : n = 4
  · subst h4
    simp only [forwardWrites, listAddrs, if_true, List.mem_append] at h ⊢
    rcases h with (h | h) | h
    · exact .inl (.inl (mem_planeAddrs_of_mem_planeWrites h))
    · exact .inl (.inr (mem_planeAddrs_of_mem_planeWrites h))
    · exact .inr (mem_planeAddrs_of_mem_planeWrites h)
  · obtain ⟨tx, ty, h1, h2, hh⟩ := (mem_forwardWrites h4).mp h
    refine (mem_listAddrs h4).mpr ⟨tx, ty, h1, h2, ?_⟩
    rcases hh with h | h | h
    · exact .inl (mem_planeAddrs_of_mem_planeWrites h)
    · exact .inr (.inl (mem_planeAddrs_of_mem_planeWrites h))
    · exact .inr (.inr (mem_planeAddrs_of_mem_planeWrites h))

theorem mem_blockAddrs_of_mem_blockWrites {o : Operands} {n : Nat} {y u v : Plane} {w : Nat × Int}
    (h : w ∈ blockWrites o n y u v) : w.1 ∈ blockFoot o n := by
  unfold blockWrites at h
  unfold blockFoot Operands.blockAddrs
  rw [List.mem_append, List.mem_append, List.mem_map, List.mem_map, List.mem_map] at h ⊢
  rcases h with (⟨p, hp, rfl⟩ | ⟨p, hp, rfl⟩) | ⟨p, hp, rfl⟩
  · exact .inl (.inl ⟨p, hp, rfl⟩)
  · exact .inl (.inr ⟨p, hp, rfl⟩)
  · exact .inr ⟨p, hp, rfl⟩

/-- A plane inside a region: where its elements lie. -/
theorem planeAddrs_in {b m a : Nat} (h : a ∈ planeAddrs b m) : b ≤ a ∧ a + 2 ≤ b + 2 * m ^ 2 ∧ a % 2 = b % 2 := by
  obtain ⟨x, y, hx, hy, rfl⟩ := mem_planeAddrs.mp h
  have h1 := planeAddr_lt (b := b) hx hy
  have h2 : 2 * m * m = 2 * m ^ 2 := by ring
  refine ⟨planeAddr_ge _ _ _ _, by omega, ?_⟩
  unfold planeAddr
  omega

theorem blockSize_even {sz : BitVec 4} (h : Instr.blockSizeOk sz = true) :
    ∃ k, blockSize sz = 2 * k ∧ blockSize sz / 2 = k := by
  rcases blockSize_cases h with h | h | h | h | h | h <;> rw [h] <;> exact ⟨_, by norm_num, rfl⟩

/-- Where the elements of a Bundle3 lie: in its `3 N²` bytes (20_memory.md R66). -/
theorem bundle3Addrs_in {b a : Nat} {sz : BitVec 4} (hsz : Instr.blockSizeOk sz = true)
    (h : a ∈ bundle3Addrs b (blockSize sz)) : b ≤ a ∧ a + 2 ≤ b + 3 * blockSize sz ^ 2 ∧ a % 2 = b % 2 := by
  obtain ⟨k, hk, hk2⟩ := blockSize_even hsz
  unfold bundle3Addrs bundleU bundleV at h
  rw [List.mem_append, List.mem_append, hk2, hk] at h
  rw [hk]
  have e : (2 * k) ^ 2 = 4 * k ^ 2 := by ring
  rw [e] at h ⊢
  rcases h with (h | h) | h
  · have := planeAddrs_in h
    rw [e] at this
    omega
  · have := planeAddrs_in h
    omega
  · have := planeAddrs_in h
    omega

/-- Where the elements of a Bundle4 lie: in its `5 N²` bytes (20_memory.md R67). -/
theorem bundle4Addrs_in {b a : Nat} {sz : BitVec 4} (hsz : Instr.blockSizeOk sz = true)
    (h : a ∈ bundle4Addrs b (blockSize sz)) : b ≤ a ∧ a + 2 ≤ b + 5 * blockSize sz ^ 2 ∧ a % 2 = b % 2 := by
  unfold bundle4Addrs at h
  rcases List.mem_append.mp h with h | h
  · have := bundle3Addrs_in hsz h
    omega
  · obtain ⟨k, hk, _⟩ := blockSize_even hsz
    have := planeAddrs_in h
    unfold bundleA at this
    have e : (2 * k) ^ 2 = 4 * k ^ 2 := by ring
    rw [hk, e] at this ⊢
    omega

/-- A block of size at least 8 is a whole number of sub-units (40_transform.md R123). -/
theorem blockSize_eighth {sz : BitVec 4} (h : Instr.blockSizeOk sz = true) (h4 : blockSize sz ≠ 4) :
    8 * (blockSize sz / 8) = blockSize sz ∧ 4 * (blockSize sz / 8) = blockSize sz / 2 := by
  rcases blockSize_cases h with h | h | h | h | h | h <;> rw [h] at h4 ⊢ <;> simp at h4 ⊢

/-- Where the elements of a coefficient list lie: in its `3 N²` bytes (20_memory.md R68). -/
theorem listAddrs_in {b a : Nat} {sz : BitVec 4} (hsz : Instr.blockSizeOk sz = true)
    (h : a ∈ listAddrs b (blockSize sz)) : b ≤ a ∧ a + 2 ≤ b + 3 * blockSize sz ^ 2 ∧ a % 2 = b % 2 := by
  by_cases h4 : blockSize sz = 4
  · rw [h4] at h ⊢
    simp only [listAddrs, if_true, List.mem_append] at h
    rcases h with (h | h) | h
    all_goals
      have := planeAddrs_in h
      norm_num at this ⊢
      omega
  · obtain ⟨tx, ty, h1, h2, hh⟩ := (mem_listAddrs h4).mp h
    have hs := (blockSize_eighth hsz h4).1
    generalize blockSize sz / 8 = k at *
    have ht : ty * k + tx < k * k := by
      have : (ty + 1) * k ≤ k * k := Nat.mul_le_mul_right k h2
      have e : (ty + 1) * k = ty * k + k := by ring
      omega
    have h3 : 3 * blockSize sz ^ 2 = 192 * (k * k) := by rw [← hs]; ring
    rw [h3]
    rcases hh with h | h | h
    all_goals
      have := planeAddrs_in h
      norm_num at this
      omega

/-- The elements under a block lie in the three planes of the raster (41_motion_search.md R142,
42_reconstruct.md R172). -/
theorem blockAddrs_in {o : Operands} {r : Raster} {px py : Int} {n a : Nat} (h : a ∈ o.blockAddrs r px py n) :
    ∃ p ∈ Operands.rasterRegions o r, p.base ≤ a ∧ a + 2 ≤ p.base + p.bytes ∧ a % 2 = p.base % 2 := by
  unfold Operands.blockAddrs at h
  rw [List.mem_append, List.mem_append, List.mem_map, List.mem_map, List.mem_map] at h
  rcases h with (⟨p, hp, rfl⟩ | ⟨p, hp, rfl⟩) | ⟨p, hp, rfl⟩
  · obtain ⟨hx, hy⟩ := spot_bounds hp
    refine ⟨_, by simp [Operands.rasterRegions]; exact .inl rfl, planeAddr_ge _ _ _ _, planeAddr_lt hx hy, ?_⟩
    unfold Operands.yAddr planeAddr
    simp only []
    omega
  · obtain ⟨hx, hy⟩ := spot_bounds hp
    refine ⟨_, by simp [Operands.rasterRegions]; exact .inr (.inl rfl), planeAddr_ge _ _ _ _, planeAddr_lt hx hy, ?_⟩
    unfold Operands.uAddr planeAddr
    simp only []
    omega
  · obtain ⟨hx, hy⟩ := spot_bounds hp
    refine ⟨_, by simp [Operands.rasterRegions]; exact .inr (.inr rfl), planeAddr_ge _ _ _ _, planeAddr_lt hx hy, ?_⟩
    unfold Operands.vAddr planeAddr
    simp only []
    omega

theorem mem_inRange {d n k : Nat} {t : Int} : k ∈ inRange d t n ↔ k < d ∧ t ≤ k ∧ (k : Int) < t + n := by
  unfold inRange
  rw [List.mem_filterMap]
  constructor
  · rintro ⟨i, hi, he⟩
    rw [List.mem_range] at hi
    split at he
    · cases he; omega
    · cases he
  · rintro ⟨h1, h2, h3⟩
    refine ⟨(k - t).toNat, by rw [List.mem_range]; omega, ?_⟩
    rw [if_pos (by omega)]
    congr 1
    omega

/-- The rows of the left edge (43_deblock.md R193). -/
theorem mem_leftRows {o : Operands} {n y : Nat} : y ∈ leftRows o n ↔
    0 < o.sy ∧ 3 ≤ o.sx ∧ o.sx + 2 < o.w ∧ y < o.h ∧ o.sy ≤ y ∧ (y : Int) < o.sy + n := by
  unfold leftRows offEdge
  split
  · next h =>
    rw [mem_inRange]
    simp only [Bool.and_eq_true, decide_eq_true_eq] at h
    omega
  · next h =>
    simp only [Bool.and_eq_true, decide_eq_true_eq] at h
    simp only [List.not_mem_nil, false_iff]
    omega

/-- The columns of the top edge (43_deblock.md R193). -/
theorem mem_topCols {o : Operands} {n x : Nat} : x ∈ topCols o n ↔
    0 < o.sx ∧ 3 ≤ o.sy ∧ o.sy + 2 < o.h ∧ x < o.w ∧ o.sx ≤ x ∧ (x : Int) < o.sx + n := by
  unfold topCols offEdge
  split
  · next h =>
    rw [mem_inRange]
    simp only [Bool.and_eq_true, decide_eq_true_eq] at h
    omega
  · next h =>
    simp only [Bool.and_eq_true, decide_eq_true_eq] at h
    simp only [List.not_mem_nil, false_iff]
    omega

/-- Every sample a DBLK command can write is inside the frame (43_deblock.md R193). -/
theorem deblockSamples_inside {o : Operands} {n : Nat} {c : Nat × Nat} (h : c ∈ deblockSamples o n) :
    c.1 < o.w ∧ c.2 < o.h := by
  unfold deblockSamples at h
  rcases List.mem_append.mp h with h | h
  · obtain ⟨y, hy, hc⟩ := List.mem_flatMap.mp h
    obtain ⟨_, h1, h2, h3, _, _⟩ := mem_leftRows.mp hy
    simp only [List.mem_cons, List.not_mem_nil, or_false] at hc
    rcases hc with rfl | rfl | rfl | rfl <;> simp only <;> omega
  · obtain ⟨x, hx, hc⟩ := List.mem_flatMap.mp (List.mem_of_mem_filter h)
    obtain ⟨_, h1, h2, h3, _, _⟩ := mem_topCols.mp hx
    simp only [List.mem_cons, List.not_mem_nil, or_false] at hc
    rcases hc with rfl | rfl | rfl | rfl <;> simp only <;> omega

/-! ## Writes lie in footprints, footprints in the address space -/

/-- Every write of a command lies in its write footprint (20_memory.md R63, R69). -/
theorem Job.writes_in_foot {i : Instr} {s : State} {j : Job} {ws : List (Nat × Int)} (hj : jobOf i s = some j)
    (hw : j.writes = some ws) : ∀ w ∈ ws, w.1 ∈ j.foot := by
  cases i <;> simp only [jobOf, Option.some.injEq, reduceCtorEq] at hj <;> subst hj
  case fdctq sz t =>
    obtain ⟨rfl, _⟩ := checkedWrites_some hw
    exact fun w h => mem_planeAddrs_of_mem_planeWrites h
  case dqidct sz t =>
    obtain ⟨rfl, _⟩ := checkedWrites_some hw
    exact fun w h => mem_planeAddrs_of_mem_planeWrites h
  case xfwd sz =>
    obtain ⟨rfl, _⟩ := checkedWrites_some hw
    exact fun w h => mem_listAddrs_of_mem_forwardWrites h
  case xinv sz =>
    obtain ⟨rfl, _⟩ := checkedWrites_some hw
    exact fun w h => mem_bundle3Addrs_of_mem_bundle3Writes h
  case extract sz r =>
    cases hw
    intro w h
    unfold bundle4Writes at h
    change w.1 ∈ bundle4Addrs _ _
    unfold bundle4Addrs
    rw [List.mem_append] at h ⊢
    exact h.imp mem_bundle3Addrs_of_mem_bundle3Writes mem_planeAddrs_of_mem_planeWrites
  case cost sz a => cases hw; simp
  case msearch sz => cases hw; simp
  case resid sz =>
    obtain ⟨rfl, _⟩ := checkedWrites_some hw
    exact fun w h => mem_bundle3Addrs_of_mem_bundle3Writes h
  case mc sz =>
    simp only [jobMc] at hw
    split at hw
    · cases hw; exact fun w h => mem_blockAddrs_of_mem_blockWrites h
    · cases hw
  case intra sz => cases hw; exact fun w h => mem_blockAddrs_of_mem_blockWrites h
  case dblk sz =>
    obtain ⟨p, _, rfl⟩ := Option.map_eq_some_iff.mp hw
    intro w h
    obtain ⟨c, hc, he⟩ := List.mem_filterMap.mp h
    split at he
    · cases he
    · cases he; exact List.mem_map.mpr ⟨c, hc, rfl⟩

/-- The free values of a raced command go to its write footprint (20_memory.md R77). -/
theorem freeWrites_in_foot (l : List Nat) : ∀ (c : Nat), ∀ w ∈ freeWrites c l, w.1 ∈ l := by
  induction l with
  | nil => intro c w h; cases h
  | cons a r ih =>
    intro c w h
    rcases List.mem_cons.mp h with rfl | h
    · simp
    · simp [ih _ _ h]

theorem region_le_of_check {l : List (Bool × ErrCode)} {rs : List Region} {r : Region} {e : ErrCode}
    (h : firstFail l = none) (hm : (anyPastTop rs, e) ∈ l) (hr : r ∈ rs) : r.base + r.bytes ≤ 2 ^ 32 :=
  anyPastTop_eq_false.mp (firstFail_none.mp h _ hm) r hr

/-- The write footprint of a command whose checks pass lies in the address space (20_memory.md R70). -/
theorem Job.foot_bounded {i : Instr} {s : State} {j : Job} (hj : jobOf i s = some j)
    (hc : checkOf i s.latch = none) : ∀ a ∈ j.foot, a + 2 ≤ 2 ^ 32 := by
  have hsize : ∀ {sz : BitVec 4} {l : List (Bool × ErrCode)}, firstFail ((!blockSizeLegal sz, .size) :: l) = none →
      Instr.blockSizeOk sz = true := by
    intro sz l h
    have := firstFail_none.mp h _ (List.mem_cons_self ..)
    simpa [blockSizeLegal_eq] using this
  cases i <;> simp only [jobOf, Option.some.injEq, reduceCtorEq] at hj <;> subst hj
  case fdctq sz t =>
    intro a ha
    have := planeAddrs_in ha
    have h := region_le_of_check hc (.tail _ (.tail _ (.tail _ (.head _))))
      (List.mem_cons_of_mem _ (List.mem_cons_self ..))
    simp only [bufferRegion] at h
    omega
  case dqidct sz t =>
    intro a ha
    have := planeAddrs_in ha
    have h := region_le_of_check hc (.tail _ (.tail _ (.tail _ (.head _))))
      (List.mem_cons_of_mem _ (List.mem_cons_self ..))
    simp only [bufferRegion] at h
    omega
  case xfwd sz =>
    intro a ha
    have := listAddrs_in (hsize hc) ha
    have h := region_le_of_check hc (.tail _ (.tail _ (.tail _ (.head _))))
      (List.mem_cons_of_mem _ (List.mem_cons_self ..))
    simp only [bufferRegion] at h
    omega
  case xinv sz =>
    intro a ha
    have := bundle3Addrs_in (hsize hc) ha
    have h := region_le_of_check hc (.tail _ (.tail _ (.tail _ (.head _))))
      (List.mem_cons_of_mem _ (List.mem_cons_self ..))
    simp only [bufferRegion] at h
    omega
  case extract sz r =>
    intro a ha
    have := bundle4Addrs_in (hsize hc) ha
    have h := region_le_of_check hc (.tail _ (.tail _ (.tail _ (.tail _ (.tail _ (.head _))))))
      (List.mem_append_right _ (List.mem_cons_self ..))
    simp only [bufferRegion] at h
    omega
  case cost sz a => intro a ha; cases ha
  case msearch sz => intro a ha; cases ha
  case resid sz =>
    intro a ha
    have := bundle3Addrs_in (hsize hc) ha
    have h := region_le_of_check hc (.tail _ (.tail _ (.tail _ (.tail _ (.tail _ (.head _))))))
      (List.mem_append_right _ (List.mem_cons_self ..))
    simp only [bufferRegion] at h
    omega
  case mc sz =>
    intro a ha
    obtain ⟨p, hp, h1, h2, _⟩ := blockAddrs_in ha
    have h := region_le_of_check hc (.tail _ (.tail _ (.tail _ (.tail _ (.tail _ (.head _))))))
      (List.mem_append_left _ (List.mem_append_left _ hp))
    omega
  case intra sz =>
    intro a ha
    obtain ⟨p, hp, h1, h2, _⟩ := blockAddrs_in ha
    have h := region_le_of_check hc (.tail _ (.tail _ (.tail _ (.tail _ (.head _))))) (List.mem_append_left _ hp)
    omega
  case dblk sz =>
    intro a ha
    obtain ⟨c, hcm, rfl⟩ := List.mem_map.mp ha
    obtain ⟨hx, hy⟩ := deblockSamples_inside hcm
    have h := region_le_of_check hc (.tail _ (.tail _ (.tail _ (.tail _ (.head _))))) (List.mem_cons_self ..)
    have := planeAddr_lt (b := s.latch.regs.comp.y.toNat) hx hy
    simp only at h
    omega

end Sys2Proof.Machine
end

