-- ==== Sys2Proof/Laws/PerInstr.lean ====
section
/-! SUPPORT. Statements made per instruction: one family, one lemma for each constructor of Instr. -/

namespace Sys2Proof.Laws

/-- The word the encoder writes passes every field condition of 60_exceptions.md R201: its opcode is assigned,
its reserved bits are 0 and each field the command does not use is 0. -/
def EncodesLegalWord.Statement (i : Instr) : Prop :=
  Machine.illegalWord (encode i).toNat = false

theorem EncodesLegalWord.nop : EncodesLegalWord.Statement .nop := rfl

theorem EncodesLegalWord.fdctq (sz : BitVec 4) (t : QSel) : EncodesLegalWord.Statement (.fdctq sz t) := by
  revert sz; cases t <;> unfold EncodesLegalWord.Statement <;> decide

theorem EncodesLegalWord.dqidct (sz : BitVec 4) (t : QSel) : EncodesLegalWord.Statement (.dqidct sz t) := by
  revert sz; cases t <;> unfold EncodesLegalWord.Statement <;> decide

theorem EncodesLegalWord.xfwd (sz : BitVec 4) : EncodesLegalWord.Statement (.xfwd sz) := by
  revert sz; unfold EncodesLegalWord.Statement; decide

theorem EncodesLegalWord.xinv (sz : BitVec 4) : EncodesLegalWord.Statement (.xinv sz) := by
  revert sz; unfold EncodesLegalWord.Statement; decide

theorem EncodesLegalWord.extract (sz : BitVec 4) (r : RSel) : EncodesLegalWord.Statement (.extract sz r) := by
  revert sz; cases r <;> unfold EncodesLegalWord.Statement <;> decide

theorem EncodesLegalWord.cost (sz : BitVec 4) (alpha : Bool) :
    EncodesLegalWord.Statement (.cost sz alpha) := by
  revert sz; cases alpha <;> unfold EncodesLegalWord.Statement <;> decide

theorem EncodesLegalWord.msearch (sz : BitVec 4) : EncodesLegalWord.Statement (.msearch sz) := by
  revert sz; unfold EncodesLegalWord.Statement; decide

theorem EncodesLegalWord.resid (sz : BitVec 4) : EncodesLegalWord.Statement (.resid sz) := by
  revert sz; unfold EncodesLegalWord.Statement; decide

theorem EncodesLegalWord.mc (sz : BitVec 4) : EncodesLegalWord.Statement (.mc sz) := by
  revert sz; unfold EncodesLegalWord.Statement; decide

theorem EncodesLegalWord.intra (sz : BitVec 4) : EncodesLegalWord.Statement (.intra sz) := by
  revert sz; unfold EncodesLegalWord.Statement; decide

theorem EncodesLegalWord.dblk (sz : BitVec 4) : EncodesLegalWord.Statement (.dblk sz) := by
  revert sz; unfold EncodesLegalWord.Statement; decide

theorem EncodesLegalWord.refpush : EncodesLegalWord.Statement .refpush := rfl

theorem EncodesLegalWord.refclr : EncodesLegalWord.Statement .refclr := rfl

end Sys2Proof.Laws
end

