-- ==== Sys2Proof/Laws/Window.lean ====
section
/-! SUPPORT. The host's accesses, as steps: which register an offset of the window reaches, and what an access to
data memory answers. -/

namespace Sys2Proof.Machine

/-- A step handles the event that is next. -/
theorem step_given (s : State) (e : HostEvent) : step (State.given s e) = State.event s e := rfl

theorem Params.legal_regBase {p : Params} (h : p.legal = true) : p.regBase.toNat % 4096 = 0 := by
  simp only [Params.legal, Bool.and_eq_true, beq_iff_eq] at h
  exact h.2

theorem State.regAddr_toNat {s : State} {off : Nat} (h : s.cfg.legal = true) (ho : off < 4096) :
    (State.regAddr s off).toNat = s.cfg.regBase.toNat + off := by
  have h1 := Params.legal_regBase h
  have h2 := s.cfg.regBase.isLt
  unfold State.regAddr
  rw [BitVec.toNat_add, BitVec.toNat_ofNat]
  omega

theorem State.windowOffset_regAddr {s : State} {off : Nat} (h : s.cfg.legal = true) (ho : off < 4096) :
    State.windowOffset s (State.regAddr s off) = off := by
  unfold State.windowOffset
  rw [State.regAddr_toNat h ho]
  omega

theorem State.touchesWindow_regAddr {s : State} {off : Nat} (size : BusSize) (h : s.cfg.legal = true)
    (ho : off < 4096) : State.touchesWindow s (State.regAddr s off) size = true := by
  unfold State.touchesWindow
  rw [Region.overlaps_iff]
  refine ⟨0, ?_, ?_, ?_⟩
  · cases size <;> simp [busRegion, BusSize.bytes]
  · simp only [busRegion, Params.window, State.regAddr_toNat h ho]; omega
  · simp only [busRegion, Params.window, State.regAddr_toNat h ho]; omega

theorem State.windowAccessOk_regAddr {s : State} {off : Nat} (h : s.cfg.legal = true) (ho : off < 4096)
    (h4 : off % 4 = 0) : windowAccessOk (State.regAddr s off) .word = true := by
  have h1 := Params.legal_regBase h
  unfold windowAccessOk
  rw [State.regAddr_toNat h ho]
  simp
  omega

/-- An aligned 32-bit write at an offset of the window writes the register there (10_state.md R23). -/
theorem step_hostWrites {s : State} {off : Nat} (v : Word) (h : s.cfg.legal = true) (ho : off < 4096)
    (h4 : off % 4 = 0) : step (State.hostWrites s off v) = .next (State.writeReg s (regAt off) v) := by
  unfold State.hostWrites
  rw [step_given]
  change State.hostWrite s (State.regAddr s off) .word v = _
  unfold State.hostWrite
  rw [State.touchesWindow_regAddr .word h ho, State.windowAccessOk_regAddr h ho h4, State.windowOffset_regAddr h ho]
  rfl

/-- An aligned 32-bit read at an offset of the window reads the register there, and does nothing else
(10_state.md R23). -/
theorem step_hostReads {s : State} {off : Nat} (h : s.cfg.legal = true) (ho : off < 4096) (h4 : off % 4 = 0) :
    step (State.hostReads s off) = .next { s with rdata := State.readReg s (regAt off) } := by
  unfold State.hostReads
  rw [step_given]
  change State.hostRead s (State.regAddr s off) .word = _
  unfold State.hostRead
  rw [State.touchesWindow_regAddr .word h ho, State.windowAccessOk_regAddr h ho h4, State.windowOffset_regAddr h ho]
  rfl

/-- A data access of the host with every byte backed stays outside the window and meets no hole. -/
theorem State.host_backed {s : State} {addr : Word} {size : BusSize}
    (h : ∀ k, k < size.bytes → Params.backed s.cfg (addr.toNat + k) = true) :
    State.touchesWindow s addr size = false ∧ State.hostHole s addr size = none := by
  constructor
  · unfold State.touchesWindow
    rw [Bool.eq_false_iff]
    intro ho
    obtain ⟨k, hk, h1, h2⟩ := Region.overlaps_iff.mp ho
    have := (Params.backed_iff.mp (h k hk)).2.2
    exact Bool.noConfusion (this.symm.trans (Region.contains_iff.mpr ⟨h1, h2⟩))
  · unfold State.hostHole
    rw [List.find?_eq_none]
    intro a ha
    obtain ⟨k, hk, rfl⟩ := List.mem_map.mp ha
    rw [List.mem_range] at hk
    simp [h k hk]

/-- A host write to backed data memory (20_memory.md R60). -/
theorem step_hostStore {s : State} {addr : Word} {size : BusSize} (v : Word)
    (h : ∀ k, k < size.bytes → Params.backed s.cfg (addr.toNat + k) = true) :
    step (State.given s (.write addr size v)) = .next (State.hostStore s addr size v) := by
  obtain ⟨h1, h2⟩ := State.host_backed h
  rw [step_given]
  change State.hostWrite s addr size v = _
  unfold State.hostWrite
  rw [h1, h2]
  rfl

/-- A host read of backed data memory (20_memory.md R60). -/
theorem step_hostLoad {s : State} {addr : Word} {size : BusSize}
    (h : ∀ k, k < size.bytes → Params.backed s.cfg (addr.toNat + k) = true) :
    step (State.given s (.read addr size)) = .next (State.hostLoad s addr size) := by
  obtain ⟨h1, h2⟩ := State.host_backed h
  rw [step_given]
  change State.hostRead s addr size = _
  unfold State.hostRead
  rw [h1, h2]
  rfl

/-- Byte `i` of a stored word stands `i` bytes above its address (20_memory.md R61). -/
theorem Memory.byte_storeBytes : ∀ (n : Nat) (a : Nat) (v : Word) (m : Memory) (i : Nat), i < n →
    Memory.byte (Memory.storeBytes m a n v) (a + i) = v.extractLsb' (8 * i) 8 := by
  intro n
  induction n with
  | zero => intro a v m i hi; omega
  | succ k ih =>
    intro a v m i hi
    unfold Memory.storeBytes
    cases i with
    | zero =>
      rw [Memory.byte_storeBytes_of_not_mem _ _ _ _ (by omega), Nat.add_zero, Memory.byte_setByte_self]
    | succ i =>
      rw [show a + (i + 1) = a + 1 + i by omega, ih _ _ _ _ (by omega)]
      ext j hj
      simp only [BitVec.getElem_extractLsb', BitVec.getLsbD_ushiftRight]
      congr 1
      omega

end Sys2Proof.Machine
end

