-- ==== Sys2Proof/Tests/Slice0.lean ====
section
/-! SUPPORT. Our own tests: small steps with results taken from 95_test_vectors.md (the vector is named), and for
every statement with hypotheses a state that meets them. -/

namespace Sys2Proof.Tests

open Sys2Proof Sys2Proof.Machine

-- One theorem at a time: each of the kernel evaluations below would else hold a thread of its own.
set_option Elab.async false

/-! ## Small states, all on the example parameters of 95_test_vectors.md section 0 -/

/-- Elements in memory from an address on. -/
def elems : Nat → List Int → Memory
  | _, [] => []
  | a, v :: rest =>
    (a, (BitVec.ofInt 16 v).extractLsb' 0 8) :: (a + 1, (BitVec.ofInt 16 v).extractLsb' 8 8) :: elems (a + 2) rest

/-- The first luma rows of an 8 × 8 raster at a base, and their chroma, as 95_test_vectors.md lays them out: luma,
then U at 0x80, V at 0xA0. -/
def raster8 (base rows : Nat) (y u v : Nat → Nat → Int) : Memory :=
  elems base (((cells 8).take (8 * rows)).map fun c => y c.1 c.2)
    ++ elems (base + 0x80) (((cells 4).take (2 * rows)).map fun c => u c.1 c.2)
    ++ elems (base + 0xA0) (((cells 4).take (2 * rows)).map fun c => v c.1 c.2)

/-- Raster T of 95_test_vectors.md section 0. -/
def rasterT (base rows : Nat) : Memory :=
  raster8 base rows (fun x y => 10 * y + x) (fun x y => 100 + 4 * y + x) (fun x y => 200 - (4 * y + x))

/-- Raster T2 of 95_test_vectors.md section 0. -/
def rasterT2 (base rows : Nat) : Memory :=
  raster8 base rows (fun x y => 10 * y + x + 1) (fun x y => 100 + 4 * y + x)
    (fun x y => 200 - (4 * y + x) + if x = 1 ∧ y = 0 then 2 else 0)

/-- The three planes of a raster at a base. -/
def planesAt (base : Nat) : Raster :=
  ⟨BitVec.ofNat 32 base, BitVec.ofNat 32 (base + 0x80), BitVec.ofNat 32 (base + 0xA0)⟩

/-- The registers most tests use: an 8 × 8 frame, CUR at 0x1000, the look-ahead at 0x2000, COMP at 0x3000,
`SRC` 0x4000, `DST` 0x5000, the raster to push at 0x2000, `V_REF` 4, strength 2. -/
def regs8 : Operands where
  frameW := 8
  frameH := 8
  cur := planesAt 0x1000
  comp := planesAt 0x3000
  la := planesAt 0x2000
  push := planesAt 0x2000
  vPosX := 0
  vPosY := 0
  vSpanX := 0
  vSpanY := 0
  vRef := 4
  src := 0x4000
  dst := 0x5000
  tY := 1
  tC := 2
  dbkStrength := 2

/-- The same registers with the searched block and the vector's span somewhere else. -/
def at8 (x y sx sy : Int) : Operands :=
  { regs8 with
    vPosX := BitVec.ofInt 16 x
    vPosY := BitVec.ofInt 16 y
    vSpanX := BitVec.ofInt 16 sx
    vSpanY := BitVec.ofInt 16 sy }

/-- One reference, at 0x2000. -/
def oneRef : RefTable := { RefTable.empty with slot0 := planesAt 0x2000, count := 1 }

/-- A core out of reset with a command in flight. -/
def inFlight (w : Word) (laEn : Bool) (o : Operands) (t : RefTable) (m : Memory) : State :=
  { State.powerOn Params.tc1 with
    ctrl := ⟨false, false, laEn⟩
    status := ⟨true, false, false, false, false⟩
    cmd := w
    regs := o
    refs := t
    latch := ⟨w, laEn, o, t⟩
    mem := m }

/-- The state a step ends in. -/
def ended (s : State) : Host.Outcome State Fault Refusal → State
  | .next t => t
  | _ => s

/-- What `STATUS` and `ERRCODE` read after one step. -/
def flags (s : State) : Nat × Nat :=
  match step s with
  | .next t => ((Status.toWord t.status).toNat, errCodeNum t.errCode)
  | _ => (0, 0)

/-- The elements that one step leaves at an address. -/
def elemsAfter (s : State) (a n : Nat) : List Int :=
  match step s with
  | .next t => (List.range n).map fun i => Memory.elem t.mem (a + 2 * i)
  | _ => []

/-- What the host reads at an offset of the register window. -/
def shown (s : State) (off : Nat) : Nat := (State.readReg s (regAt off)).toNat

/-- What the host reads at an offset after one step. -/
def shownAfter (s : State) (off : Nat) : Nat :=
  match step s with
  | .next t => shown t off
  | _ => 0

/-! ## Well-formedness: each check refuses something (30_encoding.md R92, R93) -/

theorem test_wf_block_too_small : (Instr.xfwd 1).wellFormed = false ∧ (Instr.xinv 1).wellFormed = false
    ∧ (Instr.extract 1 .cur).wellFormed = false ∧ (Instr.cost 1 false).wellFormed = false
    ∧ (Instr.msearch 1).wellFormed = false ∧ (Instr.resid 1).wellFormed = false ∧ (Instr.mc 1).wellFormed = false
    ∧ (Instr.intra 1).wellFormed = false ∧ (Instr.dblk 1).wellFormed = false := by decide

theorem test_wf_block_too_large : (Instr.xfwd 8).wellFormed = false ∧ (Instr.dblk 15).wellFormed = false := by
  decide

/-- V15: no 8×8 chroma table, no 2×2 luma table, no table of size 16. -/
theorem test_wf_no_table : (Instr.fdctq 3 .c).wellFormed = false ∧ (Instr.dqidct 1 .l).wellFormed = false
    ∧ (Instr.fdctq 4 .u).wellFormed = false ∧ (Instr.fdctq 0 .l).wellFormed = false := by decide

theorem test_wf_legal : (Instr.fdctq 3 .l).wellFormed = true ∧ (Instr.dqidct 1 .c).wellFormed = true
    ∧ (Instr.xfwd 2).wellFormed = true ∧ (Instr.dblk 7).wellFormed = true := by decide

/-! ## Decoding: words written out from 30_encoding.md R98, R101 -/

theorem test_decode_nop : decode 0b00000000000000000000000000000000 = .ok .nop := by decide
theorem test_decode_fdctq : decode 0b00000000000000000010000100000001 = .ok (.fdctq 1 .u) := by decide
theorem test_decode_dqidct : decode 0b00000000000000000001001000000010 = .ok (.dqidct 2 .c) := by decide
theorem test_decode_xfwd : decode 0b00000000000000000000010000000011 = .ok (.xfwd 4) := by decide
theorem test_decode_xinv : decode 0b00000000000000000000011100000100 = .ok (.xinv 7) := by decide
theorem test_decode_extract : decode 0b00000000000000010000001100001000 = .ok (.extract 3 .ref)
    ∧ decode 0b00000000000000001000001000001000 = .ok (.extract 2 .comp) := by decide
theorem test_decode_cost : decode 0b00000000000000000100001100001001 = .ok (.cost 3 true) := by decide
theorem test_decode_msearch : decode 0b00000000000000000000010000001010 = .ok (.msearch 4) := by decide
theorem test_decode_resid : decode 0b00000000000000000000010000001011 = .ok (.resid 4) := by decide
theorem test_decode_mc : decode 0b00000000000000000000010000010000 = .ok (.mc 4) := by decide
theorem test_decode_intra : decode 0b00000000000000000000001000010001 = .ok (.intra 2) := by decide
theorem test_decode_dblk : decode 0b00000000000000000000001100010010 = .ok (.dblk 3) := by decide
theorem test_decode_refpush : decode 0b00000000000000000000000000011000 = .ok .refpush := by decide
theorem test_decode_refclr : decode 0b00000000000000000000000000011001 = .ok .refclr := by decide

/-- V15: the `E_ILLEGAL` rows, each rejected under its own name. -/
theorem test_decode_rejects : decode 0x00003301 = .error .reservedQsel ∧ decode 0x00001303 = .error .unusedQsel
    ∧ decode 0x00004310 = .error .unusedA ∧ decode 0x00008303 = .error .unusedRsel
    ∧ decode 0x00018308 = .error .reservedRsel ∧ decode 0x00020000 = .error .reservedBits
    ∧ decode 0x00000100 = .error .unusedSz ∧ decode 0x00000118 = .error .unusedSz
    ∧ decode 0x00000005 = .error (.unassigned 5) ∧ decode 0x000000FF = .error (.unassigned 255)
    ∧ decode 0x80000001 = .error .reservedBits ∧ decode 0x00003401 = .error .reservedQsel := by decide

/-- V15: the `E_SIZE` rows decode; the command itself faults (log 12). -/
theorem test_decode_bad_sizes : decode 0x00001301 = .ok (.fdctq 3 .c) ∧ decode 0x00002401 = .ok (.fdctq 4 .u)
    ∧ decode 0x00000803 = .ok (.xfwd 8) ∧ decode 0x00000F0A = .ok (.msearch 15) := by decide

/-- The opcode table's bits are the word's; a string of three bytes is no command. -/
theorem test_decode_bytes : decodeTableWord 32 0x00010308 = some (.extract 3 .ref)
    ∧ decodeBytes [0x08, 0x03, 0x01, 0x00] = .ok (.extract 3 .ref)
    ∧ decodeBytes [0x08, 0x03, 0x01] = .error .badLength := by decide

/-! ## Arithmetic -/

/-- V1. -/
theorem test_rn : rn 5 2 = 3 ∧ rn (-5) 2 = -3 ∧ rn 1 2 = 1 ∧ rn (-1) 2 = -1 ∧ rn 0 7 = 0 ∧ rn 1 3 = 0
    ∧ rn (-2) 3 = -1 ∧ rn 10 4 = 3 ∧ rn (-10) 4 = -3 ∧ rn 9 4 = 2 := by decide

/-- V40, V46: single calls of the edge filter. -/
theorem test_filt : filt ⟨8, 4, 2⟩ ⟨100, 100, 100, 104, 104, 104⟩ = some ⟨101, 102, 102, 103⟩
    ∧ filt ⟨16, 6, 4⟩ ⟨100, 100, 100, 112, 112, 112⟩ = some ⟨103, 104, 108, 109⟩
    ∧ filt ⟨8, 6, 2⟩ ⟨90, 96, 100, 104, 105, 120⟩ = some ⟨96, 101, 103, 105⟩
    ∧ filt ⟨8, 4, 2⟩ ⟨100, 100, 100, 108, 108, 108⟩ = none := by decide

/-! ## One step of each command -/

/-- V35: NOP. -/
theorem test_nop : flags (inFlight 0x00000000 false regs8 oneRef []) = (2, 0) := by decide +kernel

/-- V11: `FDCTQ.2.U`. -/
theorem test_fdctq_2u : elemsAfter (inFlight 0x00002101 false regs8 oneRef (elems 0x4000 [100, 110, 120, 150]))
    0x5000 4 = [-16, -20, -30, 10] := by decide +kernel

/-- V9: orientation of `FDCTQ.4.U`, a plane that varies only vertically. -/
theorem test_fdctq_orientation : elemsAfter (inFlight 0x00002201 false regs8 oneRef
      (elems 0x4000 ((cells 4).map fun c => 128 + 10 * c.2))) 0x5000 16
    = [60, 0, 0, 0, -45, 0, 0, 0, 0, 0, 0, 0, -3, 0, 0, 0] := by decide +kernel

/-- V11: `DQIDCT.2.U` on the levels of FDCTQ. -/
theorem test_dqidct_2u : elemsAfter (inFlight 0x00002102 false regs8 oneRef (elems 0x4000 [-16, -20, -30, 10]))
    0x5000 4 = [100, 110, 120, 150] := by decide +kernel

/-- V11: `DQIDCT.2.C` under the example table. -/
theorem test_dqidct_2c : elemsAfter (inFlight 0x00001102 false regs8 oneRef (elems 0x4000 [-1, -1, -1, 0]))
    0x5000 4 = [96, 120, 120, 144] := by decide +kernel

/-- V12: `XFWD.4` on a zero bundle. -/
theorem test_xfwd_4 : elemsAfter (inFlight 0x00000203 false regs8 oneRef (elems 0x4000 (List.replicate 24 0)))
    0x5000 24 = -64 :: List.replicate 15 0 ++ [-16, 0, 0, 0, -16, 0, 0, 0] := by decide +kernel

/-- V12: `XINV.4` takes it back. -/
theorem test_xinv_4 : elemsAfter (inFlight 0x00000204 false regs8 oneRef
      (elems 0x4000 (-64 :: List.replicate 15 0 ++ [-16, 0, 0, 0, -16, 0, 0, 0])))
    0x5000 24 = List.replicate 24 0 := by decide +kernel

/-- V20: `EXTRACT.4.CUR` one column outside. -/
theorem test_extract_cur : elemsAfter (inFlight 0x00000208 false (at8 (-1) 0 0 0) oneRef (rasterT 0x1000 4)) 0x5018 14
    = [0, 30, 31, 32, 0, 100, 0, 104, 0, 200, 0, 196, 1, 0] := by decide +kernel

/-- V21: `EXTRACT.4.REF` at `M = S - span`. -/
theorem test_extract_ref : elemsAfter (inFlight 0x00010208 false (at8 4 4 1 2) oneRef (rasterT 0x2000 6)) 0x5010 16
    = [43, 44, 45, 46, 53, 54, 55, 56, 105, 106, 109, 110, 195, 194, 191, 190] := by
  decide +kernel

/-- V22: `COST.4` of T against T2. -/
theorem test_cost : shownAfter (inFlight 0x00000209 false regs8 oneRef (rasterT 0x1000 4 ++ rasterT2 0x2000 4)) 0x0E0
    = 260 := by decide +kernel

/-- V23: `COST.4.A` counts validity. -/
theorem test_cost_alpha : shownAfter (inFlight 0x00004209 false (at8 0 0 1 0) oneRef
    (rasterT 0x1000 4 ++ rasterT 0x2000 4)) 0x0E0 = 2092996 := by decide +kernel

/-- The reasoning of V24 on a 4 × 4 frame that is its own reference: the first candidate costs 0 and no later one
is cheaper. -/
theorem test_msearch :
    let s := inFlight 0x0000020A false { regs8 with frameW := 4, frameH := 4, vSpanX := 7 }
      { oneRef with slot0 := planesAt 0x1000 }
      (elems 0x1000 (List.replicate 16 5) ++ elems 0x1080 [1, 2, 3, 4] ++ elems 0x10A0 [5, 6, 7, 8])
    flags s = (0xA, 0) ∧ (shownAfter s 0x0B8, shownAfter s 0x0C0, shownAfter s 0x0E0) = (0, 4, 0) := by
  decide +kernel

/-- V28: MSEARCH without a reference succeeds with no match. -/
theorem test_msearch_none : let s := inFlight 0x0000020A false regs8 RefTable.empty []
    flags s = (2, 0) ∧ (shownAfter s 0x0C0, shownAfter s 0x0EC) = (0, 0xFFFFFFFF) := by decide +kernel

/-- V26, last case: `RESID.4` with span (1, 0). -/
theorem test_resid : elemsAfter (inFlight 0x0000020B false (at8 0 0 1 0) oneRef (rasterT 0x1000 4 ++ rasterT 0x2000 4))
    0x5000 24 = [0, 0, 0, 0, 10, 0, 0, 0, 20, 0, 0, 0, 30, 0, 0, 0, 100, 0, 104, 0, 200, 0, 196, 0] := by
  decide +kernel

/-- V30: `MC.4`, a row of the composite and of its U plane. -/
theorem test_mc :
    let s := inFlight 0x00000210 false (at8 4 4 1 2) oneRef (rasterT 0x2000 6 ++ raster8 0x3000 8 (fun _ _ => -1)
      (fun _ _ => -1) (fun _ _ => -1)
      ++ elems 0x4000 [1, 0, 0, 0, 0, -2, 0, 0, 0, 0, 3, 0, 0, 0, 0, -4, 5, 0, 0, -5, 0, 7, -7, 0])
    elemsAfter s 0x3056 5 = [-1, 33, 32, 35, 36] ∧ elemsAfter s 0x309A 3 = [-1, 109, 105] := by decide +kernel

/-- V34: `MC.4` without a reference. -/
theorem test_mc_no_reference : flags (inFlight 0x00000210 false regs8 RefTable.empty []) = (4, 4) := by
  decide +kernel

/-- V31: `INTRA.4` clipped at the corner. -/
theorem test_intra :
    let s := inFlight 0x00000211 false (at8 6 6 0 0) oneRef (raster8 0x3000 8 (fun _ _ => -1) (fun _ _ => -1)
      (fun _ _ => -1) ++ elems 0x4000 [1, 2, 3, 4, 5, 6, 7, 8, 9, 10, 11, 12, 13, 14, 15, 16, 21, 22, 23, 24,
        31, 32, 33, 34])
    elemsAfter s 0x306A 11 = [-1, 1, 2, -1, -1, -1, -1, -1, -1, 5, 6]
      ∧ elemsAfter s 0x309C 3 = [-1, 21, -1] := by decide +kernel

/-- V40: `DBLK.4` on a vertical step, row 4, the right half of row 2, part of row 5. -/
theorem test_dblk :
    let s := inFlight 0x00000212 false (at8 4 4 0 0) oneRef
      (elems 0x3000 ((cells 8).map fun c => if c.1 < 4 then 100 else 104))
    elemsAfter s 0x3040 8 = [100, 100, 101, 102, 103, 103, 104, 104]
      ∧ elemsAfter s 0x3028 4 = [103, 104, 104, 104] ∧ elemsAfter s 0x3056 3 = [102, 102, 103] := by
  decide +kernel

/-- V42: a block at the top edge is not filtered. -/
theorem test_dblk_top_edge : elemsAfter (inFlight 0x00000212 false (at8 4 0 0 0) oneRef
      (elems 0x3000 ((cells 8).map fun c => if c.1 < 4 then 100 else 104))) 0x3000 8
    = [100, 100, 100, 100, 104, 104, 104, 104] := by decide +kernel

/-- V33: REFPUSH shifts. -/
theorem test_refpush : let s := inFlight 0x00000018 false regs8 { oneRef with slot0 := planesAt 0x7000 } []
    (shownAfter s 0x060, shownAfter s 0x070, shownAfter s 0x0A0) = (0x2000, 0x7000, 2) := by decide +kernel

/-- V33: REFCLR. -/
theorem test_refclr : let s := inFlight 0x00000019 false regs8 oneRef []
    (shownAfter s 0x060, shownAfter s 0x0A0) = (0, 0) ∧ flags s = (2, 0) := by decide +kernel

/-! ## Faults (V14, V15, V50, V51) -/

/-- V15: a bad size is `E_SIZE`, an illegal word `E_ILLEGAL`. -/
theorem test_fault_codes : flags (inFlight 0x00001301 false regs8 oneRef []) = (4, 2)
    ∧ flags (inFlight 0x00003401 false regs8 oneRef []) = (4, 1) := by decide +kernel

/-- V50: configuration before reference, null before alignment, position before address. -/
theorem test_fault_order :
    flags (inFlight 0x00000210 false { regs8 with frameH := 0, vRef := 0 } oneRef []) = (4, 3)
      ∧ flags (inFlight 0x00000209 false { regs8 with cur := ⟨0, 0x1101, 0x1200⟩ } oneRef []) = (4, 5)
      ∧ flags (inFlight 0x0000020A false { regs8 with vPosX := 8, cur := ⟨0xFFFFFF82, 0x1100, 0x1200⟩ } oneRef [])
        = (4, 7) := by decide +kernel

/-- V50: `DST + 80 = 2^32 + 2` is `E_ADDR`. -/
theorem test_fault_address : flags (inFlight 0x00000208 false { regs8 with dst := 0xFFFFFFB2 } oneRef []) = (4, 8) := by
  decide +kernel

/-- V51: a hole under `DST` is `E_BUS`. -/
theorem test_fault_bus : flags { inFlight 0x00000208 false regs8 oneRef [] with
    cfg := { Params.tc1 with holes := [⟨0x5000, 0x50⟩] } } = (4, 9) := by decide +kernel

/-- 20_memory.md R70, 92_eei_decisions.md (OPEN parameters): a buffer that runs into the register window is `E_BUS`, a
raster plane that runs into it only if the block lies there. -/
theorem test_runs_into_window :
    flags (inFlight 0x00002101 false { regs8 with src := 0xEFFFFFFA } oneRef []) = (4, 9)
      ∧ flags (inFlight 0x00002101 false { regs8 with dst := 0xEFFFFFFA } oneRef (elems 0x4000 [1, 2, 3, 4])) = (4, 9)
      ∧ flags (inFlight 0x00000208 false { regs8 with cur := ⟨0xEFFFFFC0, 0x1100, 0x1200⟩ } oneRef []) = (2, 0)
      ∧ flags (inFlight 0x00000208 false { at8 4 4 0 0 with cur := ⟨0xEFFFFFC0, 0x1100, 0x1200⟩ } oneRef []) = (4, 9) := by
  decide +kernel

/-- Whether a command in flight is refused. -/
def refusedAsData (s : State) : Bool :=
  match step s with
  | .refused .windowAsData => true
  | _ => false

/-- 20_memory.md R60: a base register in the register window is refused, also where the elements lie past it; one that
the command does not read or write through is not. -/
theorem test_base_in_window :
    refusedAsData (inFlight 0x00000208 false { at8 4 4 0 0 with cur := ⟨0xF0000FFE, 0x1100, 0x1200⟩ } oneRef []) = true
      ∧ refusedAsData (inFlight 0x00000209 false regs8 { oneRef with slot0 := ⟨0x2000, 0x2100, 0xF0000000⟩ } []) = true
      ∧ flags (inFlight 0x00000018 false { regs8 with push := ⟨0xF0000000, 0xF0000000, 0xF0000000⟩ } oneRef []) = (2, 0)
      ∧ flags (inFlight 0x00000312 false { regs8 with comp := ⟨0x3000, 0xF0000000, 0xF0000000⟩ } oneRef []) = (2, 0) := by
  decide +kernel

/-- V14: level 32636 reconstructs to 32768. -/
theorem test_fault_range : flags (inFlight 0x00002102 false regs8 oneRef (elems 0x4000 [32767, 32767, 0, 0]))
    = (4, 10) := by decide +kernel

/-- 20_memory.md R77, 60_exceptions.md R209: a search that the host raced with is `E_BUS` if the searched block is
refused, and not if only a sample of CUR outside every block it reads is. -/
theorem test_raced_search :
    let s := { inFlight 0x0000020A false regs8 RefTable.empty [] with raced := true }
    flags { s with busRefused := [0x1001] } = (4, 9)
      ∧ shownAfter { s with busRefused := [0x1008] } 0x010 = 0 := by decide +kernel

/-- A host read of the write footprint of a raced INTRA (24 elements) uses up its own three choices, the values of the
completion it looked ahead to and the choices between its writes: what comes later draws others (log 28). -/
theorem test_read_uses_up_free_values :
    let s := { inFlight 0x00000211 false regs8 RefTable.empty [] with raced := true }
    (State.hostLoad s 0x3000 .half).freeCtr = 3 + 24 + 8 + 24
      ∧ (State.hostLoad s 0x3008 .half).freeCtr = 0 := by decide +kernel

/-! ## Registers (V52 to V55) -/

/-- A state after the host wrote a register. -/
def wrote (s : State) (off : Nat) (v : Word) : State :=
  ended s (step (s.hostWrites off v))

/-- The core just out of reset on the example parameters. -/
def fresh : State := State.powerOn Params.tc1

/-- V53: narrowing and extension. -/
theorem test_narrowing : shown (wrote fresh 0x018 0x00012345) 0x018 = 0x2345
    ∧ shown (wrote fresh 0x0B0 0x0000FFFF) 0x0B0 = 0xFFFFFFFF ∧ shown (wrote fresh 0x0B0 0x00018000) 0x0B0 = 0xFFFF8000
    ∧ shown (wrote fresh 0x0D8 0x1FF) 0x0D8 = 0xFF ∧ shown (wrote fresh 0x004 0x7FFFFFFF) 0x004 = 7
    ∧ shown (wrote fresh 0x000 5) 0x000 = 0x59560201 := by decide +kernel

/-- V53, V2: table entries and basis constants. -/
theorem test_tables : shown fresh 0x400 = 8 ∧ shown fresh 0x404 = 10 ∧ shown fresh 0x420 = 10 ∧ shown fresh 0x4FC = 36
    ∧ shown fresh 0x58C = 32 ∧ shown fresh 0x5C0 = 3 ∧ shown fresh 0x608 = 8 ∧ shown fresh 0x70C = 6
    ∧ shown fresh 0x804 = 1 ∧ shown fresh 0x610 = 0 ∧ shown fresh 0x93C = 0xFFFFE09D ∧ shown fresh 0xA34 = 0xFFFFD631
    ∧ shown fresh 0xA4C = 0xFFFFD2BF ∧ shown fresh 0xFFC = 0 := by decide +kernel

/-- V54: the interrupt line around a NOP. -/
theorem test_interrupt :
    let s := wrote fresh 0x004 1
    let t := ended s (step (wrote s 0x00C 0))
    s.irq = false ∧ t.irq = true ∧ shown t 0x008 = 2 ∧ (wrote t 0x008 2).irq = false := by decide +kernel

/-- V52: in the error state a write to `CMD` is discarded with `OVR`, a write to `SRC` is performed, and a soft
reset clears all. -/
theorem test_error_state :
    let s := inFlight 0x00000210 false regs8 RefTable.empty []
    let e := ended s (step s)
    shown (wrote e 0x00C 0) 0x008 = 0x14 ∧ shown (wrote e 0x00C 0) 0x00C = 0x210
      ∧ shown (wrote e 0x0C4 0x4100) 0x0C4 = 0x4100 ∧ shown e 0x014 = 0x210
      ∧ shown (wrote e 0x004 0x80000000) 0x008 = 0 ∧ shown (wrote e 0x004 0x80000000) 0x0D4 = 2 := by decide +kernel

/-- V55: a launch clears `DONE`. -/
theorem test_launch : let s := wrote { fresh with status := ⟨false, true, false, true, false⟩ } 0x00C 0
    shown s 0x008 = 9 ∧ flags s = (0xA, 0) := by decide +kernel

/-- A command word placed by `withFetchWord` is the very next thing that runs. -/
theorem test_fetch_word :
    step (fresh.withFetchWord 32 0x00000019) = exec .refclr { State.launch 0x19 fresh with inbox := [] } := rfl

/-! ## Helpers for the witnesses -/

/-- Every pair of indices below `n` is one of the cells. -/
theorem grid {n : Nat} {P : Nat → Nat → Prop} (h : ∀ c ∈ cells n, P c.1 c.2) : ∀ i j, i < n → j < n → P i j := by
  intro i j hi hj
  exact h (i, j) (by simp [cells, hi, hj])

/-- Whether an outcome is a next state. -/
def isNext : Host.Outcome State Fault Refusal → Bool
  | .next _ => true
  | _ => false

theorem eq_ended {s : State} {o : Host.Outcome State Fault Refusal} (h : isNext o = true) : o = .next (ended s o) := by
  cases o with
  | next t => rfl
  | fault r => cases h
  | refused r => cases h

/-- On the example parameters every byte below the register window can be accessed. -/
theorem canAccess_low {s : State} {r : Region} (hc : s.cfg = Params.tc1) (hb : s.busRefused = [])
    (h : r.base + r.bytes ≤ 0xF0000000) : State.CanAccess s r := by
  intro k hk
  refine ⟨?_, by simp [hb]⟩
  have hw : (Params.window Params.tc1) = ⟨0xF0000000, 4096⟩ := rfl
  simp only [hc, Params.backed, hw, Region.contains, Params.memValid]
  have h1 : ¬ 0xF0000000 ≤ r.base + k := by omega
  simp [h1, Params.tc1]
  omega

theorem regionsReady_low {s : State} {o : Operands} {r : Raster} (hc : s.cfg = Params.tc1) (hb : s.busRefused = [])
    (h : ∀ p ∈ Operands.rasterRegions o r, p.base + p.bytes ≤ 0xF0000000) :
    ∀ p ∈ Operands.rasterRegions o r, State.CanAccess s p :=
  fun p hp => canAccess_low hc hb (h p hp)

/-- The raster at 0x1000 next to any state on `regs8` moved anywhere. -/
theorem rasterReady8 {s : State} {base : Nat} (hc : s.cfg = Params.tc1) (hb : s.busRefused = [])
    (hw : s.latch.regs.frameW = 8) (hh : s.latch.regs.frameH = 8) (h : base ∈ [0x1000, 0x2000, 0x3000]) :
    RasterReady s (planesAt base) := by
  have e : Operands.rasterRegions s.latch.regs (planesAt base)
      = Operands.rasterRegions regs8 (planesAt base) := by
    simp [Operands.rasterRegions, Operands.w, Operands.h, hw, hh, regs8]
  refine ⟨?_, ?_, ?_, ?_⟩
  · fin_cases h <;> exact ⟨by decide, by decide⟩
  · fin_cases h <;> exact ⟨by decide, by decide⟩
  · fin_cases h <;> exact ⟨by decide, by decide⟩
  · rw [e]; exact regionsReady_low hc hb (by fin_cases h <;> decide)

/-- A step of a command in flight on the example parameters. -/
def wPlane : State := inFlight 0x00002101 false regs8 oneRef (elems 0x4000 [100, 110, 120, 150])

theorem wPlane_ready : PlaneReady 1 .u wPlane :=
  ⟨rfl, ⟨by decide, by decide⟩, ⟨by decide, by decide⟩, canAccess_low rfl rfl (by decide),
    canAccess_low rfl rfl (by decide), rfl⟩

/-- A block command on a bundle of zeros. -/
def wBlock : State := inFlight 0x00000203 false regs8 oneRef (elems 0x4000 (List.replicate 24 0))

theorem wBlock_ready : BlockReady 2 wBlock :=
  ⟨rfl, ⟨by decide, by decide⟩, ⟨by decide, by decide⟩, canAccess_low rfl rfl (by decide),
    canAccess_low rfl rfl (by decide), rfl⟩

/-- A raster command on T, with T as its reference and a bundle of zeros at `SRC`. -/
def wFrame : State := inFlight 0x0000020B false (at8 0 0 1 0) oneRef
  (rasterT 0x1000 4 ++ rasterT 0x2000 4 ++ elems 0x4000 (List.replicate 24 0))

theorem wFrame_ready : FrameReady 2 wFrame := ⟨rfl, rfl, rfl, rfl⟩

/-- As the first thing after reset, each command answers a next state: a completion or the fault of registers
that hold their reset values. -/
theorem test_fetch_every_command : ∀ w ∈ ([0x00, 0x301, 0x302, 0x403, 0x404, 0x308, 0x309, 0x40A, 0x40B, 0x410, 0x211,
    0x312, 0x18, 0x19] : List Nat), isNext (step (State.reset.withFetchWord 32 w)) = true := by
  decide +kernel

/-! ## A state that meets the hypotheses of each statement -/

theorem witness_IllegalWordFaults :
    let s := inFlight 0x00003301 false regs8 oneRef []
    let t := inFlight 0x00000F0A false regs8 oneRef []
    (s.status.busy = true ∧ s.inbox = [] ∧ illegalWord s.latch.word.toNat = true)
      ∧ (t.status.busy = true ∧ t.inbox = [] ∧ illegalWord t.latch.word.toNat = false) := by decide

theorem witness_StepRunsDecodedCommand : wPlane.status.busy = true ∧ decode wPlane.latch.word = .ok (.fdctq 1 .u)
    ∧ wPlane.inbox = [] ∧ fresh.status.busy = false ∧ fresh.inbox = [] := by decide

theorem witness_CmdWriteLaunches : fresh.cfg.legal = true ∧ fresh.status.busy = false ∧ fresh.status.err = false
    ∧ decode 0x00000005 = .error (.unassigned 5) ∧ wPlane.cfg.legal = true ∧ wPlane.status.busy = true
    ∧ (State.trap .ref wPlane).cfg.legal = true ∧ (State.trap .ref wPlane).status.err = true := by decide +kernel

/-- A core that is idle, one that is busy, one in error. -/
theorem witness_WritesWhileNotIdle : fresh.cfg.legal = true ∧ fresh.status.busy = false ∧ fresh.status.err = false
    ∧ wPlane.cfg.legal = true ∧ wPlane.status.busy = true
    ∧ (State.trap .ref wPlane).status.err = true ∧ (State.trap .ref wPlane).status.busy = false
    ∧ (0x7FFFFFFF : Word).getLsbD 31 = false ∧ (0x80000000 : Word).getLsbD 31 = true
    ∧ (0x018, RegView.unsigned16) ∈ operandRegs ∧ (0x0D8, RegView.unsigned8) ∈ operandRegs := by decide +kernel

theorem witness_OperandRegisterReadBack : fresh.cfg.legal = true ∧ fresh.status.busy = false
    ∧ (0x0B0, RegView.signed16) ∈ operandRegs ∧ (0x0C4, RegView.word) ∈ operandRegs := by decide

theorem witness_UnlistedOffsetsReadZero : fresh.cfg.legal = true ∧ offsetNamed 0x02C = false ∧ offsetNamed 0x0CC = false
    ∧ offsetNamed 0x3FC = false ∧ offsetNamed 0xA50 = false ∧ offsetNamed 0xFFC = false ∧ offsetNamed 0xA4C = true := by
  decide +kernel

theorem witness_ReadsAndReadOnlyWritesChangeNothing : fresh.cfg.legal = true ∧ offsetWritable 0x000 = false
    ∧ offsetWritable 0x0EC = false ∧ offsetWritable 0xFFC = false ∧ offsetWritable 0x0D8 = true := by
  decide +kernel

/-- Boundaries: the last byte of an access is the window's first, the first byte its last; a half word inside. -/
theorem witness_WindowNeedsAlignedWords :
    (∃ k, k < BusSize.bytes .half ∧ fresh.cfg.regBase.toNat ≤ (0xEFFFFFFF : Word).toNat + k
        ∧ (0xEFFFFFFF : Word).toNat + k < fresh.cfg.regBase.toNat + 4096)
      ∧ (∃ k, k < BusSize.bytes .word ∧ fresh.cfg.regBase.toNat ≤ (0xF0000FFE : Word).toNat + k
        ∧ (0xF0000FFE : Word).toNat + k < fresh.cfg.regBase.toNat + 4096)
      ∧ (BusSize.half ≠ .word ∨ (0xEFFFFFFF : Word).toNat % 4 ≠ 0)
      ∧ (BusSize.word ≠ .word ∨ (0xF0000FFE : Word).toNat % 4 ≠ 0) :=
  ⟨⟨1, by decide⟩, ⟨0, by decide⟩, by decide, by decide⟩

theorem witness_TablesReadBack : fresh.cfg.legal = true := by decide

theorem witness_InterruptLine : ({ fresh with status := ⟨false, true, false, false, false⟩ }).cfg.legal = true := by decide

theorem witness_SizeFaults : (Instr.fdctq 3 .c).wellFormed = false ∧ (Instr.xfwd 1).wellFormed = false
    ∧ (Instr.dblk 8).wellFormed = false := by decide

/-- Boundaries: 0, 6, 16388 and 2 beside a legal dimension. -/
theorem witness_FrameSizeFaults : (Instr.msearch 2).wellFormed = true ∧ readsFrame (.msearch 2) = true
    ∧ ∀ v ∈ ([(0, 8), (6, 8), (8, 16388), (8, 2)] : List (Half × Half)),
      ¬ (v.1.toNat % 4 = 0 ∧ 4 ≤ v.1.toNat ∧ v.1.toNat ≤ 16384
        ∧ v.2.toNat % 4 = 0 ∧ 4 ≤ v.2.toNat ∧ v.2.toNat ≤ 16384) :=
  ⟨by decide, by decide, by simp⟩

/-- Boundaries: 0, 5, a slot that is not valid, -1 without the look-ahead; and a search that ends well. -/
theorem witness_ReferenceFaults :
    ((Instr.mc 2).wellFormed = true ∧ resolvesRef (.mc 2) = true ∧ frameDimLegal regs8.frameW = true
        ∧ frameDimLegal regs8.frameH = true)
      ∧ (∀ v ∈ ([0, 5, 3, 1, -1] : List Int),
        refMissing (inFlight 0x210 false { regs8 with vRef := BitVec.ofInt 16 v } oneRef []).latch)
      ∧ ∃ t, exec (.msearch 2) (inFlight 0x20A false regs8 RefTable.empty []) = .next t
        ∧ (inFlight 0x20A false regs8 RefTable.empty []).errCode ≠ some .ref :=
  ⟨by decide, by unfold refMissing; decide, _, eq_ended (s := fresh) (by decide +kernel), by decide⟩

/-- `failsCheck`, computed. -/
def fails (i : Instr) (l : Latch) : ErrCode → Bool
  | .size => !i.wellFormed
  | .config => readsFrame i && (!frameDimLegal l.regs.frameW || !frameDimLegal l.regs.frameH)
  | .ref => resolvesRef i && (Latch.resolve l).isNone
  | .null => (usedBases i l).any fun b => b == 0
  | .align => (usedBases i l).any fun b => b.toNat % 2 == 1
  | .pos => (match i with | .msearch _ => true | _ => false)
      && !decide (0 ≤ l.regs.sx ∧ l.regs.sx < l.regs.w ∧ 0 ≤ l.regs.sy ∧ l.regs.sy < l.regs.h)
  | .addr => (usedRegions i l).any fun r => decide (2 ^ 32 < r.base + r.bytes)
  | _ => false

theorem fails_iff (i : Instr) (l : Latch) (e : ErrCode) : failsCheck i l e ↔ fails i l e = true := by
  cases e with
  | ref => simp only [failsCheck, fails, Bool.and_eq_true, Latch.resolve_isNone]
  | pos => cases i <;> simp [failsCheck, fails]; omega
  | _ => simp [failsCheck, fails]

/-- The code is the first that a command fails. -/
def firstCode (i : Instr) (o : Operands) (e : ErrCode) : Bool :=
  fails i ⟨0, false, o, RefTable.empty⟩ e
    && [ErrCode.illegal, .size, .config, .ref, .null, .align, .pos, .addr, .bus, .range].all fun d =>
      decide (ErrCode.num d < ErrCode.num e) → !fails i ⟨0, false, o, RefTable.empty⟩ d

theorem firstCode_spec {i : Instr} {o : Operands} {e : ErrCode} (h : firstCode i o e = true) :
    failsCheck i ⟨0, false, o, RefTable.empty⟩ e
      ∧ ∀ e', ErrCode.num e' < ErrCode.num e → ¬ failsCheck i ⟨0, false, o, RefTable.empty⟩ e' := by
  simp only [firstCode, Bool.and_eq_true] at h
  refine ⟨(fails_iff _ _ _).2 h.1, fun e' he' hf => ?_⟩
  have h2 := (fails_iff _ _ _).1 hf
  have h3 := List.all_eq_true.1 h.2 e' (by cases e' <;> simp)
  simp only [he', decide_true, forall_const, decide_eq_true_eq, h2] at h3
  cases h3

/-- Each of the seven codes is the first for some command; and a command that fails none. -/
theorem witness_FirstFailedCheckDecides :
    (∀ c ∈ ([(.xfwd 1, regs8, .size), (.dblk 2, { regs8 with frameH := 0 }, .config), (.mc 2, regs8, .ref),
        (.xfwd 2, { regs8 with src := 0 }, .null), (.intra 2, { regs8 with src := 1 }, .align),
        (.msearch 2, { regs8 with vPosX := 8 }, .pos),
        (.fdctq 1 .u, { regs8 with dst := 0xFFFFFFFA }, .addr)] : List (Instr × Operands × ErrCode)),
      failsCheck c.1 ⟨0, false, c.2.1, RefTable.empty⟩ c.2.2
        ∧ ∀ e', ErrCode.num e' < ErrCode.num c.2.2 → ¬ failsCheck c.1 ⟨0, false, c.2.1, RefTable.empty⟩ e')
      ∧ (∀ e, ¬ failsCheck (.fdctq 1 .u) wPlane.latch e) ∧ wPlane.errCode = none
      ∧ ∃ t, exec (.fdctq 1 .u) wPlane = .next t := by
  refine ⟨fun c hc => firstCode_spec ?_, fun e => ?_, rfl, _, eq_ended (s := fresh) (by decide +kernel)⟩
  · revert c; decide +kernel
  · rw [fails_iff]; cases e <;> decide +kernel

/-- A fault of the command's own, and a bus error. -/
theorem witness_FaultLatch :
    let s := inFlight 0x00000210 false regs8 RefTable.empty []
    let b := { wPlane with busRefused := [0x4003] }
    (s.status.busy = true ∧ s.status.err = false ∧ s.errCode = none ∧ s.inbox = []
        ∧ ∃ t, step s = .next t ∧ t.errCode = some .ref)
      ∧ (b.status.busy = true ∧ b.status.err = false ∧ b.errCode = none ∧ b.inbox = []
        ∧ ∃ t, step b = .next t ∧ t.errCode = some .bus) :=
  ⟨⟨rfl, rfl, rfl, rfl, _, eq_ended (s := fresh) (by decide +kernel), by decide +kernel⟩,
    rfl, rfl, rfl, rfl, _, eq_ended (s := fresh) (by decide +kernel), by decide +kernel⟩

/-- Boundaries: the first byte after the write footprint, the last before it. -/
theorem witness_BusFaultFrame :
    let b := { wPlane with busRefused := [0x5007] }
    b.status.busy = true ∧ b.errCode = none ∧ b.inbox = []
      ∧ (∃ t, step b = .next t ∧ t.errCode = some .bus)
      ∧ b.inWriteFootprint 0x4FFF = false ∧ b.inWriteFootprint 0x5008 = false ∧ b.inWriteFootprint 0x5007 = true :=
  ⟨rfl, rfl, rfl, ⟨_, eq_ended (s := fresh) (by decide +kernel), by decide +kernel⟩, by decide +kernel,
    by decide +kernel, by decide +kernel⟩

/-- The three clauses on `DQIDCT.2.U`: the last byte of `SRC` refused; a result out of range with a refused
destination; a refused destination. -/
theorem witness_BusAndRangeInOrder :
    let p := inFlight 0x00002102 false regs8 oneRef (elems 0x4000 [32767, 32767, 0, 0])
    let q := inFlight 0x00002102 false regs8 oneRef (elems 0x4000 [-16, -20, -30, 10])
    let level := fun s : State => recon 2 (qtab s.cfg 2 .u) (fun x y => Memory.elem s.mem (0x4000 + 2 * (y * 2 + x)))
    (Instr.planePairOk 1 .u = true ∧ baseOk regs8.src ∧ baseOk regs8.dst ∧ p.raced = false
        ∧ regs8.src.toNat + 8 ≤ 2 ^ 32 ∧ regs8.dst.toNat + 8 ≤ 2 ^ 32
        ∧ ¬ p.windowByte regs8.src.toNat ∧ ¬ p.windowByte regs8.dst.toNat)
      ∧ (regs8.src.toNat + 7 ∈ ({ q with busRefused := [0x4007] } : State).busRefused)
      ∧ ((∃ a b, a < 2 ∧ b < 2 ∧ s16ok (level p a b) = false)
        ∧ ∀ k, k < 8 → Params.memValid p.cfg (regs8.src.toNat + k) = true ∧ ¬ p.windowByte (regs8.src.toNat + k)
          ∧ regs8.src.toNat + k ∉ ({ p with busRefused := [0x5000] } : State).busRefused)
      ∧ ((∀ a b, a < 2 → b < 2 → s16ok (level q a b) = true)
        ∧ regs8.dst.toNat + 0 ∈ ({ q with busRefused := [0x5000] } : State).busRefused) :=
  ⟨⟨rfl, ⟨by decide, by decide⟩, ⟨by decide, by decide⟩, rfl, by decide, by decide, by unfold State.windowByte; decide,
      by unfold State.windowByte; decide⟩, by decide,
    ⟨⟨0, 0, by decide +kernel⟩, by unfold State.windowByte; decide +kernel⟩, grid (by decide +kernel), by decide⟩

/-- The clauses on any command, with DQIDCT; the reads that every search makes, with one that the host raced with;
and a search that ends in `E_BUS`. -/
theorem witness_BusAndRangeInOrder_all :
    let p := inFlight 0x00002102 false regs8 oneRef (elems 0x4000 [32767, 32767, 0, 0])
    let q := { p with mem := elems 0x4000 [-16, -20, -30, 10] }
    let j := jobDqidct 1 .u p
    let m := { inFlight 0x0000020A false regs8 RefTable.empty [] with busRefused := [0x1001], raced := true }
    (checkOf (.dqidct 1 .u) p.latch = none ∧ jobOf (.dqidct 1 .u) p = some j
        ∧ ¬ State.baseMisplaced (.dqidct 1 .u) p
        ∧ j.writes = none ∧ (∀ r ∈ j.reads, ¬ State.refusesByte p r)
        ∧ (∃ r ∈ j.reads, State.refusesByte { p with busRefused := [0x4007] } r))
      ∧ (∃ ws, (jobDqidct 1 .u q).writes = some ws ∧ (∀ w ∈ ws, ¬ State.refusesByte q ⟨w.1, 2⟩)
        ∧ ∃ w ∈ ws, State.refusesByte { q with busRefused := [0x5001] } ⟨w.1, 2⟩)
      ∧ (checkOf (.msearch 2) m.latch = none ∧ ¬ State.baseMisplaced (.msearch 2) m
        ∧ (∃ e, searchAlwaysReads (blockSize 2) m.latch e ∧ State.refusesByte m ⟨e, 2⟩)
        ∧ m.errCode = none ∧ ∃ t, exec (.msearch 2) m = .next t ∧ t.errCode = some .bus) := by
  have hq : ∀ (s : State) (r : Region), s.cfg = Params.tc1 → s.busRefused = [] →
      r.base + r.bytes ≤ 0xF0000000 → ¬ State.refusesByte s r := by
    intro s r hc hb hle hr
    rw [← State.accessRefused_iff, State.accessRefused_of_canAccess (canAccess_low hc hb hle)] at hr
    cases hr
  have hw : (jobDqidct 1 .u { inFlight 0x00002102 false regs8 oneRef [] with
      mem := elems 0x4000 [-16, -20, -30, 10] }).writes
      = some [(0x5000, 100), (0x5002, 110), (0x5004, 120), (0x5006, 150)] := by decide +kernel
  exact ⟨⟨by decide, rfl, by rw [State.baseMisplaced_iff]; decide +kernel, by decide +kernel,
      fun r hr => hq _ _ rfl rfl (by rw [List.mem_singleton.1 hr]; decide),
      ⟨_, List.mem_singleton.2 rfl, 7, by decide, Or.inr (Or.inr (by decide))⟩⟩,
    ⟨_, hw, fun w hm => hq _ _ rfl rfl (by revert w; decide), _, List.mem_cons_self, 1, by decide,
      Or.inr (Or.inr (by decide))⟩,
    by decide, by rw [State.baseMisplaced_iff]; decide +kernel,
    ⟨0x1000, Or.inl (by decide +kernel), 1, by decide, Or.inr (Or.inr (by decide))⟩, rfl, _,
    eq_ended (s := fresh) (by decide +kernel), by decide +kernel⟩

theorem witness_ErrorIsSticky :
    let s := { State.trap .ref wPlane with inbox := [.write 0xF000000C .word 0] }
    s.cfg.legal = true ∧ s.status.err = true ∧ s.status.busy = false ∧ (∃ t, step s = .next t)
      ∧ (∀ rest, s.inbox ≠ .hardReset :: rest)
      ∧ ∀ v rest, s.inbox = .write (s.regAddr 0x004) .word v :: rest → v.getLsbD 31 = false := by
  refine ⟨by decide, rfl, rfl, ⟨_, eq_ended (s := fresh) (by decide +kernel)⟩, fun rest h => ?_, fun v rest h => ?_⟩
  · cases h
  · have h2 := (List.cons.inj h).1
    injection h2 with h3
    exact absurd h3 (by decide)

/-- Boundaries: `SRC` at the window's last element, the first past it, and one whose last two bytes lie in it. -/
theorem witness_WindowIsNotData :
    let reading := fun b : Word => inFlight 0x00002101 false { regs8 with src := b } oneRef []
    (checkOf (.fdctq 1 .u) (reading 0xF0000FFE).latch = none ∧ State.baseMisplaced (.fdctq 1 .u) (reading 0xF0000FFE))
      ∧ (checkOf (.fdctq 1 .u) (reading 0xF0001000).latch = none ∧ ¬ State.baseMisplaced (.fdctq 1 .u) (reading 0xF0001000))
      ∧ (Instr.planePairOk 1 .u = true ∧ baseOk (0xEFFFFFFA : Word) ∧ baseOk regs8.dst
        ∧ (0xEFFFFFFA : Word).toNat + 2 * blockSize 1 ^ 2 ≤ 2 ^ 32 ∧ regs8.dst.toNat + 2 * blockSize 1 ^ 2 ≤ 2 ^ 32
        ∧ ¬ (reading 0xEFFFFFFA).windowByte (0xEFFFFFFA : Word).toNat ∧ ¬ (reading 0xEFFFFFFA).windowByte regs8.dst.toNat
        ∧ ∃ k, k < 2 * blockSize 1 ^ 2 ∧ (reading 0xEFFFFFFA).windowByte ((0xEFFFFFFA : Word).toNat + k)) := by
  unfold State.windowByte
  exact ⟨⟨by decide, by rw [State.baseMisplaced_iff]; decide +kernel⟩,
    ⟨by decide, by rw [State.baseMisplaced_iff]; decide +kernel⟩, rfl, ⟨by decide, by decide⟩,
    ⟨by decide, by decide⟩, by decide, by decide, by decide, by decide, 6, by decide, by decide⟩

theorem witness_ResetValues : wPlane.cfg.legal = true ∧ fresh.status.busy = false := by decide

/-- Both ways of clearing `ERR`. -/
theorem witness_SoftResetIsHardwareReset :
    let e := State.trap .ref wPlane
    e.cfg.legal = true ∧ (0x80000000 : Word).getLsbD 31 = true ∧ e.status.err = true
      ∧ (∃ t, step (e.given .hardReset) = .next t ∧ t.status.err = false)
      ∧ ∃ t, step (e.hostWrites 0x004 0x80000000) = .next t ∧ t.status.err = false :=
  ⟨by decide, by decide, rfl, ⟨_, eq_ended (s := fresh) (by decide +kernel), by decide +kernel⟩, _,
    eq_ended (s := fresh) (by decide +kernel), by decide +kernel⟩

theorem witness_ResetAbandonsCommand : wPlane.status.busy = true ∧ wPlane.inWriteFootprint 0x4FFF = false
    ∧ wPlane.inWriteFootprint 0x5007 = true := by decide +kernel

theorem witness_FdctqWritesLevels : PlaneReady 1 .u wPlane
    ∧ ∀ a b, a < blockSize 1 → b < blockSize 1 →
      s16ok (rn (fwdInt (blockSize 1) (fun x y => Memory.elem wPlane.mem
        (wPlane.latch.regs.src.toNat + 2 * (y * blockSize 1 + x))) a b)
        (qtab wPlane.cfg (blockSize 1) .u a b * 2 ^ 28)) = true :=
  ⟨wPlane_ready, grid (by decide +kernel)⟩

theorem witness_DqidctWritesSamples : PlaneReady 1 .u wPlane
    ∧ ∀ x y, x < blockSize 1 → y < blockSize 1 →
      s16ok (128 + rn (invInt (blockSize 1) (fun a b => Memory.elem wPlane.mem
        (wPlane.latch.regs.src.toNat + 2 * (b * blockSize 1 + a)) * (qtab wPlane.cfg (blockSize 1) .u a b : Int)) x y)
        (2 ^ 28)) = true :=
  ⟨wPlane_ready, grid (by decide +kernel)⟩

/-- The hypothesis of XFWD on a state: every level fits, computed. -/
def xfwdOk (sz : BitVec 4) (s : State) : Prop :=
  let n := blockSize sz
  let src := s.latch.regs.src.toNat
  ∀ w ∈ forwardWrites s.cfg s.latch.regs.dst.toNat n (fun i j => Memory.elem s.mem (src + 2 * (j * n + i)))
      (fun i j => Memory.elem s.mem (src + 2 * n ^ 2 + 2 * (j * (n / 2) + i)))
      (fun i j => Memory.elem s.mem (src + 2 * n ^ 2 + 2 * (n / 2) ^ 2 + 2 * (j * (n / 2) + i))),
    s16ok w.2 = true

/-- A block command of size 8 on a bundle of 128s, or on levels 0. -/
def wBlock8 (v : Int) : State := inFlight 0x00000303 false regs8 oneRef (elems 0x4000 (List.replicate 96 v))

theorem wBlock8_ready (v : Int) : BlockReady 3 (wBlock8 v) :=
  ⟨rfl, (⟨by decide, by decide⟩ : baseOk regs8.src), (⟨by decide, by decide⟩ : baseOk regs8.dst),
    canAccess_low rfl rfl (show regs8.src.toNat + 3 * blockSize 3 ^ 2 ≤ 0xF0000000 by decide),
    canAccess_low rfl rfl (show regs8.dst.toNat + 3 * blockSize 3 ^ 2 ≤ 0xF0000000 by decide), rfl⟩

theorem sumTo_congr {n : Nat} {f g : Nat → Int} (h : ∀ k, k < n → f k = g k) : sumTo n f = sumTo n g := by
  induction n with
  | zero => rfl
  | succ n ih => rw [sumTo, sumTo, ih fun k hk => h k (by omega), h n (by omega)]

/-- The levels of a plane depend on its `m × m` samples only. -/
theorem quant_congr {m : Nat} (q : QTable) {p p' : Plane} (h : ∀ x y, x < m → y < m → p x y = p' x y) :
    quant m q p = quant m q p' := by
  have e : ∀ a b, fwdInt m p a b = fwdInt m p' a b := fun a b =>
    sumTo_congr fun x hx => sumTo_congr fun y hy => by rw [h x y hx hy]
  funext a b
  rw [quant, quant, e]

/-- The samples of a plane of levels depend on its `m × m` levels only. -/
theorem recon_congr {m : Nat} (q : QTable) {l l' : Plane} (h : ∀ a b, a < m → b < m → l a b = l' a b) :
    recon m q l = recon m q l' := by
  have e : ∀ x y, invInt m (deq q l) x y = invInt m (deq q l') x y := fun x y =>
    sumTo_congr fun a ha => sumTo_congr fun b hb => by rw [deq, deq, h a b ha hb]
  funext x y
  rw [recon, recon, e]

/-- The writes of XFWD for `N` = 8 depend on the samples of its one sub-unit only. -/
theorem forwardWrites_congr8 {p : Params} {b : Nat} {y u v y' u' v' : Plane}
    (hy : ∀ i j, i < 8 → j < 8 → y i j = y' i j) (hu : ∀ i j, i < 4 → j < 4 → u i j = u' i j)
    (hv : ∀ i j, i < 4 → j < 4 → v i j = v' i j) : forwardWrites p b 8 y u v = forwardWrites p b 8 y' u' v' := by
  have h1 : subUnits 8 = [(0, 0)] := rfl
  have hs : ∀ {m : Nat} {q : QTable} {x x' : Plane}, (∀ i j, i < m → j < m → x i j = x' i j) →
      quant m q (subPlane m 0 0 x) = quant m q (subPlane m 0 0 x') := fun h =>
    quant_congr _ fun i j hi hj => by simpa [subPlane] using h i j hi hj
  rw [forwardWrites, forwardWrites, if_neg (by decide), if_neg (by decide), h1]
  simp only [List.flatMap_cons, List.flatMap_nil, hs hy, hs hu, hs hv]

/-- `N` = 4 and `N` = 8; and, with a table of ones, a level outside `S16`. -/
theorem witness_XfwdWritesCoefficientList :
    (BlockReady 2 wBlock ∧ xfwdOk 2 wBlock ∧ blockSize 2 = 4)
      ∧ (BlockReady 3 (wBlock8 128) ∧ xfwdOk 3 (wBlock8 128) ∧ blockSize 3 ≠ 4)
      ∧ ∃ w ∈ forwardWrites { Params.tc1 with ql4 := List.replicate 16 1 } 0x5000 4
        (fun i j => Memory.elem (elems 0x4000 (List.replicate 16 32767)) (0x4000 + 2 * (j * 4 + i)))
        (fun _ _ => 0) (fun _ _ => 0), s16ok w.2 = false := by
  refine ⟨⟨wBlock_ready, ?_, rfl⟩, ⟨wBlock8_ready 128, ?_, by decide⟩, ?_⟩
  · unfold xfwdOk; decide +kernel
  · have hy : ∀ x y, x < 8 → y < 8 → Memory.elem (wBlock8 128).mem (0x4000 + 2 * (y * 8 + x)) = 128 :=
      grid (by decide +kernel)
    have hu : ∀ x y, x < 4 → y < 4 → Memory.elem (wBlock8 128).mem (0x4000 + 2 * 8 ^ 2 + 2 * (y * (8 / 2) + x)) = 128 :=
      grid (by decide +kernel)
    have hv : ∀ x y, x < 4 → y < 4 →
        Memory.elem (wBlock8 128).mem (0x4000 + 2 * 8 ^ 2 + 2 * (8 / 2) ^ 2 + 2 * (y * (8 / 2) + x)) = 128 :=
      grid (by decide +kernel)
    have e := forwardWrites_congr8 (p := Params.tc1) (b := 0x5000) (y' := fun _ _ => 128) (u' := fun _ _ => 128)
      (v' := fun _ _ => 128) hy hu hv
    have h : ∀ w ∈ forwardWrites Params.tc1 0x5000 8 (fun _ _ => 128) (fun _ _ => 128) (fun _ _ => 128),
        s16ok w.2 = true := by decide +kernel
    rw [← e] at h
    exact h
  · exact ⟨_, List.mem_cons_self, by decide +kernel⟩

/-- `N` = 4 and `N` = 8; and a sample outside `S16`. -/
theorem witness_XinvWritesBundle :
    let levels := fun (s : State) (d m : Nat) => fun a b => Memory.elem s.mem (d + 2 * (b * m + a))
    let unit := fun x y m => 0x4000 + 192 * ((y / m) * (8 / 8) + x / m)
    let r := { wBlock with mem := elems 0x4000 (32767 :: List.replicate 23 0) }
    (BlockReady 2 wBlock ∧ blockSize 2 = 4
        ∧ (∀ i j, i < 4 → j < 4 → s16ok (recon 4 (qtab wBlock.cfg 4 .l) (levels wBlock 0x4000 4) i j) = true)
        ∧ ∀ i j, i < 2 → j < 2 → s16ok (recon 2 (qtab wBlock.cfg 2 .c) (levels wBlock (0x4000 + 32) 2) i j) = true
          ∧ s16ok (recon 2 (qtab wBlock.cfg 2 .c) (levels wBlock (0x4000 + 40) 2) i j) = true)
      ∧ (BlockReady 3 (wBlock8 0) ∧ blockSize 3 = 8
        ∧ (∀ i j, i < 8 → j < 8 → s16ok (recon 8 (qtab (wBlock8 0).cfg 8 .l) (levels (wBlock8 0) (unit i j 8) 8)
          (i % 8) (j % 8)) = true)
        ∧ ∀ i j, i < 4 → j < 4 →
          s16ok (recon 4 (qtab (wBlock8 0).cfg 4 .c) (levels (wBlock8 0) (unit i j 4 + 128) 4) (i % 4) (j % 4)) = true
          ∧ s16ok (recon 4 (qtab (wBlock8 0).cfg 4 .c) (levels (wBlock8 0) (unit i j 4 + 160) 4) (i % 4) (j % 4))
            = true)
      ∧ s16ok (recon 4 (qtab r.cfg 4 .l) (levels r 0x4000 4) 0 0) = false :=
  ⟨⟨wBlock_ready, rfl, grid (by decide +kernel), grid (by decide +kernel)⟩,
    ⟨wBlock8_ready 0, rfl, by
      have h : ∀ a b, a < 8 → b < 8 → Memory.elem (wBlock8 0).mem (0x4000 + 2 * (b * 8 + a)) = 0 :=
        grid (by decide +kernel)
      intro i j hi hj
      have e : i / 8 = 0 ∧ j / 8 = 0 := by omega
      simp only [e.1, e.2, Nat.zero_mul, Nat.mul_zero, Nat.add_zero]
      rw [recon_congr (m := 8) _ h]
      revert i j
      exact grid (by decide +kernel), by
      have h : ∀ a b, a < 4 → b < 4 → Memory.elem (wBlock8 0).mem (0x4000 + 128 + 2 * (b * 4 + a)) = 0 :=
        grid (by decide +kernel)
      have h' : ∀ a b, a < 4 → b < 4 → Memory.elem (wBlock8 0).mem (0x4000 + 160 + 2 * (b * 4 + a)) = 0 :=
        grid (by decide +kernel)
      intro i j hi hj
      have e : i / 4 = 0 ∧ j / 4 = 0 := by omega
      simp only [e.1, e.2, Nat.zero_mul, Nat.mul_zero, Nat.add_zero]
      rw [recon_congr (m := 4) _ h, recon_congr (m := 4) _ h']
      revert i j
      exact grid (by decide +kernel)⟩, by decide +kernel⟩

theorem witness_SmallSamplesNeverOverflow : (∀ a b : Nat, a < 8 → b < 8 → 1 ≤ (fun _ _ => 1 : QTable) a b)
    ∧ ∀ x y : Nat, x < 8 → y < 8 → ((fun _ _ => -3967 : Plane) x y - 128).natAbs ≤ 4095 := by
  constructor <;> intros <;> simp

theorem witness_ExtractCopiesBlock : FrameReady 2 wFrame ∧ Latch.resolve wFrame.latch = some (planesAt 0x2000)
    ∧ (-1 : Int) = wFrame.latch.regs.mx ∧ (0 : Int) = wFrame.latch.regs.my ∧ RasterReady wFrame (planesAt 0x2000)
    ∧ wFrame.latch.regs.cur = planesAt 0x1000 ∧ RasterReady wFrame (planesAt 0x1000)
    ∧ wFrame.latch.regs.comp = planesAt 0x3000 ∧ RasterReady wFrame (planesAt 0x3000)
    ∧ BufferReady wFrame wFrame.latch.regs.dst (5 * blockSize 2 ^ 2) :=
  ⟨wFrame_ready, by decide, by decide, by decide, rasterReady8 rfl rfl rfl rfl (by simp), rfl,
    rasterReady8 rfl rfl rfl rfl (by simp), rfl, rasterReady8 rfl rfl rfl rfl (by simp), ⟨by decide, by decide⟩,
    canAccess_low rfl rfl (by decide)⟩

theorem witness_CostReportsCost : FrameReady 2 wFrame ∧ RasterReady wFrame wFrame.latch.regs.cur
    ∧ Latch.resolve wFrame.latch = some (planesAt 0x2000) ∧ RasterReady wFrame (planesAt 0x2000) :=
  ⟨wFrame_ready, rasterReady8 (base := 0x1000) rfl rfl rfl rfl (by simp), by decide,
    rasterReady8 rfl rfl rfl rfl (by simp)⟩

/-- With a reference at the top left corner; without one at the bottom right. -/
theorem witness_MsearchReportsBest :
    let s := { wFrame with latch := { wFrame.latch with refs := RefTable.empty, regs := at8 7 7 0 0 } }
    (FrameReady 2 wFrame ∧ RasterReady wFrame wFrame.latch.regs.cur
        ∧ (∀ tr ∈ Latch.searchOrder wFrame.latch, RasterReady wFrame tr.2) ∧ Latch.searchOrder wFrame.latch ≠ []
        ∧ 0 ≤ wFrame.latch.regs.sx ∧ wFrame.latch.regs.sx < wFrame.latch.regs.w ∧ 0 ≤ wFrame.latch.regs.sy
        ∧ wFrame.latch.regs.sy < wFrame.latch.regs.h)
      ∧ (FrameReady 2 s ∧ RasterReady s s.latch.regs.cur ∧ Latch.searchOrder s.latch = []
        ∧ 0 ≤ s.latch.regs.sx ∧ s.latch.regs.sx < s.latch.regs.w ∧ 0 ≤ s.latch.regs.sy
        ∧ s.latch.regs.sy < s.latch.regs.h) := by
  have hs : Latch.searchOrder wFrame.latch = [(4, planesAt 0x2000)] := by decide
  refine ⟨⟨wFrame_ready, rasterReady8 (base := 0x1000) rfl rfl rfl rfl (by simp), fun tr h => ?_, by rw [hs]; simp,
    by decide⟩, ⟨rfl, rfl, rfl, rfl⟩, rasterReady8 (base := 0x1000) rfl rfl rfl rfl (by simp), by decide, by decide⟩
  rw [hs, List.mem_singleton] at h
  rw [h]
  exact rasterReady8 rfl rfl rfl rfl (by simp)

/-- The extreme samples, in opposite blocks, at the largest size. -/
theorem witness_CostProperties : Instr.blockSizeOk 7 = true
    ∧ s16ok (-32768) = true ∧ s16ok 32767 = true ∧ ((1 : Int) = 0 ∨ (1 : Int) = 1) := by decide

/-- A target with a constant cost. -/
def wTarget : Target := ⟨4, 4, 0, 3, fun _ => 7⟩

/-- A searched position that is admissible, and one that is not. -/
theorem witness_HexSearchIsSound : wTarget.admissible (wTarget.sx, wTarget.sy) = true
    ∧ wTarget.admissible (wTarget.sx + 2, wTarget.sy + 0) = true
    ∧ (∃ b, wTarget.hexSearch.best = some b) ∧ ({ wTarget with sx := -1 }).admissible (-1, wTarget.sy) = false
    ∧ ({ wTarget with sx := -1 }).admissible (-1 + 4, wTarget.sy) = true :=
  ⟨by decide, by decide, Option.isSome_iff_exists.1 (by decide +kernel), by decide, by decide⟩

/-- A 4 × 4 frame that is its own reference. -/
def wSearch : State := inFlight 0x0000020A false { regs8 with frameW := 4, frameH := 4, vSpanX := 7 }
  { oneRef with slot0 := planesAt 0x1000 }
  (elems 0x1000 (List.replicate 16 5) ++ elems 0x1080 [1, 2, 3, 4] ++ elems 0x10A0 [5, 6, 7, 8])

theorem witness_MsearchChoosesBest : ∃ r c, searchAll 4 wSearch.latch wSearch.mem = some (r, c) := by
  obtain ⟨⟨r, c⟩, h⟩ := Option.isSome_iff_exists.1
    (show (searchAll 4 wSearch.latch wSearch.mem).isSome = true by decide +kernel)
  exact ⟨r, c, h⟩

theorem witness_ResidWritesGatedDifferences :
    let o := wFrame.latch.regs
    let b := o.extract wFrame.mem o.cur o.sx o.sy
    let c := o.extract wFrame.mem (planesAt 0x2000) o.mx o.my
    let gated := fun (d : Int) (t : Half) => if d.natAbs ≤ t.toNat then 0 else d
    FrameReady 2 wFrame ∧ RasterReady wFrame o.cur ∧ Latch.resolve wFrame.latch = some (planesAt 0x2000)
      ∧ RasterReady wFrame (planesAt 0x2000) ∧ BufferReady wFrame o.dst (3 * blockSize 2 ^ 2)
      ∧ (∀ i j, i < blockSize 2 → j < blockSize 2 → s16ok (gated (b.y i j - c.y i j) o.tY) = true)
      ∧ ∀ i j, i < blockSize 2 / 2 → j < blockSize 2 / 2 →
        s16ok (gated (b.u i j - c.u i j) o.tC) = true ∧ s16ok (gated (b.v i j - c.v i j) o.tC) = true :=
  ⟨wFrame_ready, rasterReady8 (base := 0x1000) rfl rfl rfl rfl (by simp), by decide,
    rasterReady8 rfl rfl rfl rfl (by simp), ⟨⟨by decide, by decide⟩, canAccess_low rfl rfl (by decide)⟩,
    grid (by decide +kernel), grid (by decide +kernel)⟩

/-- The sums of MC on a state. -/
def mcSums (s : State) : Plane × Plane × Plane :=
  let o := s.latch.regs
  let p := o.extract s.mem (planesAt 0x2000) o.mx o.my
  (fun i j => p.y i j + Memory.elem s.mem (o.src.toNat + 2 * (j * 4 + i)),
    fun i j => p.u i j + Memory.elem s.mem (o.src.toNat + 2 * 4 ^ 2 + 2 * (j * 2 + i)),
    fun i j => p.v i j + Memory.elem s.mem (o.src.toNat + 2 * 4 ^ 2 + 2 * 2 ^ 2 + 2 * (j * 2 + i)))

/-- And a composite whose planes share no byte, and one whose chroma planes are the same. -/
theorem witness_McComposites :
    let o := wFrame.latch.regs
    FrameReady 2 wFrame ∧ RasterReady wFrame o.comp ∧ Latch.resolve wFrame.latch = some (planesAt 0x2000)
      ∧ RasterReady wFrame (planesAt 0x2000) ∧ BufferReady wFrame o.src (3 * blockSize 2 ^ 2) ∧ blockSize 2 = 4
      ∧ (∀ i j, i < 4 → j < 4 → s16ok ((mcSums wFrame).1 i j) = true)
      ∧ (∀ i j, i < 2 → j < 2 → s16ok ((mcSums wFrame).2.1 i j) = true ∧ s16ok ((mcSums wFrame).2.2 i j) = true)
      ∧ CompDisjoint o ∧ BlockWrite o 4 (mcSums wFrame).1 (mcSums wFrame).2.1 (mcSums wFrame).2.2 0x3000 0
      ∧ ¬ CompDisjoint { o with comp := { o.comp with v := o.comp.u } } := by
  refine ⟨wFrame_ready, rasterReady8 (base := 0x3000) rfl rfl rfl rfl (by simp), by decide,
    rasterReady8 rfl rfl rfl rfl (by simp), ⟨⟨by decide, by decide⟩, canAccess_low rfl rfl (by decide)⟩, rfl,
    grid (by decide +kernel), grid (by decide +kernel), ?_, ?_, ?_⟩
  · unfold CompDisjoint; decide
  · exact Or.inl ⟨0, 0, by decide, by decide, by decide, by decide, by decide +kernel⟩
  · unfold CompDisjoint; decide

/-- A sum of 32768 at a luma sample, and one at a V sample, of a block that lies outside the frame but for one
corner. -/
theorem witness_McChecksEverySum :
    let s := inFlight 0x00000210 false (at8 (-3) (-3) (-3) (-3)) oneRef
      (rasterT 0x2000 4 ++ elems 0x4000 (0 :: 32767 :: List.replicate 21 0 ++ [32600]))
    let p := s.latch.regs.extract s.mem (planesAt 0x2000) s.latch.regs.mx s.latch.regs.my
    FrameReady 2 s ∧ RasterReady s s.latch.regs.comp ∧ Latch.resolve s.latch = some (planesAt 0x2000)
      ∧ RasterReady s (planesAt 0x2000) ∧ BufferReady s s.latch.regs.src (3 * blockSize 2 ^ 2)
      ∧ (∃ i j, i < blockSize 2 ∧ j < blockSize 2
        ∧ s16ok (p.y i j + Memory.elem s.mem (s.latch.regs.src.toNat + 2 * (j * blockSize 2 + i))) = false)
      ∧ ∃ i j, i < blockSize 2 / 2 ∧ j < blockSize 2 / 2
        ∧ s16ok (p.v i j + Memory.elem s.mem (s.latch.regs.src.toNat + 2 * blockSize 2 ^ 2
          + 2 * (blockSize 2 / 2) ^ 2 + 2 * (j * (blockSize 2 / 2) + i))) = false :=
  ⟨⟨rfl, rfl, rfl, rfl⟩, rasterReady8 (base := 0x3000) rfl rfl rfl rfl (by simp), by decide,
    rasterReady8 rfl rfl rfl rfl (by simp), ⟨⟨by decide, by decide⟩, canAccess_low rfl rfl (by decide)⟩,
    ⟨1, 0, by decide, by decide, by decide +kernel⟩, 1, 1, by decide, by decide, by decide +kernel⟩

/-- A difference of 32768, for the fault of RESID. -/
theorem witness_ResidWritesGatedDifferences_range :
    let s := inFlight 0x0000020B false regs8 oneRef (elems 0x1000 [32767] ++ elems 0x2000 [-1])
    let o := s.latch.regs
    let d := (o.extract s.mem o.cur o.sx o.sy).y 0 0 - (o.extract s.mem (planesAt 0x2000) o.mx o.my).y 0 0
    FrameReady 2 s ∧ s16ok (if d.natAbs ≤ o.tY.toNat then 0 else d) = false :=
  ⟨⟨rfl, rfl, rfl, rfl⟩, by decide +kernel⟩

theorem witness_IntraOverwrites : FrameReady 2 wFrame ∧ RasterReady wFrame wFrame.latch.regs.comp
    ∧ BufferReady wFrame wFrame.latch.regs.src (3 * blockSize 2 ^ 2) ∧ CompDisjoint wFrame.latch.regs
    ∧ BlockWrite wFrame.latch.regs 4 (fun _ _ => 0) (fun _ _ => 0) (fun _ _ => 0) 0x3000 0 := by
  refine ⟨wFrame_ready, rasterReady8 (base := 0x3000) rfl rfl rfl rfl (by simp),
    ⟨⟨by decide, by decide⟩, canAccess_low rfl rfl (by decide)⟩, ?_, ?_⟩
  · unfold CompDisjoint; decide
  · exact Or.inl ⟨0, 0, by decide, by decide, by decide, by decide, by decide⟩

/-- A vertical step in the composite. -/
def wStep (x y : Int) : State := inFlight 0x00000212 false (at8 x y 0 0) oneRef
  (elems 0x3000 ((cells 8).map fun c => if c.1 < 4 then 100 else 104))

theorem witness_DblkFiltersPlane :
    let s := wStep 4 4
    let o := s.latch.regs
    FrameReady 2 s ∧ RasterReady s o.comp
      ∧ ∃ after, deblocked (filterParams s.cfg o) o (blockSize 2)
        (fun x y => Memory.elem s.mem (o.comp.y.toNat + 2 * (y * o.w + x))) = some after :=
  ⟨⟨rfl, rfl, rfl, rfl⟩, rasterReady8 (base := 0x3000) rfl rfl rfl rfl (by simp),
    Option.isSome_iff_exists.1 (by decide +kernel)⟩

/-- A filter result of 32768, for the fault of DBLK. -/
theorem witness_DblkFiltersPlane_range :
    let s := inFlight 0x00000212 false { at8 4 4 0 0 with dbkStrength := 3 } oneRef
      (elems 0x3040 [32767, 32767, 32767, 32767, 32767, 32762, 32762, 32762])
    let o := s.latch.regs
    FrameReady 2 s ∧ (deblocked (filterParams s.cfg o) o (blockSize 2)
      (fun x y => Memory.elem s.mem (o.comp.y.toNat + 2 * (y * o.w + x)))).isNone = true :=
  ⟨⟨rfl, rfl, rfl, rfl⟩, by decide +kernel⟩

/-- Boundaries: column 0, row 0, a negative position. -/
theorem witness_DblkAtFrameEdgeWritesNothing :
    (FrameReady 2 (wStep 0 4) ∧ RasterReady (wStep 0 4) (wStep 0 4).latch.regs.comp ∧ (wStep 0 4).latch.regs.sx ≤ 0)
      ∧ (FrameReady 2 (wStep 4 0) ∧ RasterReady (wStep 4 0) (wStep 4 0).latch.regs.comp
        ∧ (wStep 4 0).latch.regs.sy ≤ 0) ∧ (wStep (-4) 4).latch.regs.sx ≤ 0 :=
  ⟨⟨⟨rfl, rfl, rfl, rfl⟩, rasterReady8 (base := 0x3000) rfl rfl rfl rfl (by simp), by decide⟩,
    ⟨⟨rfl, rfl, rfl, rfl⟩, rasterReady8 (base := 0x3000) rfl rfl rfl rfl (by simp), by decide⟩, by decide⟩

/-- Boundaries: the leftmost and the rightmost, the topmost and the lowest edge that has its six samples, the first
and the last row or column. -/
theorem witness_DblkFiltersBothEdges :
    (∀ p ∈ ([(3, 1, 3), (5, 1, 4), (4, 4, 6), (4, 4, 7)] : List (Int × Int × Nat)),
      let o := (wStep p.1 p.2.1).latch.regs
      3 ≤ o.sx ∧ o.sx + 2 < o.w ∧ 0 < o.sy ∧ o.sy + 2 ≤ p.2.2 ∧ (p.2.2 : Int) < o.sy + blockSize 2 ∧ p.2.2 < o.h)
      ∧ (∀ p ∈ ([(1, 3, 3), (1, 5, 4), (4, 4, 6), (4, 4, 7)] : List (Int × Int × Nat)),
        let o := (wStep p.1 p.2.1).latch.regs
        3 ≤ o.sy ∧ o.sy + 2 < o.h ∧ 0 < o.sx ∧ o.sx + 2 ≤ p.2.2 ∧ (p.2.2 : Int) < o.sx + blockSize 2 ∧ p.2.2 < o.w)
      ∧ FrameReady 2 (wStep 4 4) ∧ RasterReady (wStep 4 4) (wStep 4 4).latch.regs.comp
      ∧ (wStep 4 4).status.done = false
      ∧ ∃ t, exec (.dblk 2) (wStep 4 4) = .next t ∧ t.status.done = true :=
  ⟨by decide, by decide, ⟨rfl, rfl, rfl, rfl⟩, rasterReady8 (base := 0x3000) rfl rfl rfl rfl (by simp), rfl, _,
    eq_ended (s := fresh) (by decide +kernel), by decide +kernel⟩

/-- Both outcomes of the filter, and `c = 0`. -/
theorem witness_FilterIsBounded : (0 : Int) ≤ (⟨8, 4, 2⟩ : FilterParams).c ∧ (0 : Int) ≤ (⟨0, 0, 0⟩ : FilterParams).c
    ∧ (∃ r, filt ⟨8, 4, 2⟩ ⟨100, 100, 100, 104, 104, 104⟩ = some r)
    ∧ filt ⟨0, 0, 0⟩ ⟨100, 100, 100, 100, 100, 100⟩ = none := by
  exact ⟨by decide, by decide, ⟨_, rfl⟩, by decide⟩

theorem witness_RefpushShiftsTable : frameDimLegal wPlane.latch.regs.frameW = true
    ∧ frameDimLegal wPlane.latch.regs.frameH = true ∧ baseOk wPlane.latch.regs.push.y
    ∧ baseOk wPlane.latch.regs.push.u ∧ baseOk wPlane.latch.regs.push.v
    ∧ ∀ r ∈ Operands.rasterRegions wPlane.latch.regs wPlane.latch.regs.push, r.base + r.bytes ≤ 2 ^ 32 :=
  ⟨rfl, rfl, ⟨by decide, by decide⟩, ⟨by decide, by decide⟩, ⟨by decide, by decide⟩, by decide⟩

/-- Boundaries: a full table; `V_REF` 4, 3, 1 and -1. -/
theorem witness_PushRenumbersReferences : ({ oneRef with count := 4 }).count.toNat ≤ 4
    ∧ (4 : Half).toInt = 4 ∧ (1 ≤ (3 : Half).toInt ∧ (3 : Half).toInt ≤ 3 ∧ (4 : Half).toInt = (3 : Half).toInt + 1)
    ∧ (1 ≤ (1 : Half).toInt ∧ (2 : Half).toInt = (1 : Half).toInt + 1) ∧ (0xFFFF : Half).toInt = -1 := by decide

/-- Just below the window; in and next to the footprint of the command in flight. -/
theorem witness_HostStoreWritesBytes :
    (∀ k, k < BusSize.bytes .word → Params.backed wPlane.cfg ((0xEFFFFFFC : Word).toNat + k) = true)
      ∧ (∀ k, k < BusSize.bytes .byte → Params.backed wPlane.cfg ((0x4007 : Word).toNat + k) = true)
      ∧ wPlane.inFootprint 0x4007 = true ∧ wPlane.inFootprint 0x4008 = false := by decide +kernel

theorem witness_HostLoadReadsBytes :
    (∀ k, k < BusSize.bytes .half → Params.backed wPlane.cfg ((0x5000 : Word).toNat + k) = true)
      ∧ wPlane.inWriteFootprint 0x5000 = true := by decide +kernel

theorem witness_CommandEndsInDoneOrError : (∃ t, exec .nop fresh = .next t)
    ∧ ∃ t, exec (.xfwd 1) wBlock = .next t ∧ t.status.err = true :=
  ⟨⟨_, rfl⟩, _, eq_ended (s := fresh) (by decide +kernel), by decide +kernel⟩

theorem witness_CommandFrame : (∃ t, exec .nop fresh = .next t ∧ jobOf .nop fresh = none)
    ∧ ∃ t, exec (.fdctq 1 .u) wPlane = .next t ∧ ∃ j, jobOf (.fdctq 1 .u) wPlane = some j :=
  ⟨⟨_, rfl, rfl⟩, _, eq_ended (s := fresh) (by decide +kernel), _, rfl⟩

/-- A command that writes no register, one that writes result registers, one that writes the reference table. -/
theorem witness_LatchedOperandsDecide : (∃ t, exec (.fdctq 1 .u) wPlane = .next t)
    ∧ (∃ t, exec (.msearch 2) wSearch = .next t ∧ t.regs ≠ wSearch.regs) ∧ ∃ t, exec .refclr wPlane = .next t :=
  ⟨⟨_, eq_ended (s := fresh) (by decide +kernel)⟩,
    ⟨_, eq_ended (s := fresh) (by decide +kernel), by decide +kernel⟩, _, rfl⟩

theorem wPlane_inv : State.Inv wPlane where
  flags := ⟨fun _ => ⟨rfl, rfl⟩, fun _ => rfl⟩
  errorLatch := ⟨⟨fun _ => rfl, fun _ => rfl⟩, fun _ => rfl, fun h => absurd h (by decide)⟩
  latch := ⟨fun _ => ⟨rfl, rfl, rfl⟩, fun h => absurd h (by decide)⟩
  table := ⟨by decide, ⟨fun _ => ⟨⟨by decide, by decide⟩, ⟨by decide, by decide⟩, ⟨by decide, by decide⟩⟩,
      fun h => absurd (by decide) h⟩, ⟨fun h => absurd h (by decide), fun _ => rfl⟩,
    ⟨fun h => absurd h (by decide), fun _ => rfl⟩, ⟨fun h => absurd h (by decide), fun _ => rfl⟩⟩
  memWf := by decide +kernel
  memBounded := by unfold Memory.Bounded; decide +kernel
  params := by decide

/-- The hypotheses of the three invariants, with a command in flight that completes. -/
theorem witness_StepKeepsInvariants : State.FlagsOk wPlane ∧ State.ErrorLatchOk wPlane ∧ State.LatchOk wPlane
    ∧ RefTable.Ok wPlane.refs ∧ Memory.wf wPlane.mem = true ∧ Memory.Bounded wPlane.mem
    ∧ ∃ t, step wPlane = .next t :=
  ⟨wPlane_inv.flags, wPlane_inv.errorLatch, wPlane_inv.latch, wPlane_inv.table, wPlane_inv.memWf,
    wPlane_inv.memBounded, _, eq_ended (s := fresh) (by decide +kernel)⟩

end Sys2Proof.Tests
end

/-! PROOFS of the statements about the machine's state (10_state.md). First: how a command ends, and what every step
keeps. -/

namespace Sys2Proof.Machine

section Completion

/-! ## How a command ends -/

/-- The result registers a completion of job `j` may write: those of the job, or, after a race, free values in the
same registers. -/
def Job.MayReport (j : Job) (r : Results) : Prop := r = j.results ∨ ∃ c, r = Results.raced c j.results

/-- The completion of a memory command: a fault that is no check, or success with writes in the footprint. The counter
of free values may have moved before it. -/
inductive Job.Ends (j : Job) (s : State) : State → Prop where
  | range (c : Nat) : Job.Ends j s (State.trap .range { s with freeCtr := c })
  | bus (c : Nat) : Job.Ends j s (State.busFault j.foot { s with freeCtr := c })
  | success (c : Nat) (ws : List (Nat × Int)) (r : Results) (hws : ∀ w ∈ ws, w.1 ∈ j.foot) (hr : j.MayReport r) :
      Job.Ends j s (State.succeed ws r { s with freeCtr := c })

theorem State.perform_ends {i : Instr} {j : Job} {s t : State} (hj : jobOf i s = some j)
    (h : State.perform j s = .next t) : j.Ends s t := by
  rcases State.perform_next h with ⟨-, rfl⟩ | ⟨-, rfl⟩
  · rcases State.performRaced_cases j s with e | ⟨-, e⟩ | e <;> rw [e]
    · exact .bus _
    · exact .range _
    · exact .success _ _ _ (freeWrites_in_foot _ _) (.inr ⟨_, rfl⟩)
  · rcases State.performQuiet_cases j s with e | ⟨-, e⟩ | ⟨ws, hws, e⟩ <;> rw [e]
    · exact .bus s.freeCtr
    · exact .range s.freeCtr
    · exact .success s.freeCtr ws _ (Job.writes_in_foot hj hws) (.inl rfl)

/-- What every completion leaves of the flags, the error registers and the latch: `BUSY` is low, the latch and the
marks on it are empty, and either `DONE` rose or the error latch was taken. -/
structure State.Ended (s t : State) : Prop where
  busy : t.status.busy = false
  latch : t.latch = Latch.empty
  raced : t.raced = false
  busRefused : t.busRefused = []
  cmd : t.cmd = s.cmd
  outcome : (t.status.done = true ∧ t.status.err = s.status.err ∧ t.errCode = s.errCode ∧ t.errInfo = s.errInfo)
    ∨ (t.status.done = s.status.done ∧ t.status.err = true ∧ (∃ e, t.errCode = some e) ∧ t.errInfo = s.latch.word)

theorem State.trap_ended (e : ErrCode) (s : State) : State.Ended s (State.trap e s) :=
  ⟨rfl, rfl, rfl, rfl, rfl, .inr ⟨rfl, rfl, ⟨e, rfl⟩, rfl⟩⟩

theorem State.finish_ended (s : State) : State.Ended s (State.finish s) :=
  ⟨rfl, rfl, rfl, rfl, rfl, .inl ⟨rfl, rfl, rfl, rfl⟩⟩

theorem State.Ended.setRefs {s t : State} (h : State.Ended s t) (f : RefTable) : State.Ended s { t with refs := f } :=
  ⟨h.busy, h.latch, h.raced, h.busRefused, h.cmd, h.outcome⟩

theorem Job.Ends.ended {j : Job} {s t : State} (h : j.Ends s t) : State.Ended s t := by
  cases h with
  | range c => exact ⟨rfl, rfl, rfl, rfl, rfl, .inr ⟨rfl, rfl, ⟨_, rfl⟩, rfl⟩⟩
  | bus c => exact ⟨rfl, rfl, rfl, rfl, rfl, .inr ⟨rfl, rfl, ⟨_, rfl⟩, rfl⟩⟩
  | success c ws r => constructor <;> simp

theorem exec_ended {i : Instr} {s t : State} (h : exec i s = .next t) : State.Ended s t := by
  rcases exec_next h with ⟨e, -, rfl⟩ | ⟨-, j, hj, hp⟩ | ⟨-, rfl⟩ | ⟨-, rfl⟩ | ⟨-, -, rfl⟩
  · exact State.trap_ended e s
  · exact (State.perform_ends hj hp).ended
  · exact State.finish_ended s
  · exact State.finish_ended s |>.setRefs RefTable.empty
  · exact State.finish_ended s |>.setRefs (RefTable.pushed s.latch.refs s.latch.regs.push)

theorem Job.Ends.refs {j : Job} {s t : State} (h : j.Ends s t) : t.refs = s.refs := by
  cases h with
  | range c => rfl
  | bus c => rfl
  | success c ws r => simp

/-- The core's turn leaves an idle core as it is, and ends the command of a busy one. -/
theorem State.turn_ended {s t : State} (h : State.turn s = .next t) :
    (s.status.busy = false ∧ t = s) ∨ (s.status.busy = true ∧ State.Ended s t) := by
  rcases State.turn_next h with hidle | ⟨hb, -, rfl⟩ | ⟨hb, i, -, he⟩
  · exact .inl hidle
  · exact .inr ⟨hb, State.trap_ended .illegal s⟩
  · exact .inr ⟨hb, exec_ended he⟩

/-- Settles O55: each way a command ends is a `State.Ended`. -/
theorem commandEndsInDoneOrError : Obligations.CommandEndsInDoneOrError := by
  intro i s t h
  have he := exec_ended h
  exact ⟨he.busy, he.latch, he.outcome⟩

end Completion

section Latches

/-! ## Flags, error latch and in-flight latch -/

/-- The three consistency conditions that speak of the flags. -/
structure State.LatchesOk (s : State) : Prop where
  flags : State.FlagsOk s
  errorLatch : State.ErrorLatchOk s
  latch : State.LatchOk s

/-- A completion keeps the latches: before it no error was latched, so success leaves none, and a fault latches the
word that `CMD` still holds. -/
theorem State.Ended.latchesOk {s t : State} (h : State.Ended s t) (hb : s.status.busy = true)
    (hs : State.LatchesOk s) : State.LatchesOk t := by
  obtain ⟨hbusy, hlatch, hraced, hrefused, hcmd, hout⟩ := h
  obtain ⟨hdone, herr⟩ := hs.flags.1 hb
  obtain ⟨hcode, hinfo, -⟩ := hs.errorLatch
  have hword := (hs.latch.1 hb).2.2
  have hidle : State.LatchOk t := ⟨by simp [hbusy], fun _ => ⟨hlatch, hraced, hrefused⟩⟩
  rcases hout with ⟨-, herr', hcode', hinfo'⟩ | ⟨hdone', herr', ⟨e, hcode'⟩, hinfo'⟩
  · exact ⟨by simp [State.FlagsOk, hbusy, herr', herr],
      by simp [State.ErrorLatchOk, hcode', herr', herr, hinfo', hinfo herr, hcode.mpr herr], hidle⟩
  · exact ⟨by simp [State.FlagsOk, hbusy, hdone', hdone],
      by simp [State.ErrorLatchOk, hcode', herr', hinfo', hword, hcmd], hidle⟩

theorem State.turn_latchesOk {s t : State} (h : State.turn s = .next t) (hs : State.LatchesOk s) :
    State.LatchesOk t := by
  rcases State.turn_ended h with ⟨-, rfl⟩ | ⟨hb, he⟩
  · exact hs
  · exact he.latchesOk hb hs

theorem State.resetCore_latchesOk (s : State) : State.LatchesOk (State.resetCore s) :=
  ⟨by simp [State.FlagsOk], by simp [State.ErrorLatchOk], by simp [State.LatchOk]⟩

theorem State.launch_latchesOk (w : Word) {s : State} (herr : s.status.err = false) (hs : State.LatchesOk s) :
    State.LatchesOk (State.launch w s) := by
  obtain ⟨hcode, hinfo, -⟩ := hs.errorLatch
  exact ⟨by simp [State.FlagsOk, herr], by simp [State.ErrorLatchOk, herr, hcode.mpr herr, hinfo herr],
    by simp [State.LatchOk]⟩

/-- A change of the flags that leaves `BUSY` and `ERR` alone and does not raise `DONE` keeps the latches. -/
theorem State.LatchesOk.setStatus {s : State} {f : Status} (hs : State.LatchesOk s)
    (hbusy : f.busy = s.status.busy) (herr : f.err = s.status.err) (hdone : s.status.done = false → f.done = false) :
    State.LatchesOk { s with status := f } := by
  obtain ⟨⟨hlaunched, herror⟩, herrorLatch, hlatch⟩ := hs
  refine ⟨?_, ?_, ?_⟩
  · simp only [State.FlagsOk, hbusy, herr]
    exact ⟨fun hb => ⟨hdone (hlaunched hb).1, (hlaunched hb).2⟩, fun he => hdone (herror he)⟩
  · simpa only [State.ErrorLatchOk, herr] using herrorLatch
  · simpa only [State.LatchOk, hbusy] using hlatch

theorem State.setRegs_latchesOk {s : State} (o : Operands) (hb : s.status.busy = false) (hs : State.LatchesOk s) :
    State.LatchesOk { s with regs := o } :=
  ⟨hs.flags, hs.errorLatch, by simp [hb], fun _ => hs.latch.2 hb⟩

theorem State.writeReg_latchesOk (r : Reg) (v : Word) {s : State} (hs : State.LatchesOk s) :
    State.LatchesOk (State.writeReg s r v) := by
  rcases State.writeReg_cases s r v with e | e | e | e | ⟨-, herr, e⟩ | e | ⟨hb, o, e⟩ <;> rw [e]
  · exact hs
  · exact State.resetCore_latchesOk s
  · exact ⟨hs.flags, hs.errorLatch, hs.latch⟩
  · exact hs.setStatus rfl rfl fun hd => by simp [Status.clearOnWrite, hd]
  · exact State.launch_latchesOk v herr hs
  · exact hs.setStatus rfl rfl id
  · exact State.setRegs_latchesOk o hb hs

/-- A host store marks a race only where a command is in flight. -/
theorem State.hostStore_raced_of_idle {s : State} (addr : Word) (size : BusSize) (v : Word)
    (hb : s.status.busy = false) : (State.hostStore s addr size v).raced = s.raced := by
  simp [State.hostStore, State.inFootprint_of_idle hb]

theorem State.hostStore_latchesOk (addr : Word) (size : BusSize) (v : Word) {s : State} (hs : State.LatchesOk s) :
    State.LatchesOk (State.hostStore s addr size v) := by
  refine ⟨hs.flags, hs.errorLatch, hs.latch.1, fun hb => ?_⟩
  obtain ⟨hempty, hraced, hrefused⟩ := hs.latch.2 hb
  exact ⟨hempty, (State.hostStore_raced_of_idle (s := s) addr size v hb).trans hraced, hrefused⟩

theorem State.busErrorAt_latchesOk (addr : Word) {s : State} (hs : State.LatchesOk s) :
    State.LatchesOk (State.busErrorAt s addr) := by
  unfold State.busErrorAt
  split
  · next hb => exact ⟨hs.flags, hs.errorLatch, hs.latch.1, by simp [hb]⟩
  · exact hs

/-- Settles O59: the latches are kept by the core's turn, by each host access, by a reset and by a bus error. -/
theorem stepKeepsLatches : Obligations.StepKeepsLatches := by
  intro s t hflags herror hlatch h
  obtain ⟨u, hu, hstep⟩ := step_next h
  have hs : State.LatchesOk u := by
    rcases hu with rfl | ⟨rest, rfl⟩ <;> exact ⟨hflags, herror, hlatch⟩
  have ht : State.LatchesOk t := by
    rcases hstep with hturn | ⟨addr, size, v, hw⟩ | ⟨addr, size, hr⟩ | rfl | ⟨addr, rfl⟩
    · exact State.turn_latchesOk hturn hs
    · rcases State.hostWrite_next hw with rfl | ⟨-, rfl⟩
      · exact State.writeReg_latchesOk _ v hs
      · exact State.hostStore_latchesOk addr size v hs
    · obtain ⟨d, c, rfl⟩ := State.hostRead_next hr
      exact ⟨hs.flags, hs.errorLatch, hs.latch⟩
    · exact State.resetCore_latchesOk u
    · exact State.busErrorAt_latchesOk addr hs
  exact ⟨ht.flags, ht.errorLatch, ht.latch⟩

end Latches

section ReferenceTable

/-! ## The reference table -/

theorem RefTable.empty_ok : RefTable.Ok RefTable.empty := by
  simp [RefTable.Ok, slotOk, RefTable.empty]

/-- A base register that is neither null nor odd passed its checks. -/
theorem baseOk_of_checks {bs : List Word} (hnull : anyNull bs = false) (hodd : anyOdd bs = false) :
    ∀ b ∈ bs, baseOk b :=
  fun b hb => ⟨anyNull_eq_false.mp hnull b hb, anyOdd_eq_false.mp hodd b hb⟩

/-- What REFPUSH checked of the raster it pushes (42_reconstruct.md R180). -/
theorem checkRefpush_none {l : Latch} (h : checkRefpush l = none) :
    baseOk l.regs.push.y ∧ baseOk l.regs.push.u ∧ baseOk l.regs.push.v := by
  have hpass := firstFail_none.mp h
  have hbases := baseOk_of_checks (hpass (anyNull (Raster.bases l.regs.push), .null) (by simp))
    (hpass (anyOdd (Raster.bases l.regs.push), .align) (by simp))
  simpa [Raster.bases] using hbases

/-- `REFCNT` after a push (42_reconstruct.md R180). -/
theorem RefTable.pushed_count {t : RefTable} (r : Raster) (h : t.count.toNat ≤ 4) :
    (RefTable.pushed t r).count.toNat = min (t.count.toNat + 1) 4 := by
  unfold RefTable.pushed
  split
  · simp only [BitVec.toNat_ofNat]; omega
  · simp only [BitVec.reduceToNat]; omega

theorem slotOk_congr {p q : Prop} {r : Raster} (hpq : q ↔ p) (h : slotOk p r) : slotOk q r := by
  rw [slotOk, hpq]
  exact h

/-- A push of a checked raster keeps the table legal: each slot is valid after it if its neighbour was before. -/
theorem RefTable.pushed_ok {t : RefTable} {r : Raster} (ht : RefTable.Ok t)
    (hr : baseOk r.y ∧ baseOk r.u ∧ baseOk r.v) : RefTable.Ok (RefTable.pushed t r) := by
  obtain ⟨hcount, h0, h1, h2, -⟩ := ht
  have hc := RefTable.pushed_count r hcount
  refine ⟨by omega, ⟨fun _ => hr, fun hn => absurd ?_ hn⟩, slotOk_congr ?_ h0, slotOk_congr ?_ h1,
    slotOk_congr ?_ h2⟩ <;> omega

/-- A command leaves the reference table as it was, empties it, or pushes a checked raster onto the latched one. -/
theorem exec_refs {i : Instr} {s t : State} (h : exec i s = .next t) :
    t.refs = s.refs ∨ (i = .refclr ∧ t.refs = RefTable.empty)
      ∨ (i = .refpush ∧ checkRefpush s.latch = none ∧ t.refs = RefTable.pushed s.latch.refs s.latch.regs.push) := by
  rcases exec_next h with ⟨e, -, rfl⟩ | ⟨-, j, hj, hp⟩ | ⟨-, rfl⟩ | ⟨hi, rfl⟩ | ⟨hi, hc, rfl⟩
  · exact .inl rfl
  · exact .inl (State.perform_ends hj hp).refs
  · exact .inl rfl
  · exact .inr (.inl ⟨hi, rfl⟩)
  · exact .inr (.inr ⟨hi, hc, rfl⟩)

theorem State.turn_refs_ok {s t : State} (h : State.turn s = .next t) (hl : State.LatchOk s)
    (hr : RefTable.Ok s.refs) : RefTable.Ok t.refs := by
  rcases State.turn_next h with ⟨-, rfl⟩ | ⟨-, -, rfl⟩ | ⟨hb, i, -, he⟩
  · exact hr
  · exact hr
  · obtain ⟨-, hrefs, -⟩ := hl.1 hb
    rcases exec_refs he with e | ⟨-, e⟩ | ⟨-, hc, e⟩ <;> rw [e]
    · exact hr
    · exact RefTable.empty_ok
    · exact RefTable.pushed_ok (hrefs ▸ hr) (checkRefpush_none hc)

/-- No host write reaches the reference table but a soft reset, which empties it. -/
theorem State.writeReg_refs (s : State) (r : Reg) (v : Word) :
    (State.writeReg s r v).refs = s.refs ∨ (State.writeReg s r v).refs = RefTable.empty := by
  rcases State.writeReg_cases s r v with e | e | e | e | ⟨-, -, e⟩ | e | ⟨-, o, e⟩ <;> rw [e] <;> simp

/-- Settles O60: only the core's turn and the resets write the table, and both leave it legal. -/
theorem stepKeepsReferenceTable : Obligations.StepKeepsReferenceTable := by
  intro s t hlatch hrefs h
  obtain ⟨u, hu, hstep⟩ := step_next h
  have hl : State.LatchOk u := by rcases hu with rfl | ⟨rest, rfl⟩ <;> exact hlatch
  have hr : RefTable.Ok u.refs := by rcases hu with rfl | ⟨rest, rfl⟩ <;> exact hrefs
  rcases hstep with hturn | ⟨addr, size, v, hw⟩ | ⟨addr, size, hread⟩ | rfl | ⟨addr, rfl⟩
  · exact State.turn_refs_ok hturn hl hr
  · rcases State.hostWrite_next hw with rfl | ⟨-, rfl⟩
    · rcases State.writeReg_refs u (regAt (State.windowOffset u addr)) v with e | e <;> rw [e]
      · exact hr
      · exact RefTable.empty_ok
    · exact hr
  · obtain ⟨d, c, rfl⟩ := State.hostRead_next hread
    exact hr
  · exact RefTable.empty_ok
  · simpa using hr

end ReferenceTable

end Sys2Proof.Machine

/-! PROOFS: what a command leaves unchanged, that it completes, and that the latch decides how. -/

namespace Sys2Proof.Machine

section Frame

/-! ## What a command leaves unchanged -/

/-- The fields that no command writes. -/
structure State.SameControl (s t : State) : Prop where
  cfg : t.cfg = s.cfg
  ctrl : t.ctrl = s.ctrl
  cmd : t.cmd = s.cmd
  inbox : t.inbox = s.inbox
  rdata : t.rdata = s.rdata
  ovr : t.status.ovr = s.status.ovr

theorem Job.Ends.sameControl {j : Job} {s t : State} (h : j.Ends s t) : State.SameControl s t := by
  cases h with
  | range c => exact ⟨rfl, rfl, rfl, rfl, rfl, rfl⟩
  | bus c => exact ⟨rfl, rfl, rfl, rfl, rfl, rfl⟩
  | success c ws r => constructor <;> simp

theorem exec_sameControl {i : Instr} {s t : State} (h : exec i s = .next t) : State.SameControl s t := by
  rcases exec_next h with ⟨e, -, rfl⟩ | ⟨-, j, hj, hp⟩ | ⟨-, rfl⟩ | ⟨-, rfl⟩ | ⟨-, -, rfl⟩
  · exact ⟨rfl, rfl, rfl, rfl, rfl, rfl⟩
  · exact (State.perform_ends hj hp).sameControl
  all_goals exact ⟨rfl, rfl, rfl, rfl, rfl, rfl⟩

/-- The bytes outside its write footprint survive every end of a memory command (20_memory.md R63, R69). -/
theorem Job.Ends.sameOutside {j : Job} {s t : State} (h : j.Ends s t) : Memory.SameOutsideElems j.foot s.mem t.mem := by
  intro a ha
  cases h with
  | range c => rfl
  | bus c => exact Memory.byte_scramble_of_not_mem _ _ _ _ ha
  | success c ws r hws =>
    rw [State.succeed_mem]
    exact Memory.byte_storeAll_of_not_mem ws _ _ _ fun w hw => ha w.1 (hws w hw)

/-- Only COST and MSEARCH report in result registers (10_state.md R41, R36, R37). -/
theorem jobOf_results {i : Instr} {s : State} {j : Job} (hj : jobOf i s = some j) :
    j.results = .keep ∨ ((∃ sz a, i = .cost sz a) ∧ ∃ c, j.results = .cost c)
      ∨ ((∃ sz, i = .msearch sz) ∧ ∃ m dx dy v c, j.results = .search m dx dy v c) := by
  cases i <;> simp only [jobOf, Option.some.injEq, reduceCtorEq] at hj <;> subst hj
  case cost sz a => exact .inr (.inl ⟨⟨sz, a, rfl⟩, _, rfl⟩)
  case msearch sz =>
    refine .inr (.inr ⟨⟨sz, rfl⟩, ?_⟩)
    change ∃ m dx dy v c, searchResults s.latch.regs (searchAll (blockSize sz) s.latch s.mem) = _
    cases searchAll (blockSize sz) s.latch s.mem <;> exact ⟨_, _, _, _, _, rfl⟩
  all_goals exact .inl rfl

/-- A race does not change which registers a command reports in (20_memory.md R77). -/
theorem Job.MayReport.cases {i : Instr} {s : State} {j : Job} {r : Results} (hr : j.MayReport r)
    (hj : jobOf i s = some j) :
    r = .keep ∨ ((∃ sz a, i = .cost sz a) ∧ ∃ c, r = .cost c)
      ∨ ((∃ sz, i = .msearch sz) ∧ ∃ m dx dy v c, r = .search m dx dy v c) := by
  rcases hr with rfl | ⟨n, rfl⟩
  · exact jobOf_results hj
  · rcases jobOf_results hj with e | ⟨hi, c, e⟩ | ⟨hi, m, dx, dy, v, c, e⟩ <;> rw [e]
    · exact .inl rfl
    · exact .inr (.inl ⟨hi, _, rfl⟩)
    · exact .inr (.inr ⟨hi, _, _, _, _, _, rfl⟩)

/-- Which result registers a command can have written: none, the cost, or those of a search. -/
inductive ReportedBy (i : Instr) (s t : State) : Prop where
  | none (hregs : t.regs = s.regs) (hmatch : t.status.matched = s.status.matched) (hcost : t.cost = s.cost)
  | cost (hi : ∃ sz a, i = .cost sz a) (hregs : t.regs = s.regs) (hmatch : t.status.matched = s.status.matched)
  | search (hi : ∃ sz, i = .msearch sz)
      (hregs : ∃ dx dy v, t.regs = { s.regs with vSpanX := dx, vSpanY := dy, vRef := v })

theorem Job.Ends.reportedBy {i : Instr} {j : Job} {s t : State} (h : j.Ends s t) (hj : jobOf i s = some j) :
    ReportedBy i s t := by
  cases h with
  | range c => exact .none rfl rfl rfl
  | bus c => exact .none rfl rfl rfl
  | success c ws r _ hr =>
    rcases hr.cases hj with rfl | ⟨hi, k, rfl⟩ | ⟨hi, m, dx, dy, v, k, rfl⟩
    · exact .none rfl rfl rfl
    · exact .cost hi rfl rfl
    · exact .search hi ⟨dx, dy, v, rfl⟩

theorem exec_reportedBy {i : Instr} {s t : State} (h : exec i s = .next t) : ReportedBy i s t := by
  rcases exec_next h with ⟨e, -, rfl⟩ | ⟨-, j, hj, hp⟩ | ⟨-, rfl⟩ | ⟨-, rfl⟩ | ⟨-, -, rfl⟩
  · exact .none rfl rfl rfl
  · exact (State.perform_ends hj hp).reportedBy hj
  all_goals exact .none rfl rfl rfl

/-- A command with no data path leaves data memory alone (60_exceptions.md R225). -/
theorem exec_mem_of_no_job {i : Instr} {s t : State} (h : exec i s = .next t) (hn : jobOf i s = none) :
    t.mem = s.mem := by
  rcases exec_next h with ⟨e, -, rfl⟩ | ⟨-, j, hj, -⟩ | ⟨-, rfl⟩ | ⟨-, rfl⟩ | ⟨-, -, rfl⟩
  · rfl
  · rw [hn] at hj; cases hj
  all_goals rfl

theorem exec_sameOutside {i : Instr} {s t : State} {j : Job} (h : exec i s = .next t) (hj : jobOf i s = some j) :
    Memory.SameOutsideElems j.foot s.mem t.mem := by
  rw [exec_of_jobOf hj] at h
  rcases State.runCommand_next h with ⟨e, -, rfl⟩ | ⟨-, hp⟩
  · exact fun a _ => rfl
  · exact (State.perform_ends hj hp).sameOutside

/-- Settles O56: the control fields by `exec_sameControl`, the registers by what a command can report, the table by
`exec_refs`, data memory by the write footprint. -/
theorem commandFrame : Obligations.CommandFrame := by
  intro i s t h
  obtain ⟨hcfg, hctrl, hcmd, hinbox, hrdata, hovr⟩ := exec_sameControl h
  have hrefs : i ≠ .refpush → i ≠ .refclr → t.refs = s.refs := fun hpush hclr => by
    rcases exec_refs h with e | ⟨hi, -⟩ | ⟨hi, -⟩
    · exact e
    · exact absurd hi hclr
    · exact absurd hi hpush
  refine ⟨hcfg, hctrl, hcmd, hinbox, hrdata, hovr, ?_, ?_, ?_, hrefs, exec_mem_of_no_job h,
    fun j hj => exec_sameOutside h hj⟩
  all_goals rcases exec_reportedBy h with ⟨hregs, hmatch, hcost⟩ | ⟨⟨sz, a, hi⟩, hregs, hmatch⟩ |
    ⟨⟨sz, hi⟩, dx, dy, v, hregs⟩
  -- the operand registers but for the three that a search writes
  · rw [hregs]
  · rw [hregs]
  · rw [hregs]
  -- all operand registers and MATCH, for a command that is no search
  · exact fun _ => ⟨hregs, hmatch⟩
  · exact fun _ => ⟨hregs, hmatch⟩
  · exact fun hn => absurd hi (hn sz)
  -- the cost registers, for a command that is no search and no COST
  · exact fun _ _ => hcost
  · exact fun _ hn => absurd hi (hn sz a)
  · exact fun hn _ => absurd hi (hn sz)

end Frame

section Completes

/-- A push whose checks pass succeeds (42_reconstruct.md R180). -/
theorem exec_refpush_of_pass {s : State} (h : checkRefpush s.latch = none) :
    exec .refpush s
      = .next (State.finish { s with refs := RefTable.pushed s.latch.refs s.latch.regs.push }) := by
  change execRefpush s = _
  unfold execRefpush
  rw [h]

/-! ## Every command completes -/

/-- Settles O54: a memory command whose checks pass is refused exactly by the base registers of its job, and those
are the base registers it accesses memory through. -/
theorem commandsComplete : Obligations.CommandsComplete := by
  intro i s
  cases hc : checkOf i s.latch with
  | some e => exact .inl ⟨_, exec_of_checkOf hc⟩
  | none =>
    cases hj : jobOf i s with
    | some j =>
      have hexec : exec i s = State.perform j s := by rw [exec_of_jobOf hj, hc, State.runCommand_none]
      by_cases hoff : State.OffWindow j s
      · exact .inl ⟨_, hexec.trans (State.perform_of_offWindow hoff)⟩
      · have hmis : State.baseMisplaced i s := not_not.mp fun hm => hoff ((State.offWindow_iff hj hc).mpr hm)
        have hbase : ∃ b ∈ j.bases, State.baseInWindow s b = true := by simpa [State.OffWindow] using hoff
        exact .inr ⟨hexec.trans (State.perform_refused.mpr hbase), rfl, hmis⟩
    | none =>
      refine .inl ?_
      cases i <;> simp only [jobOf, reduceCtorEq] at hj
      case nop => exact ⟨_, rfl⟩
      case refclr => exact ⟨_, rfl⟩
      case refpush => exact ⟨_, exec_refpush_of_pass hc⟩

end Completes

section Latched

/-! ## The latch decides -/

/-- `s` with other contents of the registers that the host sees. -/
def State.showing (s : State) (o : Operands) (f : RefTable) (c : Ctrl) (w : Word) : State :=
  { s with regs := o, refs := f, ctrl := c, cmd := w }

/-- The operand registers `o'` follow those of `t` as `o` follows those of `s`: a command that writes none of them
left both alone, a search put the same results into both. -/
def RegsFollow (r : Results) (s t : State) (o o' : Operands) : Prop :=
  (t.regs = s.regs ∧ o' = o)
    ∨ ((∃ m dx dy v c, r = .search m dx dy v c)
      ∧ o' = { o with vSpanX := t.regs.vSpanX, vSpanY := t.regs.vSpanY, vRef := t.regs.vRef })

variable (s : State) (o : Operands) (f : RefTable) (c : Ctrl) (w : Word)

theorem State.succeed_showing (ws : List (Nat × Int)) (r : Results) :
    ∃ o', State.succeed ws r (s.showing o f c w) = (State.succeed ws r s).showing o' f c w
      ∧ RegsFollow r s (State.succeed ws r s) o o' := by
  cases r with
  | keep => exact ⟨o, rfl, .inl ⟨rfl, rfl⟩⟩
  | cost k => exact ⟨o, rfl, .inl ⟨rfl, rfl⟩⟩
  | search m dx dy v k => exact ⟨_, rfl, .inr ⟨⟨m, dx, dy, v, k, rfl⟩, rfl⟩⟩

/-- What a data access meets does not depend on the visible registers. -/
theorem State.accessRefused_showing : State.accessRefused (s.showing o f c w) = State.accessRefused s := rfl

theorem State.commit_showing (foot : List Nat) (ws : List (Nat × Int)) (r : Results) :
    ∃ o', State.commit foot ws r (s.showing o f c w) = (State.commit foot ws r s).showing o' f c w
      ∧ RegsFollow r s (State.commit foot ws r s) o o' := by
  unfold State.commit
  rw [State.accessRefused_showing]
  split
  · exact ⟨o, rfl, .inl ⟨rfl, rfl⟩⟩
  · exact State.succeed_showing s o f c w ws r

theorem State.performQuiet_showing (j : Job) :
    ∃ o', State.performQuiet j (s.showing o f c w) = (State.performQuiet j s).showing o' f c w
      ∧ RegsFollow j.results s (State.performQuiet j s) o o' := by
  unfold State.performQuiet
  rw [State.accessRefused_showing]
  split
  · exact ⟨o, rfl, .inl ⟨rfl, rfl⟩⟩
  · cases j.writes with
    | none => exact ⟨o, rfl, .inl ⟨rfl, rfl⟩⟩
    | some ws => exact State.commit_showing s o f c w j.foot ws j.results

theorem State.performRaced_showing (j : Job) :
    ∃ o', State.performRaced j (s.showing o f c w) = (State.performRaced j s).showing o' f c w
      ∧ RegsFollow (Results.raced (s.freeCtr + 2) j.results) s (State.performRaced j s) o o' := by
  unfold State.performRaced
  rw [State.accessRefused_showing]
  simp only []
  split
  · exact ⟨o, rfl, .inl ⟨rfl, rfl⟩⟩
  · change ∃ o', (if (j.ranges && Config.freeBool (s.freeCtr + 1)) = true then _ else _) = _ ∧ _
    split
    · exact ⟨o, rfl, .inl ⟨rfl, rfl⟩⟩
    · exact State.commit_showing (State.bumped j s) o f c w j.foot _ _

/-- The completion of a memory command leaves the same state behind other visible registers. -/
theorem State.perform_showing {i : Instr} {j : Job} {t : State} (hj : jobOf i s = some j)
    (h : State.perform j s = .next t) :
    ∃ o', State.perform j (s.showing o f c w) = .next (t.showing o' f c w)
      ∧ ((t.regs = s.regs ∧ o' = o) ∨ ((∃ sz, i = .msearch sz)
        ∧ o' = { o with vSpanX := t.regs.vSpanX, vSpanY := t.regs.vSpanY, vRef := t.regs.vRef })) := by
  have hoff : State.OffWindow j (s.showing o f c w) := fun b hb => by
    by_contra hin
    have hin' : State.baseInWindow s b = true := (Bool.not_eq_false _).mp hin
    rw [State.perform_refused.mpr ⟨b, hb, hin'⟩] at h
    cases h
  have hsearch : ∀ {r : Results}, j.MayReport r → (∃ m dx dy v k, r = .search m dx dy v k) → ∃ sz, i = .msearch sz := by
    rintro r hr ⟨m, dx, dy, v, k, rfl⟩
    rcases hr.cases hj with e | ⟨-, _, e⟩ | ⟨hi, -⟩
    · cases e
    · cases e
    · exact hi
  rw [State.perform_of_offWindow hoff]
  rcases State.perform_next h with ⟨hr, rfl⟩ | ⟨hr, rfl⟩
  · obtain ⟨o', he, hf⟩ := State.performRaced_showing s o f c w j
    refine ⟨o', ?_, hf.imp_right fun ⟨hs, ho⟩ => ⟨hsearch (.inr ⟨_, rfl⟩) hs, ho⟩⟩
    rw [← he]
    exact congrArg Host.Outcome.next (if_pos hr)
  · obtain ⟨o', he, hf⟩ := State.performQuiet_showing s o f c w j
    refine ⟨o', ?_, hf.imp_right fun ⟨hs, ho⟩ => ⟨hsearch (.inl rfl) hs, ho⟩⟩
    rw [← he]
    exact congrArg Host.Outcome.next (if_neg (by simp [State.showing, hr]))

/-- The work of a command is laid down by the latch and data memory. -/
theorem jobOf_showing (i : Instr) : jobOf i (s.showing o f c w) = jobOf i s := by
  cases i <;> rfl

/-- A command behind other visible registers: the same end, with the registers and the table it does not write as
they are there. -/
theorem exec_showing {i : Instr} {t : State} (h : exec i s = .next t) :
    ∃ o' f', exec i (s.showing o f c w) = .next (t.showing o' f' c w)
      ∧ ((t.regs = s.regs ∧ o' = o) ∨ ((∃ sz, i = .msearch sz)
        ∧ o' = { o with vSpanX := t.regs.vSpanX, vSpanY := t.regs.vSpanY, vRef := t.regs.vRef }))
      ∧ ((t.refs = s.refs ∧ f' = f) ∨ ((i = .refpush ∨ i = .refclr) ∧ f' = t.refs)) := by
  rcases exec_next h with ⟨e, hc, rfl⟩ | ⟨hc, j, hj, hp⟩ | ⟨rfl, rfl⟩ | ⟨rfl, rfl⟩ | ⟨rfl, hc, rfl⟩
  · exact ⟨o, f, exec_of_checkOf (s := s.showing o f c w) hc, .inl ⟨rfl, rfl⟩, .inl ⟨rfl, rfl⟩⟩
  · obtain ⟨o', he, hregs⟩ := State.perform_showing s o f c w hj hp
    refine ⟨o', f, ?_, hregs, .inl ⟨(State.perform_ends hj hp).refs, rfl⟩⟩
    rw [exec_of_jobOf ((jobOf_showing s o f c w i).trans hj), ← he, ← State.runCommand_none]
    exact congrArg (fun k => State.runCommand k j _) hc
  · exact ⟨o, f, rfl, .inl ⟨rfl, rfl⟩, .inl ⟨rfl, rfl⟩⟩
  · exact ⟨o, RefTable.empty, rfl, .inl ⟨rfl, rfl⟩, .inr ⟨.inr rfl, rfl⟩⟩
  · exact ⟨o, _, exec_refpush_of_pass (s := s.showing o f c w) hc, .inl ⟨rfl, rfl⟩, .inr ⟨.inl rfl, rfl⟩⟩

end Latched

/-- Settles O57: a completion behind other visible registers is the same completion, seen through them. -/
theorem latchedOperandsDecide : Obligations.LatchedOperandsDecide := by
  intro i s t o f c w h
  obtain ⟨o', f', he, hregs, hrefs⟩ := exec_showing s o f c w h
  exact ⟨_, he, rfl, rfl, rfl, rfl, rfl, rfl, rfl, rfl, hregs, hrefs⟩

end Sys2Proof.Machine

/-! PROOFS: the core's turn, and what a host write does to each kind of register. -/

namespace Sys2Proof.Machine

section Turn

/-! ## The core's turn -/

theorem State.turn_of_decoded {s : State} {i : Instr} (hb : s.status.busy = true) (hd : decode s.latch.word = .ok i) :
    State.turn s = exec i s := by
  simp [State.turn, hb, hd]

theorem State.turn_of_undecoded {s : State} {e : DecodeError} (hb : s.status.busy = true)
    (hd : decode s.latch.word = .error e) : State.turn s = .next (State.trap .illegal s) := by
  simp [State.turn, hb, hd]

theorem State.turn_of_idle {s : State} (hb : s.status.busy = false) : State.turn s = .next s := by
  simp [State.turn, hb]

theorem step_of_no_event {s : State} (h : s.inbox = []) : step s = State.turn s := by
  simp [step, State.advance, h]

theorem step_coreTurn (s : State) : step (s.given .coreTurn) = State.turn s := rfl

/-- Settles O4: both steps are the core's turn. -/
theorem stepRunsDecodedCommand : Obligations.StepRunsDecodedCommand := by
  refine ⟨fun s i hb hd => ?_, fun s hb => ?_⟩
  · have hturn := State.turn_of_decoded hb hd
    exact ⟨fun hin => (step_of_no_event hin).trans hturn, (step_coreTurn s).trans hturn⟩
  · have hturn := State.turn_of_idle hb
    exact ⟨fun hin => (step_of_no_event hin).trans hturn, (step_coreTurn s).trans hturn⟩

end Turn

section RegisterWrites

/-! ## A register access, by what the register answers -/

theorem step_reads {s : State} {off : Nat} {d : Word} (hl : s.cfg.legal = true) (ho : off < 4096)
    (h4 : off % 4 = 0) (h : State.readReg s (regAt off) = d) :
    step (s.hostReads off) = .next { s with rdata := d } :=
  h ▸ step_hostReads hl ho h4

theorem step_writes {s t : State} {off : Nat} {v : Word} (hl : s.cfg.legal = true) (ho : off < 4096)
    (h4 : off % 4 = 0) (h : State.writeReg s (regAt off) v = t) : step (s.hostWrites off v) = .next t :=
  h ▸ step_hostWrites v hl ho h4

/-! ## What a host write does, register by register (10_state.md R25 to R27, R51) -/

theorem State.writeReg_ctrl {s : State} {v : Word} (h : v.getLsbD 31 = false) :
    State.writeReg s .ctrl v = { s with ctrl := Ctrl.ofWord v } :=
  if_neg (ne_true_of_eq_false h)

theorem State.writeReg_ctrl_reset {s : State} {v : Word} (h : v.getLsbD 31 = true) :
    State.writeReg s .ctrl v = State.resetCore s :=
  if_pos h

theorem State.writeReg_status (s : State) (v : Word) :
    State.writeReg s .status v = { s with status := Status.clearOnWrite s.status v } := rfl

theorem State.writeReg_cmd_ready {s : State} (v : Word) (hb : s.status.busy = false) (he : s.status.err = false) :
    State.writeReg s .cmd v = State.launch v s := by
  simp [State.writeReg, hb, he]

theorem State.writeReg_cmd_discarded {s : State} (v : Word) (h : s.status.busy = true ∨ s.status.err = true) :
    State.writeReg s .cmd v = State.overrun s := by
  rcases h with h | h <;> simp [State.writeReg, h]

/-- An operand register: discarded with `OVR` while a command is in flight, else written. -/
theorem State.writeReg_operand {s : State} {r : Reg} {v : Word} {o : Operands}
    (h : Operands.write s.regs v r = some o) :
    State.writeReg s r v = if s.status.busy then State.overrun s else { s with regs := o } := by
  cases r <;> simp only [Operands.write, reduceCtorEq] at h <;> cases h <;> rfl

/-- Settles O5: the two cases of a write to `CMD`, and the turn on a word that does not decode. -/
theorem cmdWriteLaunches : Obligations.CmdWriteLaunches := by
  refine ⟨fun s w hl => ⟨fun hb he => ?_, fun hbusy => ?_, ?_⟩, rfl⟩
  · refine ⟨State.launch w s, ?_, rfl, fun e hd => ?_⟩
    · exact step_writes hl (by decide) (by decide) (State.writeReg_cmd_ready w hb he)
    · exact (step_coreTurn _).trans (State.turn_of_undecoded rfl hd)
  · exact step_writes hl (by decide) (by decide) (State.writeReg_cmd_discarded w hbusy)
  · exact step_hostReads hl (by decide) (by decide)

end RegisterWrites

section OperandRegisters

/-! ## The operand registers (10_state.md R23, R29 to R40) -/

/-- A 16-bit register shows its bits zero-extended. -/
theorem zextReg_half (v : Word) : zextReg (v.setWidth 16) = RegView.unsigned16.shows v := by
  apply BitVec.eq_of_toNat_eq
  simp [zextReg, RegView.shows]

/-- `DBK_STRENGTH` shows its 8 bits zero-extended. -/
theorem zextReg_byte (v : Word) : zextReg (v.setWidth 8) = RegView.unsigned8.shows v := by
  apply BitVec.eq_of_toNat_eq
  simp [zextReg, RegView.shows]

/-- A signed register shows its 16 bits sign-extended. -/
theorem sextReg_half (v : Word) : sextReg (v.setWidth 16) = RegView.signed16.shows v := by
  simp [sextReg, RegView.shows, BitVec.setWidth_eq_extractLsb']

/-- Each register of the map of section 8 has its offset in the window. -/
theorem operandRegs_offset {r : Nat × RegView} (h : r ∈ operandRegs) : r.1 < 4096 ∧ r.1 % 4 = 0 := by
  revert r; decide

/-- Two offsets of the map are two registers. -/
theorem operandRegs_regAt_ne {r q : Nat × RegView} (hr : r ∈ operandRegs) (hq : q ∈ operandRegs) (h : q.1 ≠ r.1) :
    regAt q.1 ≠ regAt r.1 := by
  revert q; revert r; decide

/-- An operand register takes a write, keeping its stored bits, and shows them extended. -/
theorem operandRegs_write (s : State) (v : Word) : ∀ r ∈ operandRegs, ∃ o,
    Operands.write s.regs v (regAt r.1) = some o
      ∧ State.readReg { s with regs := o } (regAt r.1) = r.2.shows v := by
  simp only [operandRegs, List.forall_mem_cons]
  exact ⟨⟨_, rfl, zextReg_half v⟩, ⟨_, rfl, zextReg_half v⟩,
    ⟨_, rfl, rfl⟩, ⟨_, rfl, rfl⟩, ⟨_, rfl, rfl⟩, ⟨_, rfl, rfl⟩, ⟨_, rfl, rfl⟩, ⟨_, rfl, rfl⟩,
    ⟨_, rfl, rfl⟩, ⟨_, rfl, rfl⟩, ⟨_, rfl, rfl⟩, ⟨_, rfl, rfl⟩, ⟨_, rfl, rfl⟩, ⟨_, rfl, rfl⟩,
    ⟨_, rfl, sextReg_half v⟩, ⟨_, rfl, sextReg_half v⟩, ⟨_, rfl, sextReg_half v⟩, ⟨_, rfl, sextReg_half v⟩,
    ⟨_, rfl, sextReg_half v⟩,
    ⟨_, rfl, rfl⟩, ⟨_, rfl, rfl⟩, ⟨_, rfl, zextReg_half v⟩, ⟨_, rfl, zextReg_half v⟩, ⟨_, rfl, zextReg_byte v⟩,
    by simp⟩

/-- Writing one operand register changes what no other register shows. -/
theorem readReg_write_ne {s : State} {v : Word} {r q : Reg} {o : Operands} (h : Operands.write s.regs v r = some o)
    (hq : q ≠ r) : State.readReg { s with regs := o } q = State.readReg s q := by
  cases r <;> simp only [Operands.write, Option.some.injEq, reduceCtorEq] at h <;> subst h <;>
    cases q <;> simp only [State.readReg, ne_eq, not_true_eq_false] at hq ⊢

/-- An idle core takes a write to an operand register, and shows it. -/
theorem step_write_operand {s : State} (v : Word) (hl : s.cfg.legal = true) (hb : s.status.busy = false)
    {r : Nat × RegView} (hr : r ∈ operandRegs) :
    ∃ o, Operands.write s.regs v (regAt r.1) = some o
      ∧ step (s.hostWrites r.1 v) = .next { s with regs := o }
      ∧ step (State.hostReads { s with regs := o } r.1) = .next { s with regs := o, rdata := r.2.shows v } := by
  obtain ⟨o, hw, hshow⟩ := operandRegs_write s v r hr
  obtain ⟨hoff, halign⟩ := operandRegs_offset hr
  refine ⟨o, hw, step_writes hl hoff halign ?_, step_reads (s := { s with regs := o }) hl hoff halign hshow⟩
  rw [State.writeReg_operand hw, if_neg (by simp [hb])]

/-- Settles O7: the written register shows the value, and every other one what it showed. -/
theorem operandRegisterReadBack : Obligations.OperandRegisterReadBack := by
  intro s v hl hb r hr
  obtain ⟨o, hw, hwrite, hread⟩ := step_write_operand v hl hb hr
  refine ⟨_, hwrite, rfl, hread, fun q hq hne => ?_⟩
  obtain ⟨hoff, halign⟩ := operandRegs_offset hq
  exact ⟨_, step_hostReads hl hoff halign, step_reads (s := { s with regs := o }) hl hoff halign
    (readReg_write_ne hw (operandRegs_regAt_ne hr hq hne))⟩

/-- Settles O6: one register rule for each clause. -/
theorem writesWhileNotIdle : Obligations.WritesWhileNotIdle := by
  intro s v hl
  refine ⟨fun h31 => ?_, fun h31 => ?_, ?_, fun hbusy => ?_, fun hb r hr => ?_, fun hb r hr => ?_⟩
  · exact step_writes hl (by decide) (by decide) (State.writeReg_ctrl h31)
  · exact step_writes hl (by decide) (by decide) (State.writeReg_ctrl_reset h31)
  · exact step_writes hl (by decide) (by decide) (State.writeReg_status s v)
  · exact step_writes hl (by decide) (by decide) (State.writeReg_cmd_discarded v hbusy)
  · obtain ⟨o, hw, -⟩ := operandRegs_write s v r hr
    obtain ⟨hoff, halign⟩ := operandRegs_offset hr
    exact step_writes hl hoff halign (by rw [State.writeReg_operand hw, if_pos hb]; rfl)
  · obtain ⟨o, -, hwrite, hread⟩ := step_write_operand v hl hb hr
    exact ⟨_, hwrite, rfl, hread⟩

end OperandRegisters

end Sys2Proof.Machine

/-! PROOFS: the register map, what registers and tables read, reset, and accesses the window refuses. -/

namespace Sys2Proof.Machine

section RegisterMap

/-! ## Which register stands at an offset (10_state.md section 8) -/

/-- An offset that misses the first table is looked up in the others. -/
theorem tableReg_skip {base n off : Nat} {f : Nat → Reg} {rest : List (Nat × Nat × (Nat → Reg))}
    (h : off < base ∨ base + 4 * n ≤ off) : tableReg off ((base, n, f) :: rest) = tableReg off rest := by
  have hmiss : tableEntry base n off = none := if_neg (by omega)
  simp only [tableReg, hmiss]

theorem tableReg_entry {base n i : Nat} {f : Nat → Reg} {rest : List (Nat × Nat × (Nat → Reg))} (h : i < n) :
    tableReg (base + 4 * i) ((base, n, f) :: rest) = f i := by
  have hentry : tableEntry base n (base + 4 * i) = some i := by
    unfold tableEntry
    rw [if_pos (by omega)]
    congr 1
    omega
  simp only [tableReg, hentry]

/-- What holds of `reserved` and of the entry of each table the offset falls into holds of the register found. -/
theorem tableReg_of_forall {P : Reg → Prop} {off : Nat} {l : List (Nat × Nat × (Nat → Reg))} (hres : P .reserved)
    (h : ∀ e ∈ l, ∀ i, tableEntry e.1 e.2.1 off = some i → P (e.2.2 i)) : P (tableReg off l) := by
  induction l with
  | nil => exact hres
  | cons e rest ih =>
    rw [List.forall_mem_cons] at h
    obtain ⟨hhead, hrest⟩ := h
    unfold tableReg
    split
    · next i hi => exact hhead i hi
    · exact ih hrest

/-- An offset that R24 to R44 do not name lies in no run of registers. -/
theorem tableEntry_of_not_named {off : Nat} (h : offsetNamed off = false) {r : Nat × Nat} (hr : r ∈ namedRuns) :
    tableEntry r.1 r.2 off = none := by
  have hrun := List.any_eq_false.mp h r hr
  exact if_neg (by simpa using hrun)

theorem lowReg_of_not_named {off : Nat} (h : offsetNamed off = false) : lowReg off = .reserved := by
  unfold lowReg
  split
  case h_48 => rfl
  all_goals exact absurd h (by decide)

theorem regAt_of_not_named {off : Nat} (h : offsetNamed off = false) : regAt off = .reserved := by
  unfold regAt
  split
  · exact lowReg_of_not_named h
  · refine tableReg_of_forall (P := (· = .reserved)) rfl fun e he i hi => ?_
    have hrun : (e.1, e.2.1) ∈ namedRuns := by
      clear hi
      revert e
      decide
    rw [tableEntry_of_not_named h hrun] at hi
    cases hi

/-- The registers that ignore a host write: not `CTRL`, `STATUS`, `CMD` nor an operand register. -/
def Reg.readOnly : Reg → Bool
  | .ctrl => false
  | .status => false
  | .cmd => false
  | r => (Operands.write (Operands.reset Params.tc1) 0 r).isNone

theorem State.writeReg_readOnly {r : Reg} (h : r.readOnly = true) (s : State) (v : Word) :
    State.writeReg s r v = s := by
  cases r <;> revert h <;> simp [Reg.readOnly, State.writeReg, Operands.write]

theorem lowReg_readOnly {off : Nat} (h : offsetWritable off = false) : (lowReg off).readOnly = true := by
  unfold lowReg
  split
  case h_48 => rfl
  all_goals revert h; decide

theorem regAt_readOnly {off : Nat} (h : offsetWritable off = false) : (regAt off).readOnly = true := by
  unfold regAt
  split
  · exact lowReg_readOnly h
  · refine tableReg_of_forall (P := (Reg.readOnly · = true)) rfl ?_
    simp [Reg.readOnly, Operands.write]

/-! Each table of R42 to R44 at its offset. -/

section Tables

variable {i : Nat}

theorem regAt_ql8 (h : i < 64) : regAt (0x400 + 4 * i) = .ql8 i := by
  rw [regAt, if_neg (by omega)]
  simp (disch := omega) only [tableReg_entry]

theorem regAt_ql4 (h : i < 16) : regAt (0x500 + 4 * i) = .ql4 i := by
  rw [regAt, if_neg (by omega)]
  simp (disch := omega) only [tableReg_skip, tableReg_entry]

theorem regAt_qc4 (h : i < 16) : regAt (0x540 + 4 * i) = .qc4 i := by
  rw [regAt, if_neg (by omega)]
  simp (disch := omega) only [tableReg_skip, tableReg_entry]

theorem regAt_qc2 (h : i < 4) : regAt (0x580 + 4 * i) = .qc2 i := by
  rw [regAt, if_neg (by omega)]
  simp (disch := omega) only [tableReg_skip, tableReg_entry]

theorem regAt_alpha (h : i < 64) : regAt (0x600 + 4 * i) = .alpha i := by
  rw [regAt, if_neg (by omega)]
  simp (disch := omega) only [tableReg_skip, tableReg_entry]

theorem regAt_beta (h : i < 64) : regAt (0x700 + 4 * i) = .beta i := by
  rw [regAt, if_neg (by omega)]
  simp (disch := omega) only [tableReg_skip, tableReg_entry]

theorem regAt_ctab (h : i < 64) : regAt (0x800 + 4 * i) = .ctab i := by
  rw [regAt, if_neg (by omega)]
  simp (disch := omega) only [tableReg_skip, tableReg_entry]

theorem regAt_k8 (h : i < 64) : regAt (0x900 + 4 * i) = .k8 i := by
  rw [regAt, if_neg (by omega)]
  simp (disch := omega) only [tableReg_skip, tableReg_entry]

theorem regAt_k4 (h : i < 16) : regAt (0xA00 + 4 * i) = .k4 i := by
  rw [regAt, if_neg (by omega)]
  simp (disch := omega) only [tableReg_skip, tableReg_entry]

theorem regAt_k2 (h : i < 4) : regAt (0xA40 + 4 * i) = .k2 i := by
  rw [regAt, if_neg (by omega)]
  simp (disch := omega) only [tableReg_skip, tableReg_entry]

end Tables

/-- Settles O8: an unlisted offset has the register `reserved`. -/
theorem unlistedOffsetsReadZero : Obligations.UnlistedOffsetsReadZero := by
  intro s off v hl ho h4 hn
  have hreg := regAt_of_not_named hn
  exact ⟨step_reads hl ho h4 (by rw [hreg]; rfl), step_writes hl ho h4 (by rw [hreg]; rfl)⟩

end RegisterMap

section Reads

/-! ## What a register shows (10_state.md R24 to R28, R34, R41 to R44) -/

theorem flagBit_eq (b : Bool) (k : Nat) : flagBit b k = b.toNat * 2 ^ k := by
  cases b <;> simp [flagBit]

theorem Ctrl.toWord_eq (c : Ctrl) : Ctrl.toWord c = BitVec.ofNat 32 (bitsShown [c.ieDone, c.ieErr, c.laEn]) := by
  unfold Ctrl.toWord
  simp only [flagBit_eq, bitsShown]
  congr 1
  ring

theorem Status.toWord_eq (f : Status) :
    Status.toWord f = BitVec.ofNat 32 (bitsShown [f.busy, f.done, f.err, f.matched, f.ovr]) := by
  unfold Status.toWord
  simp only [flagBit_eq, bitsShown]
  congr 1
  ring

theorem errCodeShown_eq (e : Option ErrCode) : BitVec.ofNat 32 (errCodeNum e) = errCodeShown e := by
  rcases e with _ | e
  · rfl
  · cases e <;> rfl

/-- `COST0` to `COST3` are the four words of the cost, the lowest first (10_state.md R41). -/
theorem costWord_eq (c : CostReg) (k : Nat) : c.extractLsb' (32 * k) 32 = BitVec.ofNat 32 (c.toNat / 2 ^ (32 * k)) := by
  apply BitVec.eq_of_toNat_eq
  simp [Nat.shiftRight_eq_div_pow]

theorem regAt_cost {k : Nat} (h : k < 4) : regAt (0x0E0 + 4 * k) = .cost k := by
  interval_cases k <;> rfl

/-- Settles O9: what each register shows, and that a register of an offset not writable ignores a write. -/
theorem readsAndReadOnlyWritesChangeNothing : Obligations.ReadsAndReadOnlyWritesChangeNothing := by
  intro s hl
  refine ⟨fun off ho h4 => ⟨⟨_, step_hostReads hl ho h4⟩, fun hro v => ?_⟩, ?_, ?_, ?_, ?_, ?_, ?_, ?_, fun k hk => ?_⟩
  · exact step_writes hl ho h4 (State.writeReg_readOnly (regAt_readOnly hro) s v)
  · exact step_reads hl (by decide) (by decide) rfl
  · exact step_reads hl (by decide) (by decide) (Ctrl.toWord_eq s.ctrl)
  · exact step_reads hl (by decide) (by decide) (Status.toWord_eq s.status)
  · exact step_reads hl (by decide) (by decide) (errCodeShown_eq s.errCode)
  · exact step_reads hl (by decide) (by decide) rfl
  · have slot : ∀ {off n : Nat} {f : Raster → Word}, off < 4096 → off % 4 = 0 →
        State.readReg s (regAt off) = slotReg s.refs n f →
        step (s.hostReads off) = .next { s with rdata := if n < s.refs.count.toNat then f (s.refs.slot n) else 0 } :=
      fun ho h4 h => step_reads hl ho h4 h
    simp only [List.forall_mem_cons]
    exact ⟨⟨slot (by decide) (by decide) rfl, slot (by decide) (by decide) rfl, slot (by decide) (by decide) rfl⟩,
      ⟨slot (by decide) (by decide) rfl, slot (by decide) (by decide) rfl, slot (by decide) (by decide) rfl⟩,
      ⟨slot (by decide) (by decide) rfl, slot (by decide) (by decide) rfl, slot (by decide) (by decide) rfl⟩,
      ⟨slot (by decide) (by decide) rfl, slot (by decide) (by decide) rfl, slot (by decide) (by decide) rfl⟩,
      by simp⟩
  · exact step_reads hl (by decide) (by decide) (BitVec.ofNat_toNat 32 s.refs.count).symm
  · refine step_reads hl (by omega) (by omega) ?_
    rw [regAt_cost hk]
    exact costWord_eq s.cost k

/-- The entries of a legal quantiser table, read with any default. -/
theorem getD_of_quantTableLegal {n i : Nat} {t : List Nat} (h : Params.quantTableLegal n t = true) (hi : i < n)
    (d d' : Nat) : t.getD i d = t.getD i d' := by
  simp only [Params.quantTableLegal, Bool.and_eq_true, beq_iff_eq] at h
  obtain ⟨hlen, -⟩ := h
  have hi' : i < t.length := by omega
  rw [List.getD_eq_getElem _ _ hi', List.getD_eq_getElem _ _ hi']

/-- The four quantiser tables of legal parameters (00_scope.md R7). -/
theorem Params.legal_quantTables {p : Params} (h : p.legal = true) :
    Params.quantTableLegal 64 p.ql8 = true ∧ Params.quantTableLegal 16 p.ql4 = true
      ∧ Params.quantTableLegal 16 p.qc4 = true ∧ Params.quantTableLegal 4 p.qc2 = true := by
  simp only [Params.legal, Bool.and_eq_true] at h
  tauto

/-- An entry of a quantiser table in the window is the one the quantiser uses. -/
theorem quantEntry_eq {n m a b : Nat} {t : List Nat} (h : Params.quantTableLegal n t = true) (hi : m * b + a < n) :
    BitVec.ofNat 32 (t.getD (m * b + a) 0) = BitVec.ofNat 32 (tableOf m t a b) :=
  congrArg _ (getD_of_quantTableLegal h hi 0 1)

/-- Settles O11: the register of each table entry, and for the quantiser tables that no default is read. -/
theorem tablesReadBack : Obligations.TablesReadBack := by
  intro s hl
  obtain ⟨hql8, hql4, hqc4, hqc2⟩ := Params.legal_quantTables hl
  have shown : ∀ {off : Nat} {r : Reg} {d : Word}, regAt off = r → off < 4096 → off % 4 = 0 →
      State.readReg s r = d → step (s.hostReads off) = .next { s with rdata := d } :=
    fun hreg ho h4 hd => step_reads hl ho h4 (hreg ▸ hd)
  refine ⟨fun a b ha hb => ?_, fun a b ha hb => ?_, fun a b ha hb => ?_, fun a b ha hb => ?_, ?_,
    fun i hi => ⟨?_, ?_, ?_⟩, fun k n hk hn => ?_, fun k n hk hn => ?_, fun k n hk hn => ?_⟩
  · exact shown (regAt_ql8 (by omega)) (by omega) (by omega) (quantEntry_eq hql8 (by omega))
  · exact shown (regAt_ql4 (by omega)) (by omega) (by omega) (quantEntry_eq hql4 (by omega))
  · exact shown (regAt_qc4 (by omega)) (by omega) (by omega) (quantEntry_eq hqc4 (by omega))
  · exact shown (regAt_qc2 (by omega)) (by omega) (by omega) (quantEntry_eq hqc2 (by omega))
  · exact step_reads hl (by decide) (by decide) rfl
  · exact shown (regAt_alpha hi) (by omega) (by omega) rfl
  · exact shown (regAt_beta hi) (by omega) (by omega) rfl
  · exact shown (regAt_ctab hi) (by omega) (by omega) rfl
  · exact shown (regAt_k8 (by omega)) (by omega) (by omega) rfl
  · exact shown (regAt_k4 (by omega)) (by omega) (by omega) rfl
  · exact shown (regAt_k2 (by omega)) (by omega) (by omega) rfl

end Reads

section Reset

/-! ## Reset (10_state.md R52, 70_reset_and_hazards.md R230) -/

theorem readReg_resetCore_cost (s : State) (k : Nat) : State.readReg (State.resetCore s) (.cost k) = 0 := by
  simp [State.readReg]

theorem readReg_resetCore_tY (s : State) :
    State.readReg (State.resetCore s) .tY = BitVec.ofNat 32 s.cfg.tYReset.toNat :=
  (BitVec.ofNat_toNat 32 s.cfg.tYReset).symm

theorem readReg_resetCore_tC (s : State) :
    State.readReg (State.resetCore s) .tC = BitVec.ofNat 32 s.cfg.tCReset.toNat :=
  (BitVec.ofNat_toNat 32 s.cfg.tCReset).symm

/-- What each register below the tables reads after a reset. -/
theorem readReg_resetCore_lowReg (s : State) (off : Nat) :
    State.readReg (State.resetCore s) (lowReg off)
      = if off = 0x000 then 0x59560201
        else if off = 0x0D0 then BitVec.ofNat 32 s.cfg.tYReset.toNat
        else if off = 0x0D4 then BitVec.ofNat 32 s.cfg.tCReset.toNat
        else 0 := by
  unfold lowReg
  split
  case h_41 => exact readReg_resetCore_tY s
  case h_42 => exact readReg_resetCore_tC s
  case h_44 | h_45 | h_46 | h_47 => exact readReg_resetCore_cost s _
  case h_48 =>
    rw [if_neg (by assumption), if_neg (by assumption), if_neg (by assumption)]
    rfl
  all_goals rfl

theorem State.writeFootprint_of_idle {s : State} (h : s.status.busy = false) : State.writeFootprint s = [] := by
  simp [State.writeFootprint, State.inFlight, h]

/-- Settles O22: `State.resetCore` register by register; an idle core has no footprint to lose. -/
theorem resetValues : Obligations.ResetValues := by
  intro s hl
  refine ⟨State.resetCore s, rfl, rfl, rfl, rfl, fun off ho h4 => ?_, fun hb => ?_⟩
  · refine step_reads (s := State.resetCore s) hl (by omega) h4 ?_
    rw [regAt, if_pos ho]
    exact readReg_resetCore_lowReg s off
  · rw [State.resetCore_mem, State.writeFootprint_of_idle hb]
    rfl

/-- Settles O25: every part of the invariant holds of reset registers, and the platform's parameters are legal. -/
theorem resetStateInv : Obligations.ResetStateInv where
  flags := ⟨fun h => absurd h (by decide), fun h => absurd h (by decide)⟩
  errorLatch := ⟨⟨fun _ => rfl, fun _ => rfl⟩, fun _ => rfl, fun h => absurd h (by decide)⟩
  latch := ⟨fun h => absurd h (by decide), fun _ => ⟨rfl, rfl, rfl⟩⟩
  table := RefTable.empty_ok
  memWf := rfl
  memBounded := fun _ hc => absurd hc List.not_mem_nil
  params := Config.platform.legal

end Reset

section WindowAccess

/-! ## Other accesses to the register window (10_state.md R23) -/

/-- Settles O10: the access touches the window and is no aligned word. -/
theorem windowNeedsAlignedWords : Obligations.WindowNeedsAlignedWords := by
  intro s addr size v hin hbad
  have htouch : State.touchesWindow s addr size = true := Region.overlaps_iff.mpr hin
  have hnot : windowAccessOk addr size = false := by
    rw [← Bool.not_eq_true]
    simp only [windowAccessOk, Bool.and_eq_true, beq_iff_eq, not_and_or]
    exact hbad
  constructor
  · rw [step_given]
    change State.hostWrite s addr size v = _
    simp [State.hostWrite, htouch, hnot]
  · rw [step_given]
    change State.hostRead s addr size = _
    simp [State.hostRead, htouch, hnot]

end WindowAccess

end Sys2Proof.Machine

/-! PROOFS of the statements about data memory (20_memory.md): what every step keeps of it, which commands the register
window stops, and what the host stores and loads. -/

namespace Sys2Proof.Machine

section InOrder

/-! ## Every step keeps data memory in order -/

/-- Data memory in its canonical form and inside the address space (20_memory.md R60, R70). -/
structure Memory.InOrder (m : Memory) : Prop where
  wf : Memory.wf m = true
  bounded : Memory.Bounded m

theorem Memory.InOrder.setByte {m : Memory} {a : Nat} (b : Byte) (h : Memory.InOrder m) (ha : a < 2 ^ 32) :
    Memory.InOrder (m.setByte a b) :=
  ⟨Memory.setByte_wf a b h.wf, Memory.setByte_bounded b h.bounded ha⟩

theorem Memory.InOrder.storeAll {m : Memory} {ws : List (Nat × Int)} (ctr : Nat) (seen : List Nat)
    (h : Memory.InOrder m) (hws : ∀ w ∈ ws, w.1 + 1 < 2 ^ 32) : Memory.InOrder (Memory.storeAll ctr seen m ws) :=
  ⟨Memory.storeAll_wf ws ctr seen h.wf, Memory.storeAll_bounded ws ctr seen h.bounded hws⟩

theorem Memory.InOrder.scramble {m : Memory} (p : Params) (ctr : Nat) (as : List Nat) (h : Memory.InOrder m) :
    Memory.InOrder (Memory.scramble p ctr m as) :=
  ⟨Memory.scramble_wf p as ctr h.wf, Memory.scramble_bounded p as ctr h.bounded⟩

theorem Memory.InOrder.storeBytes : ∀ (n : Nat) {a : Nat} (v : Word) {m : Memory}, Memory.InOrder m →
    (∀ k, k < n → a + k < 2 ^ 32) → Memory.InOrder (Memory.storeBytes m a n v) := by
  intro n
  induction n with
  | zero => intro a v m h _; exact h
  | succ n ih =>
    intro a v m h ha
    have hfirst : a < 2 ^ 32 := ha 0 (by omega)
    refine ih _ (h.setByte _ hfirst) fun k hk => ?_
    have := ha (k + 1) (by omega)
    omega

/-- The completion of a memory command whose checks passed writes only its footprint, which lies in the address
space. -/
theorem Job.Ends.mem_inOrder {i : Instr} {j : Job} {s t : State} (h : j.Ends s t) (hj : jobOf i s = some j)
    (hc : checkOf i s.latch = none) (hs : Memory.InOrder s.mem) : Memory.InOrder t.mem := by
  cases h with
  | range c => exact hs
  | bus c => exact hs.scramble _ _ _
  | success c ws r hws =>
    rw [State.succeed_mem]
    refine hs.storeAll _ _ fun w hw => ?_
    have := Job.foot_bounded hj hc w.1 (hws w hw)
    omega

theorem exec_mem_inOrder {i : Instr} {s t : State} (h : exec i s = .next t) (hs : Memory.InOrder s.mem) :
    Memory.InOrder t.mem := by
  rcases exec_next h with ⟨e, -, rfl⟩ | ⟨hc, j, hj, hp⟩ | ⟨-, rfl⟩ | ⟨-, rfl⟩ | ⟨-, -, rfl⟩
  · exact hs
  · exact (State.perform_ends hj hp).mem_inOrder hj hc hs
  all_goals exact hs

/-- `t`, which follows on `s`, has data memory in order and the same parameters. -/
structure State.KeepsMemory (s t : State) : Prop where
  mem : Memory.InOrder t.mem
  cfg : t.cfg = s.cfg

theorem State.turn_keepsMemory {s t : State} (h : State.turn s = .next t) (hs : Memory.InOrder s.mem) :
    State.KeepsMemory s t := by
  rcases State.turn_next h with ⟨-, rfl⟩ | ⟨-, -, rfl⟩ | ⟨-, i, -, he⟩
  · exact ⟨hs, rfl⟩
  · exact ⟨hs, rfl⟩
  · exact ⟨exec_mem_inOrder he hs, (exec_sameControl he).cfg⟩

theorem State.resetCore_keepsMemory {s : State} (hs : Memory.InOrder s.mem) :
    State.KeepsMemory s (State.resetCore s) :=
  ⟨hs.scramble _ _ _, rfl⟩

/-- Of the writes to the register window only a soft reset reaches data memory, and none the parameters. -/
theorem State.writeReg_keepsMemory {s : State} (r : Reg) (v : Word) (hs : Memory.InOrder s.mem) :
    State.KeepsMemory s (State.writeReg s r v) := by
  rcases State.writeReg_cases s r v with e | e | e | e | ⟨-, -, e⟩ | e | ⟨-, o, e⟩ <;> rw [e]
  · exact ⟨hs, rfl⟩
  · exact State.resetCore_keepsMemory hs
  all_goals exact ⟨hs, rfl⟩

/-- Where a host access meets no hole, every byte of it is backed. -/
theorem State.backed_of_hostHole {s : State} {addr : Word} {size : BusSize} (h : State.hostHole s addr size = none)
    {k : Nat} (hk : k < size.bytes) : Params.backed s.cfg (addr.toNat + k) = true := by
  have hbyte := List.find?_eq_none.mp h (addr.toNat + k) (List.mem_map.mpr ⟨k, List.mem_range.mpr hk, rfl⟩)
  simpa using hbyte

theorem State.hostStore_keepsMemory {s : State} {addr : Word} {size : BusSize} (v : Word)
    (h : State.hostHole s addr size = none) (hs : Memory.InOrder s.mem) :
    State.KeepsMemory s (State.hostStore s addr size v) :=
  ⟨hs.storeBytes _ v fun _ hk => (Params.backed_iff.mp (State.backed_of_hostHole h hk)).1, rfl⟩

/-- Settles O58: memory is written by completions, resets and host stores; each stays in the address space, by the
address check, by `Memory.setBacked` and by the test for holes. -/
theorem stepKeepsMemoryInOrder : Obligations.StepKeepsMemoryInOrder := by
  intro s t hwf hbounded h
  obtain ⟨u, hu, hstep⟩ := step_next h
  have hsame : u.mem = s.mem ∧ u.cfg = s.cfg := by rcases hu with rfl | ⟨rest, rfl⟩ <;> exact ⟨rfl, rfl⟩
  obtain ⟨humem, hucfg⟩ := hsame
  have hs : Memory.InOrder u.mem := humem ▸ ⟨hwf, hbounded⟩
  have ht : State.KeepsMemory u t := by
    rcases hstep with hturn | ⟨addr, size, v, hw⟩ | ⟨addr, size, hr⟩ | rfl | ⟨addr, rfl⟩
    · exact State.turn_keepsMemory hturn hs
    · rcases State.hostWrite_next hw with rfl | ⟨hhole, rfl⟩
      · exact State.writeReg_keepsMemory _ v hs
      · exact State.hostStore_keepsMemory v hhole hs
    · obtain ⟨d, c, rfl⟩ := State.hostRead_next hr
      exact ⟨hs, rfl⟩
    · exact State.resetCore_keepsMemory hs
    · exact ⟨by simpa using hs, by simp⟩
  exact ⟨ht.mem.wf, ht.mem.bounded, ht.cfg.trans hucfg⟩

end InOrder

section WindowAsData

/-! ## The register window is not data memory (20_memory.md R60, R70) -/

/-- A command with no data path accesses memory through no base register. -/
theorem accessBases_of_no_job {i : Instr} {s : State} (hj : jobOf i s = none) : accessBases i s.latch = [] := by
  cases i <;> simp only [jobOf, reduceCtorEq] at hj <;> rfl

theorem exec_refused_iff {i : Instr} {s : State} (hc : checkOf i s.latch = none) :
    exec i s = .refused .windowAsData ↔ State.baseMisplaced i s := by
  cases hj : jobOf i s with
  | some j =>
    rw [exec_of_jobOf hj, hc, State.runCommand_none, State.perform_refused]
    simp only [State.baseMisplaced, mem_job_bases hj hc, State.baseInWindow_iff]
  | none =>
    have hno : ¬ State.baseMisplaced i s := by simp [State.baseMisplaced, accessBases_of_no_job hj]
    obtain ⟨t, ht⟩ := (commandsComplete i s).resolve_right fun ⟨_, _, hm⟩ => hno hm
    simp [ht, hno]

/-- A memory command that may run is `E_BUS` if the platform refuses a byte that it reads, whether the host raced with
it or not (60_exceptions.md R209, R212). -/
theorem exec_bus_of_read_refused {i : Instr} {s : State} {j : Job} {r : Region} (hj : jobOf i s = some j)
    (hc : checkOf i s.latch = none) (hoff : State.OffWindow j s) (hr : r ∈ j.reads) (href : State.refusesByte s r) :
    ∃ t, exec i s = .next t ∧ t.errCode = some .bus := by
  have hany : j.reads.any (State.accessRefused s) = true :=
    List.any_eq_true.mpr ⟨r, hr, State.accessRefused_iff.mpr href⟩
  rw [exec_of_jobOf hj, hc, State.runCommand_none, State.perform_of_offWindow hoff]
  refine ⟨_, rfl, ?_⟩
  split
  · simp [State.performRaced, hany]
  · simp [State.performQuiet, hany]

/-- The checks of FDCTQ and DQIDCT pass for an existing table and legal buffers in the address space
(40_transform.md R120). -/
theorem checkPlane_eq_none {sz : BitVec 4} {q : QSel} {l : Latch} (hpair : Instr.planePairOk sz q = true)
    (hsrc : baseOk l.regs.src) (hdst : baseOk l.regs.dst)
    (hsrcTop : l.regs.src.toNat + 2 * blockSize sz ^ 2 ≤ 2 ^ 32)
    (hdstTop : l.regs.dst.toNat + 2 * blockSize sz ^ 2 ≤ 2 ^ 32) : checkPlane sz q l = none := by
  obtain ⟨hsrcNull, hsrcEven⟩ := hsrc
  obtain ⟨hdstNull, hdstEven⟩ := hdst
  have hnull : anyNull [l.regs.src, l.regs.dst] = false :=
    anyNull_eq_false.mpr (List.forall_mem_cons.mpr ⟨hsrcNull, List.forall_mem_singleton.mpr hdstNull⟩)
  have hodd : anyOdd [l.regs.src, l.regs.dst] = false :=
    anyOdd_eq_false.mpr (List.forall_mem_cons.mpr ⟨hsrcEven, List.forall_mem_singleton.mpr hdstEven⟩)
  have htop : anyPastTop [bufferRegion l.regs.src (2 * blockSize sz ^ 2),
      bufferRegion l.regs.dst (2 * blockSize sz ^ 2)] = false :=
    anyPastTop_eq_false.mpr (List.forall_mem_cons.mpr ⟨hsrcTop, List.forall_mem_singleton.mpr hdstTop⟩)
  simp [checkPlane, firstFail, tableExists_eq, hpair, hnull, hodd, htop]

/-- Settles O21: a refusal is a misplaced base register of the job; a source that runs into the window is a read that
the platform refuses. -/
theorem windowIsNotData : Obligations.WindowIsNotData := by
  refine ⟨fun i s hc => exec_refused_iff hc, ?_⟩
  intro sz q s hpair hsrc hdst hsrcTop hdstTop hsrcOut hdstOut ⟨k, hk, hin⟩ i hi
  have hcheck := checkPlane_eq_none hpair hsrc hdst hsrcTop hdstTop
  have hplane : ∀ f, State.OffWindow (jobPlane f sz s) s := fun f => by
    simp [State.OffWindow, jobPlane, ← Bool.not_eq_true, State.baseInWindow_iff, hsrcOut, hdstOut]
  have href : State.refusesByte s (bufferRegion s.latch.regs.src (2 * blockSize sz ^ 2)) := ⟨k, hk, .inr (.inl hin)⟩
  rcases hi with rfl | rfl
  · exact exec_bus_of_read_refused rfl hcheck (hplane _) (List.mem_singleton.mpr rfl) href
  · exact exec_bus_of_read_refused rfl hcheck (hplane _) (List.mem_singleton.mpr rfl) href

end WindowAsData

section HostAccess

/-! ## The host's accesses to data memory (20_memory.md R61, R77) -/

/-- A host store is a race if there was one, or if it hits the footprint of the command in flight. -/
theorem State.hostStore_raced_iff {s : State} {addr : Word} {size : BusSize} {v : Word} :
    (State.hostStore s addr size v).raced = true
      ↔ s.raced = true ∨ ∃ k, k < size.bytes ∧ s.inFootprint (addr.toNat + k) = true := by
  simp [State.hostStore]

/-- Settles O52: `State.hostStore` byte by byte. -/
theorem hostStoreWritesBytes : Obligations.HostStoreWritesBytes := by
  intro s addr size v hbacked
  refine ⟨State.hostStore s addr size v, step_hostStore v hbacked, rfl, fun k hk => ?_, fun a ha => ?_,
    State.hostStore_raced_iff⟩
  · exact Memory.byte_storeBytes _ _ _ _ k hk
  · exact Memory.byte_storeBytes_of_not_mem _ _ _ _ ha

/-- Byte `k` of a word put together from bytes is the `k`-th of them, and 0 where there is none. -/
theorem wordOfBytes_byte (l : List Byte) :
    ∀ k, k < 4 → (wordOfBytes l).extractLsb' (8 * k) 8 = l.getD k 0 := by
  induction l with
  | nil => intro k _; simp [wordOfBytes]
  | cons b rest ih =>
    intro k hk
    cases k with
    | zero =>
      ext i hi
      have hword : i < 32 := by omega
      simp [wordOfBytes, hi, hword, BitVec.getLsbD_eq_getElem]
    | succ k =>
      rw [List.getD_cons_succ, ← ih k (by omega)]
      ext i hi
      have hshift : 8 * (k + 1) + i - 8 = 8 * k + i := by omega
      have hbyte : b.getLsbD (8 * (k + 1) + i) = false := BitVec.getLsbD_of_ge _ _ (by omega)
      have hlow : ¬ 8 * (k + 1) + i < 8 := by omega
      have hword : 8 * (k + 1) + i < 32 := by omega
      simp only [wordOfBytes, BitVec.getElem_extractLsb', BitVec.getLsbD_or, BitVec.getLsbD_shiftLeft,
        BitVec.getLsbD_setWidth, hshift, hbyte, hlow, hword, decide_true, decide_false, Bool.not_false, Bool.and_false,
        Bool.true_and, Bool.or_false]

theorem BusSize.bytes_le (size : BusSize) : size.bytes ≤ 4 := by
  cases size <;> decide

/-- Byte `k` of what a host load returns. -/
theorem State.hostLoad_rdata_byte (s : State) (addr : Word) (size : BusSize) {k : Nat} (hk : k < 4) :
    (State.hostLoad s addr size).rdata.extractLsb' (8 * k) 8
      = if k < size.bytes then State.hostByte s addr.toNat (addr.toNat + k) else 0 := by
  change (wordOfBytes _).extractLsb' (8 * k) 8 = _
  rw [wordOfBytes_byte _ k hk]
  split
  · next h => simp [List.getD_eq_getElem?_getD, h]
  · next h => simp [List.getD_eq_getElem?_getD, h]

/-- The choice between the old and the new element that a host load from `first` makes, by half the byte's address
(log 25). -/
def State.showsNew (s : State) (first e : Nat) : Bool := Config.freeBool (s.freeCtr + (e - first / 2))

theorem State.hostByte_eq (s : State) (first a : Nat) :
    State.hostByte s first a = if s.inWriteFootprint a = true ∧ s.showsNew first (a / 2) = true
      then Memory.byte s.memAfter a else Memory.byte s.mem a :=
  if_congr Bool.and_eq_true_iff rfl rfl

/-- Settles O53: each byte is that of `State.hostByte`, whose choice is one for both bytes of an element. -/
theorem hostLoadReadsBytes : Obligations.HostLoadReadsBytes := by
  intro s addr size hbacked
  have hsize := size.bytes_le
  refine ⟨State.hostLoad s addr size, step_hostLoad hbacked, rfl, ⟨s.showsNew addr.toNat, fun k hk => ?_⟩,
    fun k hk hk4 => ?_⟩
  · rw [State.hostLoad_rdata_byte s addr size (by omega), if_pos hk, State.hostByte_eq]
  · rw [State.hostLoad_rdata_byte s addr size hk4, if_neg (by omega)]

end HostAccess

end Sys2Proof.Machine

/-! PROOFS of the statements about the command word (30_encoding.md): the decoder and the encoder are inverse. -/

namespace Sys2Proof

section PackedFields

/-! ## The fields of a packed word (30_encoding.md R90) -/

variable (r : BitVec 2) (a : BitVec 1) (q : BitVec 2) (sz : BitVec 4) (o : Byte)

/-- The bits of a packed word, field by field; `RSEL` reads as 0 beyond its two bits, as do the reserved bits. -/
theorem getLsbD_packWord (k : Nat) : (packWord r a q sz o).getLsbD k =
    if k < 8 then o.getLsbD k
    else if k < 12 then sz.getLsbD (k - 8)
    else if k < 14 then q.getLsbD (k - 12)
    else if k < 15 then a.getLsbD (k - 14)
    else r.getLsbD (k - 15) := by
  have hr : ¬ k - 15 < 2 → r.getLsbD (k - 15) = false := fun h => BitVec.getLsbD_of_ge _ _ (by omega)
  simp only [packWord, BitVec.getLsbD_append, BitVec.ofNat_eq_ofNat, BitVec.getLsbD_zero]
  grind

@[simp] theorem opcField_packWord : opcField (packWord r a q sz o) = o := by
  ext k hk
  simp only [opcField, BitVec.getElem_extractLsb', getLsbD_packWord]
  grind

@[simp] theorem szField_packWord : szField (packWord r a q sz o) = sz := by
  ext k hk
  simp only [szField, BitVec.getElem_extractLsb', getLsbD_packWord]
  grind

@[simp] theorem qselField_packWord : qselField (packWord r a q sz o) = q := by
  ext k hk
  simp only [qselField, BitVec.getElem_extractLsb', getLsbD_packWord]
  grind

@[simp] theorem aField_packWord : aField (packWord r a q sz o) = a := by
  ext k hk
  simp only [aField, BitVec.getElem_extractLsb', getLsbD_packWord]
  grind

@[simp] theorem rselField_packWord : rselField (packWord r a q sz o) = r := by
  ext k hk
  simp only [rselField, BitVec.getElem_extractLsb', getLsbD_packWord]
  grind

@[simp] theorem topField_packWord : topField (packWord r a q sz o) = 0 := by
  ext k hk
  simp only [topField, BitVec.getElem_extractLsb', getLsbD_packWord]
  grind

/-- A word whose reserved bits are 0 is its fields packed again. -/
theorem packWord_fields {w : Word} (htop : topField w = 0) :
    packWord (rselField w) (aField w) (qselField w) (szField w) (opcField w) = w := by
  ext k hk
  have hzero : 17 ≤ k → w.getLsbD k = false := by
    intro h17
    have h := congrArg (BitVec.getLsbD · (k - 17)) htop
    simpa [topField, show k - 17 < 15 by omega, show 17 + (k - 17) = k by omega] using h
  rw [← BitVec.getLsbD_eq_getElem, ← BitVec.getLsbD_eq_getElem, getLsbD_packWord]
  simp only [opcField, szField, qselField, aField, rselField, BitVec.getLsbD_extractLsb']
  grind

theorem packWord_eq_of_fields {r : BitVec 2} {a : BitVec 1} {q : BitVec 2} {sz : BitVec 4} {o : Byte} {w : Word}
    (htop : topField w = 0) (hopc : (opcField w).toNat = o.toNat) (hsz : szField w = sz) (hq : qselField w = q)
    (ha : aField w = a) (hr : rselField w = r) : packWord r a q sz o = w := by
  rw [← hr, ← ha, ← hq, ← hsz, ← BitVec.eq_of_toNat_eq hopc, packWord_fields htop]

end PackedFields

section Formats

/-! ## What each format accepts (30_encoding.md R92 to R97) -/

variable {w : Word} {i j : Instr}

/-- A check in front of a decoder: a command comes out only where the check passes. -/
theorem ite_error_eq_ok_iff {p : Prop} [Decidable p] {k : Except DecodeError Instr} {e : DecodeError} :
    (if p then k else .error e) = .ok i ↔ p ∧ k = .ok i := by
  split <;> simp [*]

/-- A selector field whose value 3 is reserved (30_encoding.md R93, R95). -/
theorem ite_selector_eq_ok_iff {x : BitVec 2} {i₀ i₁ i₂ : Instr} {e : DecodeError} :
    (if x = 0 then .ok i₀ else if x = 1 then .ok i₁ else if x = 2 then .ok i₂ else .error e) = Except.ok i
      ↔ (x = 0 ∧ i₀ = i) ∨ (x = 1 ∧ i₁ = i) ∨ (x = 2 ∧ i₂ = i) := by
  by_cases h0 : x = 0
  · simp [h0]
  by_cases h1 : x = 1
  · simp [h1]
  · simp only [h0, h1, ↓reduceIte, ite_error_eq_ok_iff, Except.ok.injEq, false_and, false_or]

theorem QSel.exists_iff {p : QSel → Prop} : (∃ t, p t) ↔ p .l ∨ p .c ∨ p .u := by
  refine ⟨fun ⟨t, h⟩ => ?_, ?_⟩
  · cases t <;> simp [h]
  · rintro (h | h | h) <;> exact ⟨_, h⟩

theorem RSel.exists_iff {p : RSel → Prop} : (∃ r, p r) ↔ p .cur ∨ p .comp ∨ p .ref := by
  refine ⟨fun ⟨r, h⟩ => ?_, ?_⟩
  · cases r <;> simp [h]
  · rintro (h | h | h) <;> exact ⟨_, h⟩

theorem szUnused_eq_ok_iff {k : Except DecodeError Instr} :
    szUnused w k = .ok i ↔ szField w = 0 ∧ k = .ok i :=
  ite_error_eq_ok_iff

theorem qselUnused_eq_ok_iff {k : Except DecodeError Instr} :
    qselUnused w k = .ok i ↔ qselField w = 0 ∧ k = .ok i :=
  ite_error_eq_ok_iff

theorem aUnused_eq_ok_iff {k : Except DecodeError Instr} :
    aUnused w k = .ok i ↔ aField w = 0 ∧ k = .ok i :=
  ite_error_eq_ok_iff

theorem rselUnused_eq_ok_iff {k : Except DecodeError Instr} :
    rselUnused w k = .ok i ↔ rselField w = 0 ∧ k = .ok i :=
  ite_error_eq_ok_iff

theorem decodePlain_eq_ok_iff : decodePlain w j = .ok i
    ↔ szField w = 0 ∧ qselField w = 0 ∧ aField w = 0 ∧ rselField w = 0 ∧ j = i := by
  simp [decodePlain, szUnused_eq_ok_iff, qselUnused_eq_ok_iff, aUnused_eq_ok_iff, rselUnused_eq_ok_iff]

theorem decodeBlock_eq_ok_iff {f : BitVec 4 → Instr} : decodeBlock w f = .ok i
    ↔ qselField w = 0 ∧ aField w = 0 ∧ rselField w = 0 ∧ f (szField w) = i := by
  simp [decodeBlock, qselUnused_eq_ok_iff, aUnused_eq_ok_iff, rselUnused_eq_ok_iff]

theorem decodePlane_eq_ok_iff {f : BitVec 4 → QSel → Instr} : decodePlane w f = .ok i
    ↔ aField w = 0 ∧ rselField w = 0 ∧ ∃ t : QSel, qselField w = t.bits ∧ f (szField w) t = i := by
  rw [decodePlane, aUnused_eq_ok_iff, rselUnused_eq_ok_iff, ite_selector_eq_ok_iff, QSel.exists_iff]
  rfl

theorem decodeExtract_eq_ok_iff : decodeExtract w = .ok i
    ↔ qselField w = 0 ∧ aField w = 0 ∧ ∃ r : RSel, rselField w = r.bits ∧ .extract (szField w) r = i := by
  rw [decodeExtract, qselUnused_eq_ok_iff, aUnused_eq_ok_iff, ite_selector_eq_ok_iff, RSel.exists_iff]
  rfl

theorem decodeCost_eq_ok_iff : decodeCost w = .ok i
    ↔ qselField w = 0 ∧ rselField w = 0 ∧ .cost (szField w) (aField w == 1) = i := by
  simp [decodeCost, qselUnused_eq_ok_iff, rselUnused_eq_ok_iff]

end Formats

section Inverse

/-! ## Every command decodes from its encoding (30_encoding.md R98) -/

@[simp] theorem ofBool_beq_one (b : Bool) : (BitVec.ofBool b == 1#1) = b := by
  cases b <;> rfl

theorem ofBool_of_beq_one (a : BitVec 1) : BitVec.ofBool (a == 1#1) = a := by
  revert a; decide

/-- The opcode of the encoding picks the command's own format, which accepts the fields the encoder packed. -/
theorem decode_encode (i : Instr) : decode (encode i) = .ok i := by
  cases i <;> simp [encode, decode, decodePlain_eq_ok_iff, decodeBlock_eq_ok_iff, decodePlane_eq_ok_iff,
    decodeExtract_eq_ok_iff, decodeCost_eq_ok_iff]

/-! ## A word is the encoding of the command it decodes to

One lemma per format, over the opcode `o` that selects it. -/

variable {w : Word} {i j : Instr}

theorem encode_of_decodePlain (o : Byte) (hj : encode j = packWord 0 0 0 0 o) (htop : topField w = 0)
    (hopc : (opcField w).toNat = o.toNat) (h : decodePlain w j = .ok i) : encode i = w := by
  obtain ⟨hsz, hq, ha, hr, rfl⟩ := decodePlain_eq_ok_iff.mp h
  exact hj.trans (packWord_eq_of_fields htop hopc hsz hq ha hr)

theorem encode_of_decodeBlock {f : BitVec 4 → Instr} (o : Byte) (hf : ∀ sz, encode (f sz) = packWord 0 0 0 sz o)
    (htop : topField w = 0) (hopc : (opcField w).toNat = o.toNat) (h : decodeBlock w f = .ok i) : encode i = w := by
  obtain ⟨hq, ha, hr, rfl⟩ := decodeBlock_eq_ok_iff.mp h
  exact (hf _).trans (packWord_eq_of_fields htop hopc rfl hq ha hr)

theorem encode_of_decodePlane {f : BitVec 4 → QSel → Instr} (o : Byte)
    (hf : ∀ sz t, encode (f sz t) = packWord 0 0 t.bits sz o) (htop : topField w = 0)
    (hopc : (opcField w).toNat = o.toNat) (h : decodePlane w f = .ok i) : encode i = w := by
  obtain ⟨ha, hr, t, hq, rfl⟩ := decodePlane_eq_ok_iff.mp h
  exact (hf _ t).trans (packWord_eq_of_fields htop hopc rfl hq ha hr)

theorem encode_of_decodeExtract (htop : topField w = 0) (hopc : (opcField w).toNat = 0x08)
    (h : decodeExtract w = .ok i) : encode i = w := by
  obtain ⟨hq, ha, r, hr, rfl⟩ := decodeExtract_eq_ok_iff.mp h
  exact packWord_eq_of_fields htop hopc rfl hq ha hr

theorem encode_of_decodeCost (htop : topField w = 0) (hopc : (opcField w).toNat = 0x09)
    (h : decodeCost w = .ok i) : encode i = w := by
  obtain ⟨hq, hr, rfl⟩ := decodeCost_eq_ok_iff.mp h
  exact packWord_eq_of_fields htop hopc rfl hq (ofBool_of_beq_one _).symm hr

/-- Case by case along the opcode map of 30_encoding.md R98. -/
theorem encode_of_decode (h : decode w = .ok i) : encode i = w := by
  unfold decode at h
  split at h
  · cases h
  next htop =>
    have htop : topField w = 0 := not_not.mp htop
    split at h
    next hopc => exact encode_of_decodePlain 0x00 rfl htop hopc h
    next hopc => exact encode_of_decodePlane 0x01 (fun _ _ => rfl) htop hopc h
    next hopc => exact encode_of_decodePlane 0x02 (fun _ _ => rfl) htop hopc h
    next hopc => exact encode_of_decodeBlock 0x03 (fun _ => rfl) htop hopc h
    next hopc => exact encode_of_decodeBlock 0x04 (fun _ => rfl) htop hopc h
    next hopc => exact encode_of_decodeExtract htop hopc h
    next hopc => exact encode_of_decodeCost htop hopc h
    next hopc => exact encode_of_decodeBlock 0x0A (fun _ => rfl) htop hopc h
    next hopc => exact encode_of_decodeBlock 0x0B (fun _ => rfl) htop hopc h
    next hopc => exact encode_of_decodeBlock 0x10 (fun _ => rfl) htop hopc h
    next hopc => exact encode_of_decodeBlock 0x11 (fun _ => rfl) htop hopc h
    next hopc => exact encode_of_decodeBlock 0x12 (fun _ => rfl) htop hopc h
    next hopc => exact encode_of_decodePlain 0x18 rfl htop hopc h
    next hopc => exact encode_of_decodePlain 0x19 rfl htop hopc h
    next => cases h

end Inverse

section Settled

/-- Settles O1: `encode` packs fields that the decoder of the same opcode reads back (`decode_encode`), and a word that
decodes has no other bit set (`encode_of_decode`). -/
theorem decodeEncodeAgree : Obligations.DecodeEncodeAgree := by
  refine fun w i => ⟨encode_of_decode, ?_⟩
  rintro rfl
  exact decode_encode i

/-- Settles O2: each word of the list is the encoding of its command, and `decode_encode` reads it back. -/
theorem workedEncodings : Obligations.WorkedEncodings := by
  intro p hp
  have hword : encode p.2 = p.1 := by
    revert p
    decide
  exact hword ▸ decode_encode p.2

end Settled

end Sys2Proof

/-! PROOFS of the statements about the transform (40_transform.md): first the arithmetic of the transform and the
quantiser, then what FDCTQ, DQIDCT, XFWD and XINV leave in data memory. -/

namespace Sys2Proof.Machine

section TransformArithmetic

/-! ## Rounding and sums -/

theorem rn_zero (d : Nat) : rn 0 d = 0 := by
  have hhalf : d / (2 * d) = 0 := by
    rcases Nat.eq_zero_or_pos d with rfl | hd
    · rfl
    · exact Nat.div_eq_of_lt (by omega)
  simp [rn, hhalf]

/-- Ties go away from zero, so rounding is odd (00_scope.md R9). -/
theorem rn_neg (n : Int) (d : Nat) : rn (-n) d = -rn n d := by
  rcases lt_trichotomy n 0 with hn | rfl | hn
  · simp only [rn, Int.natAbs_neg]
    rw [if_neg (by omega), if_pos hn, neg_neg]
  · simp [rn_zero]
  · simp only [rn, Int.natAbs_neg]
    rw [if_pos (by omega), if_neg (by omega)]

/-- A quotient of size at most `k` rounds to a number of size at most `k`. -/
theorem natAbs_rn_le {n : Int} {d k : Nat} (h : n.natAbs ≤ k * d) : (rn n d).natAbs ≤ k := by
  have hsize : (rn n d).natAbs = (2 * n.natAbs + d) / (2 * d) := by
    simp only [rn]
    split
    · rw [Int.natAbs_neg, Int.natAbs_natCast]
    · rw [Int.natAbs_natCast]
  rw [hsize]
  rcases Nat.eq_zero_or_pos d with rfl | hd
  · simp
  · have hlt : 2 * n.natAbs + d < (k + 1) * (2 * d) := by nlinarith
    exact Nat.lt_succ_iff.mp ((Nat.div_lt_iff_lt_mul (by omega)).mpr hlt)

theorem s16ok_of_natAbs_le {v : Int} (h : v.natAbs ≤ 32767) : s16ok v = true := by
  simp only [s16ok, Bool.and_eq_true, decide_eq_true_eq]
  omega

/-- The model's sums are sums over a range. -/
theorem sumTo_eq_sum (n : Nat) (f : Nat → Int) : sumTo n f = ∑ k ∈ Finset.range n, f k := by
  induction n with
  | zero => rfl
  | succ n ih => rw [Finset.sum_range_succ, ← ih, sumTo]

/-- A weighted sum of terms of size at most `c`. -/
theorem natAbs_sumTo_mul_le {n c : Nat} (w : Nat → Int) {f : Nat → Int} (h : ∀ k, k < n → (f k).natAbs ≤ c) :
    (sumTo n fun k => w k * f k).natAbs ≤ (sumNat n fun k => (w k).natAbs) * c := by
  induction n with
  | zero => simp [sumTo, sumNat]
  | succ n ih =>
    calc (sumTo n (fun k => w k * f k) + w n * f n).natAbs
        ≤ (sumTo n fun k => w k * f k).natAbs + (w n * f n).natAbs := Int.natAbs_add_le _ _
      _ ≤ (sumNat n fun k => (w k).natAbs) * c + (w n).natAbs * c := by
          rw [Int.natAbs_mul]
          exact Nat.add_le_add (ih fun k hk => h k (by omega)) (Nat.mul_le_mul_left _ (h n (by omega)))
      _ = (sumNat n (fun k => (w k).natAbs) + (w n).natAbs) * c := (Nat.add_mul _ _ _).symm

/-! ## The rows of the cosine basis (40_transform.md R113) -/

/-- What row `k` of the basis makes of a constant 1. -/
def basisRowSum (m k : Nat) : Int := sumTo m (basis m k)

/-- The most that row `k` of the basis makes of samples of size at most 1. -/
def basisRowWeight (m k : Nat) : Nat := sumNat m fun n => (basis m k n).natAbs

theorem basisRowSum_dc {m : Nat} (hm : m = 2 ∨ m = 4 ∨ m = 8) : basisRowSum m 0 = m * basis m 0 0 := by
  rcases hm with rfl | rfl | rfl <;> decide

/-- Every row but the first sums to 0: a flat plane has no AC levels. -/
theorem basisRowSum_ac {m k : Nat} (hm : m = 2 ∨ m = 4 ∨ m = 8) (hk : k < m) (h0 : k ≠ 0) :
    basisRowSum m k = 0 := by
  have hrows : (∀ k < 2, k ≠ 0 → basisRowSum 2 k = 0) ∧ (∀ k < 4, k ≠ 0 → basisRowSum 4 k = 0)
      ∧ ∀ k < 8, k ≠ 0 → basisRowSum 8 k = 0 := by decide
  obtain ⟨h2, h4, h8⟩ := hrows
  rcases hm with rfl | rfl | rfl
  · exact h2 k hk h0
  · exact h4 k hk h0
  · exact h8 k hk h0

/-- The heaviest row is the first of `K8`. -/
theorem basisRowWeight_le {m k : Nat} (hm : m = 2 ∨ m = 4 ∨ m = 8) (hk : k < m) : basisRowWeight m k ≤ 46344 := by
  have hrows : (∀ k < 2, basisRowWeight 2 k ≤ 46344) ∧ (∀ k < 4, basisRowWeight 4 k ≤ 46344)
      ∧ ∀ k < 8, basisRowWeight 8 k ≤ 46344 := by decide
  obtain ⟨h2, h4, h8⟩ := hrows
  rcases hm with rfl | rfl | rfl
  · exact h2 k hk
  · exact h4 k hk
  · exact h8 k hk

/-! ## The forward transform (40_transform.md R114) -/

theorem fwdInt_eq_columns_of_rows (m : Nat) (p : Plane) (a b : Nat) :
    fwdInt m p a b = sumTo m fun y => basis m b y * sumTo m fun x => basis m a x * (p x y - 128) := by
  simp only [fwdInt, sumTo_eq_sum, Finset.mul_sum]
  rw [Finset.sum_comm]
  exact Finset.sum_congr rfl fun y _ => Finset.sum_congr rfl fun x _ => by ring

theorem fwdInt_eq_rows_of_columns (m : Nat) (p : Plane) (a b : Nat) :
    fwdInt m p a b = sumTo m fun x => basis m a x * sumTo m fun y => basis m b y * (p x y - 128) := by
  simp only [fwdInt, sumTo_eq_sum, Finset.mul_sum]
  exact Finset.sum_congr rfl fun x _ => Finset.sum_congr rfl fun y _ => by ring

theorem fwdInt_mirror (m : Nat) (p : Plane) (a b : Nat) :
    fwdInt m (fun x y => 256 - p x y) a b = -fwdInt m p a b := by
  simp only [fwdInt, sumTo_eq_sum, ← Finset.sum_neg_distrib]
  exact Finset.sum_congr rfl fun x _ => Finset.sum_congr rfl fun y _ => by ring

/-- A flat plane: the two passes see a constant. -/
theorem fwdInt_flat (m : Nat) (c : Int) (a b : Nat) :
    fwdInt m (fun _ _ => c) a b = basisRowSum m b * (basisRowSum m a * (c - 128)) := by
  rw [fwdInt_eq_columns_of_rows]
  simp only [basisRowSum, sumTo_eq_sum, ← Finset.sum_mul]

/-- A bound of the samples' distance from 128 bounds both passes. -/
theorem natAbs_fwdInt_le {m c : Nat} {p : Plane} (h : ∀ x y, x < m → y < m → (p x y - 128).natAbs ≤ c)
    (a b : Nat) :
    (fwdInt m p a b).natAbs ≤ basisRowWeight m b * (basisRowWeight m a * c) := by
  rw [fwdInt_eq_columns_of_rows]
  exact natAbs_sumTo_mul_le _ fun y hy => natAbs_sumTo_mul_le _ fun x hx => h x y hx hy

theorem invInt_zero {m : Nat} {d : Plane} (h : ∀ a b, d a b = 0) (x y : Nat) : invInt m d x y = 0 := by
  simp [invInt, sumTo_eq_sum, h]

/-! ## The statements about levels and samples -/

/-- Settles O31: each order of the passes is a rearrangement of the double sum. -/
theorem forwardTransformIsSeparable : Obligations.ForwardTransformIsSeparable :=
  fun m p a b => ⟨fwdInt_eq_columns_of_rows m p a b, fwdInt_eq_rows_of_columns m p a b⟩

/-- Settles O30: the transform of the level-shifted plane is linear, and rounding is odd. -/
theorem mirroredPlaneNegatesLevels : Obligations.MirroredPlaneNegatesLevels := by
  intro m q p a b
  rw [quant, quant, fwdInt_mirror, rn_neg]

/-- Settles O32: two passes of the heaviest row stay within `32767 * 2^28`, and no quantiser divides by less than
`2^28`. -/
theorem smallSamplesNeverOverflow : Obligations.SmallSamplesNeverOverflow := by
  intro m q p hm hq hp a b ha hb
  refine s16ok_of_natAbs_le (natAbs_rn_le ?_)
  calc (fwdInt m p a b).natAbs
      ≤ basisRowWeight m b * (basisRowWeight m a * 4095) := natAbs_fwdInt_le hp a b
    _ ≤ 46344 * (46344 * 4095) :=
        Nat.mul_le_mul (basisRowWeight_le hm hb) (Nat.mul_le_mul_right _ (basisRowWeight_le hm ha))
    _ ≤ 32767 * (1 * 2 ^ 28) := by norm_num
    _ ≤ 32767 * (q a b * 2 ^ 28) := Nat.mul_le_mul_left _ (Nat.mul_le_mul_right _ (hq a b ha hb))

/-- Settles O33: a flat plane transforms to products of row sums, of which only the first row's is not 0. -/
theorem flatPlanes : Obligations.FlatPlanes := by
  refine ⟨fun m q a b => ?_, fun m q hm => ⟨?_, fun a b ha hb hac => ?_⟩, fun m q x y => ?_⟩
  · simp [quant, fwdInt_flat, rn_zero]
  · have hdc : fwdInt m (fun _ _ => 0) 0 0 = -128 * m ^ 2 * basis m 0 0 ^ 2 := by
      rw [fwdInt_flat, basisRowSum_dc hm]
      ring
    rw [quant, hdc]
  · have hzero : basisRowSum m a = 0 ∨ basisRowSum m b = 0 := by
      rcases Decidable.not_and_iff_or_not.mp hac with h | h
      · exact .inl (basisRowSum_ac hm ha h)
      · exact .inr (basisRowSum_ac hm hb h)
    rcases hzero with h | h <;> simp [quant, fwdInt_flat, h, rn_zero]
  · simp [recon, invInt_zero (d := deq q fun _ _ => 0) (fun a b => Int.zero_mul _), rn_zero]

end TransformArithmetic

end Sys2Proof.Machine

/-! PROOFS of the statements about the transform commands (40_transform.md R120 to R125): where their writes lie, that
the writes reach memory, and what they are. -/

namespace Sys2Proof.Machine

section Layouts

/-! ## Arrays of elements in data memory -/

/-- Writes that store an array in a region: each writes an element of the region at an even address, and no two give
one element different values (20_memory.md R65, R72). -/
structure WritesIn (r : Region) (ws : List (Nat × Int)) : Prop where
  inside : ∀ w ∈ ws, r.base ≤ w.1 ∧ w.1 + 2 ≤ r.base + r.bytes
  even : ∀ w ∈ ws, w.1 % 2 = 0
  agree : ∀ w ∈ ws, ∀ w' ∈ ws, w.1 = w'.1 → w.2 = w'.2

/-- Arrays side by side do not meet. -/
theorem WritesIn.append {r q t : Region} {ws vs : List (Nat × Int)} (hws : WritesIn r ws) (hvs : WritesIn q vs)
    (hrq : r.base + r.bytes ≤ q.base) (hr : t.base ≤ r.base) (hq : q.base + q.bytes ≤ t.base + t.bytes) :
    WritesIn t (ws ++ vs) where
  inside := List.forall_mem_append.mpr
    ⟨fun w hw => by have := hws.inside w hw; omega, fun w hw => by have := hvs.inside w hw; omega⟩
  even := List.forall_mem_append.mpr ⟨hws.even, hvs.even⟩
  agree := by
    have hapart : ∀ w ∈ ws, ∀ v ∈ vs, w.1 ≠ v.1 := fun w hw v hv => by
      have := hws.inside w hw
      have := hvs.inside v hv
      omega
    refine List.forall_mem_append.mpr ⟨fun w hw => List.forall_mem_append.mpr ⟨hws.agree w hw, fun v hv he => ?_⟩,
      fun v hv => List.forall_mem_append.mpr ⟨fun w hw he => ?_, hvs.agree v hv⟩⟩
    · exact absurd he (hapart w hw v hv)
    · exact absurd he.symm (hapart w hw v hv)

theorem planeWrites_in {b : Nat} (m : Nat) (p : Plane) (hb : b % 2 = 0) :
    WritesIn ⟨b, 2 * m ^ 2⟩ (planeWrites b m p) where
  inside w hw := by
    obtain ⟨hlo, hhi, -⟩ := planeAddrs_in (mem_planeAddrs_of_mem_planeWrites hw)
    exact ⟨hlo, hhi⟩
  even w hw := by
    obtain ⟨-, -, heven⟩ := planeAddrs_in (mem_planeAddrs_of_mem_planeWrites hw)
    omega
  agree := by
    rintro ⟨a, u⟩ hu ⟨_, v⟩ hv rfl
    obtain ⟨x, y, hx, -, ha, rfl⟩ := mem_planeWrites.mp hu
    obtain ⟨x', y', hx', -, ha', rfl⟩ := mem_planeWrites.mp hv
    obtain ⟨rfl, rfl⟩ := planeAddr_inj hx hx' (ha.symm.trans ha')
    rfl

/-- The three planes of a bundle of even size fill its `3 N²` bytes (20_memory.md R66). -/
theorem bundle3Writes_in {b n : Nat} (y u v : Plane) (hb : b % 2 = 0) (hn : n % 2 = 0) :
    WritesIn ⟨b, 3 * n ^ 2⟩ (bundle3Writes b n y u v) := by
  have hsize : n ^ 2 = 4 * (n / 2) ^ 2 := by
    obtain ⟨k, rfl⟩ := Nat.dvd_of_mod_eq_zero hn
    rw [Nat.mul_div_cancel_left k (by norm_num)]
    ring
  have hu : bundleU b n = b + 8 * (n / 2) ^ 2 := by unfold bundleU; omega
  have hv : bundleV b n = b + 10 * (n / 2) ^ 2 := by unfold bundleV; omega
  have hyu := (planeWrites_in n y hb).append (planeWrites_in (n / 2) u (b := bundleU b n) (by omega))
    (t := ⟨b, 10 * (n / 2) ^ 2⟩) (by simp only; omega) le_rfl (by simp only; omega)
  exact hyu.append (planeWrites_in (n / 2) v (b := bundleV b n) (by omega))
    (by simp only; omega) le_rfl (by simp only; omega)

/-- A list of arrays of `k` bytes each, indexed without repetition. -/
theorem WritesIn.flatMap {ι : Type} {l : List ι} {idx : ι → Nat} {f : ι → List (Nat × Int)} {b k n : Nat}
    (hf : ∀ c ∈ l, WritesIn ⟨b + k * idx c, k⟩ (f c)) (hidx : ∀ c ∈ l, idx c < n)
    (hinj : ∀ c ∈ l, ∀ c' ∈ l, idx c = idx c' → c = c') : WritesIn ⟨b, k * n⟩ (l.flatMap f) where
  inside w hw := by
    obtain ⟨c, hc, hw⟩ := List.mem_flatMap.mp hw
    have hin := (hf c hc).inside w hw
    have hend : k * (idx c + 1) ≤ k * n := Nat.mul_le_mul_left k (hidx c hc)
    rw [Nat.mul_succ] at hend
    simp only at hin ⊢
    omega
  even w hw := by
    obtain ⟨c, hc, hw⟩ := List.mem_flatMap.mp hw
    exact (hf c hc).even w hw
  agree w hw w' hw' he := by
    obtain ⟨c, hc, hw⟩ := List.mem_flatMap.mp hw
    obtain ⟨c', hc', hw'⟩ := List.mem_flatMap.mp hw'
    obtain rfl : c = c' := hinj c hc c' hc' <| by
      have hin := (hf c hc).inside w hw
      have hin' := (hf c' hc').inside w' hw'
      simp only at hin hin'
      by_contra hne
      rcases Nat.lt_or_gt_of_ne hne with h | h
      · have := Nat.mul_le_mul_left k (Nat.succ_le_of_lt h)
        rw [Nat.mul_succ] at this
        omega
      · have := Nat.mul_le_mul_left k (Nat.succ_le_of_lt h)
        rw [Nat.mul_succ] at this
        omega
    exact (hf c hc).agree w hw w' hw' he

/-- The index of a sub-unit names it (40_transform.md R123). -/
theorem subIndex_inj {n tx ty tx' ty' : Nat} (hx : tx < n / 8) (hx' : tx' < n / 8)
    (h : subIndex n tx ty = subIndex n tx' ty') : tx = tx' ∧ ty = ty' :=
  planeAddr_inj (b := 0) hx hx' (by unfold planeAddr; unfold subIndex at h; rw [h])

theorem subIndex_lt {n tx ty : Nat} (hx : tx < n / 8) (hy : ty < n / 8) : subIndex n tx ty < (n / 8) ^ 2 := by
  unfold subIndex
  nlinarith

/-- The coefficient list of a block of size 4 is laid out as a bundle (20_memory.md R66, R68). -/
theorem forwardWrites_four (p : Params) (b : Nat) (y u v : Plane) :
    forwardWrites p b 4 y u v = bundle3Writes b 4 (quant 4 (qtab p 4 .l) y) (quant 2 (qtab p 2 .c) u)
      (quant 2 (qtab p 2 .c) v) := rfl

/-- The coefficient list of a larger block is a list of sub-units, each laid out as a bundle of size 8
(20_memory.md R66, R68). -/
theorem forwardWrites_of_ne_four (p : Params) (b : Nat) {n : Nat} (y u v : Plane) (h4 : n ≠ 4) :
    forwardWrites p b n y u v = (subUnits n).flatMap fun c =>
      bundle3Writes (b + 192 * subIndex n c.1 c.2) 8 (quant 8 (qtab p 8 .l) (subPlane 8 c.1 c.2 y))
        (quant 4 (qtab p 4 .c) (subPlane 4 c.1 c.2 u)) (quant 4 (qtab p 4 .c) (subPlane 4 c.1 c.2 v)) :=
  if_neg h4

/-- The coefficient list of a block of legal size fills its `3 N²` bytes (20_memory.md R68). -/
theorem forwardWrites_in {sz : BitVec 4} (p : Params) {b : Nat} (y u v : Plane)
    (hsz : Instr.blockSizeOk sz = true) (hb : b % 2 = 0) :
    WritesIn ⟨b, 3 * blockSize sz ^ 2⟩ (forwardWrites p b (blockSize sz) y u v) := by
  by_cases h4 : blockSize sz = 4
  · rw [h4, forwardWrites_four]
    exact bundle3Writes_in _ _ _ hb rfl
  · have hbytes : 3 * blockSize sz ^ 2 = 192 * (blockSize sz / 8) ^ 2 := by
      obtain ⟨h8, -⟩ := blockSize_eighth hsz h4
      generalize blockSize sz / 8 = k at h8 ⊢
      rw [← h8]
      ring
    rw [forwardWrites_of_ne_four p b y u v h4, hbytes]
    refine WritesIn.flatMap (idx := fun c => subIndex (blockSize sz) c.1 c.2) (fun c _ => ?_) ?_ ?_
    · have hunit : 192 = 3 * 8 ^ 2 := by norm_num
      rw [hunit]
      exact bundle3Writes_in _ _ _ (by omega) rfl
    · rintro ⟨tx, ty⟩ hc
      obtain ⟨hx, hy⟩ := mem_cells.mp hc
      exact subIndex_lt hx hy
    · rintro ⟨tx, ty⟩ hc ⟨tx', ty'⟩ hc' he
      obtain ⟨rfl, rfl⟩ := subIndex_inj (mem_cells.mp hc).1 (mem_cells.mp hc').1 he
      rfl

end Layouts

section Stored

/-! ## Arrays that memory holds -/

/-- Memory holds what these writes store. -/
def Memory.Holds (m : Memory) (ws : List (Nat × Int)) : Prop := ∀ w ∈ ws, Memory.elem m w.1 = w.2

theorem Memory.holds_storeAll {r : Region} {ws : List (Nat × Int)} (ctr : Nat) (m : Memory) (h : WritesIn r ws)
    (hok : ∀ w ∈ ws, s16ok w.2 = true) : Memory.Holds (Memory.storeAll ctr [] m ws) ws :=
  fun w hw => Memory.elem_storeAll_of_mem ctr m (fun w' hw' => ⟨h.even w' hw', hok w' hw'⟩) hw
    fun u hu => h.agree (w.1, u) hu w hw rfl

theorem WritesIn.sameOutside_storeAll {r : Region} {ws : List (Nat × Int)} (h : WritesIn r ws) (ctr : Nat)
    (m : Memory) : Memory.SameOutside r m (Memory.storeAll ctr [] m ws) :=
  fun a ha => Memory.byte_storeAll_of_not_mem ws ctr [] m fun w hw => by
    have := h.inside w hw
    omega

theorem forall_mem_planeWrites {P : Nat × Int → Prop} {b m : Nat} {p : Plane} :
    (∀ w ∈ planeWrites b m p, P w) ↔ ∀ x y, x < m → y < m → P (planeAddr b m x y, p x y) := by
  constructor
  · exact fun h x y hx hy => h _ (mem_planeWrites.mpr ⟨x, y, hx, hy, rfl, rfl⟩)
  · rintro h ⟨a, v⟩ hw
    obtain ⟨x, y, hx, hy, rfl, rfl⟩ := mem_planeWrites.mp hw
    exact h x y hx hy

theorem forall_mem_bundle3Writes {P : Nat × Int → Prop} {b n : Nat} {y u v : Plane} :
    (∀ w ∈ bundle3Writes b n y u v, P w) ↔ (∀ i j, i < n → j < n → P (planeAddr b n i j, y i j))
      ∧ ∀ i j, i < n / 2 → j < n / 2 → P (planeAddr (bundleU b n) (n / 2) i j, u i j)
        ∧ P (planeAddr (bundleV b n) (n / 2) i j, v i j) := by
  unfold bundle3Writes
  rw [List.forall_mem_append, List.forall_mem_append, and_assoc, forall_mem_planeWrites, forall_mem_planeWrites,
    forall_mem_planeWrites]
  exact and_congr_right fun _ => ⟨fun ⟨hu, hv⟩ i j hi hj => ⟨hu i j hi hj, hv i j hi hj⟩,
    fun h => ⟨fun i j hi hj => (h i j hi hj).1, fun i j hi hj => (h i j hi hj).2⟩⟩

end Stored

section Transforms

/-! ## Commands that turn the buffer at `SRC` into the buffer at `DST` -/

/-- The job of a transform command: it reads `bytes` bytes at `SRC`, and `DST` is its other base register
(20_memory.md R69). -/
def transformJob (s : State) (bytes : Nat) (foot : List Nat) (ws : List (Nat × Int)) : Job where
  bases := [s.latch.regs.src, s.latch.regs.dst]
  reads := [bufferRegion s.latch.regs.src bytes]
  readFoot := [bufferRegion s.latch.regs.src bytes]
  foot := foot
  ranges := true
  writes := checkedWrites ws
  results := .keep

/-- Command `i` can run to its result: its codes 2 to 8 pass, nobody raced with it, its job turns `bytes` bytes at
`SRC` into the writes `ws`, which fit in as many at `DST`, and memory lies behind both. -/
structure TransformReady (i : Instr) (s : State) (bytes : Nat) (ws : List (Nat × Int)) : Prop where
  job : ∃ foot, jobOf i s = some (transformJob s bytes foot ws)
  check : checkOf i s.latch = none
  quiet : s.raced = false
  pos : 0 < bytes
  reads : State.CanAccess s (bufferRegion s.latch.regs.src bytes)
  writes : State.CanAccess s (bufferRegion s.latch.regs.dst bytes)
  fits : WritesIn (bufferRegion s.latch.regs.dst bytes) ws

theorem TransformReady.offWindow {i : Instr} {s : State} {bytes : Nat} {ws : List (Nat × Int)}
    (h : TransformReady i s bytes ws) :
    ∀ b ∈ [s.latch.regs.src, s.latch.regs.dst], State.baseInWindow s b = false :=
  List.forall_mem_cons.mpr ⟨State.baseInWindow_of_canAccess h.reads h.pos,
    List.forall_mem_singleton.mpr (State.baseInWindow_of_canAccess h.writes h.pos)⟩

/-- With every result in `S16` the command completes and leaves its results at `DST` (20_memory.md R76). -/
theorem TransformReady.completes {i : Instr} {s : State} {bytes : Nat} {ws : List (Nat × Int)}
    (h : TransformReady i s bytes ws) (hok : ∀ w ∈ ws, s16ok w.2 = true) :
    ∃ t, exec i s = .next t ∧ State.CompletedFrom s t ∧ Memory.Holds t.mem ws
      ∧ Memory.SameOutside (bufferRegion s.latch.regs.dst bytes) s.mem t.mem := by
  obtain ⟨foot, hj⟩ := h.job
  have hexec : exec i s = .next (State.succeed ws .keep s) := by
    rw [exec_of_jobOf hj, h.check]
    refine State.runCommand_succeeds h.quiet h.offWindow ?_ (checkedWrites_of_all hok) fun w hw => ?_
    · exact List.forall_mem_singleton.mpr (State.accessRefused_of_canAccess h.reads)
    · obtain ⟨hlo, hhi⟩ := h.fits.inside w hw
      exact State.accessRefused_of_canAccess (h.writes.mono hlo hhi)
  refine ⟨_, hexec, State.succeed_keep_completedFrom ws s, ?_, ?_⟩
  · rw [State.succeed_mem]
    exact Memory.holds_storeAll _ _ h.fits hok
  · rw [State.succeed_mem]
    exact h.fits.sameOutside_storeAll _ _

/-- With a result outside `S16` the command is `E_RANGE` (60_exceptions.md R211). -/
theorem TransformReady.outOfRange {i : Instr} {s : State} {bytes : Nat} {ws : List (Nat × Int)}
    (h : TransformReady i s bytes ws) (hbad : ∃ w ∈ ws, s16ok w.2 = false) :
    exec i s = .next (State.trap .range s) := by
  obtain ⟨foot, hj⟩ := h.job
  refine exec_out_of_range hj h.check h.quiet ?_ h.offWindow (checkedWrites_none hbad)
  exact List.forall_mem_singleton.mpr (State.accessRefused_of_canAccess h.reads)

/-- FDCTQ and DQIDCT on a legal plane (40_transform.md R120). -/
theorem PlaneReady.transformReady {i : Instr} {sz : BitVec 4} {q : QSel} {s : State} {f : Plane → Plane}
    (h : PlaneReady sz q s) (hj : jobOf i s = some (jobPlane f sz s))
    (hc : checkOf i s.latch = checkPlane sz q s.latch) :
    TransformReady i s (2 * blockSize sz ^ 2) (planeWrites s.latch.regs.dst.toNat (blockSize sz)
      (f (Memory.plane s.mem s.latch.regs.src.toNat (blockSize sz)))) := by
  have hpos : 0 < 2 * blockSize sz ^ 2 := by unfold blockSize; positivity
  exact {
    job := ⟨_, hj⟩
    check := hc.trans (checkPlane_eq_none h.pair h.src h.dst (h.reads.le hpos) (h.writes.le hpos))
    quiet := h.quiet
    pos := hpos
    reads := h.reads
    writes := h.writes
    fits := planeWrites_in _ _ h.dst.2 }

/-- The checks of XFWD and XINV pass on a legal block (40_transform.md R124). -/
theorem BlockReady.checkXform_eq_none {sz : BitVec 4} {s : State} (h : BlockReady sz s) :
    checkXform sz s.latch = none := by
  have hpos : 0 < 3 * blockSize sz ^ 2 := by unfold blockSize; positivity
  have hnull := anyNull_eq_false.mpr (List.forall_mem_cons.mpr ⟨h.src.1, List.forall_mem_singleton.mpr h.dst.1⟩)
  have hodd := anyOdd_eq_false.mpr (List.forall_mem_cons.mpr ⟨h.src.2, List.forall_mem_singleton.mpr h.dst.2⟩)
  have htop := anyPastTop_eq_false.mpr
    (List.forall_mem_cons.mpr ⟨h.reads.le hpos, List.forall_mem_singleton.mpr (h.writes.le hpos)⟩)
  simp [checkXform, firstFail, blockSizeLegal_eq, h.size, hnull, hodd, htop]

/-- XFWD and XINV on a legal block, given where their writes lie. -/
theorem BlockReady.transformReady {i : Instr} {sz : BitVec 4} {s : State} {foot : List Nat} {ws : List (Nat × Int)}
    (h : BlockReady sz s)
    (hj : jobOf i s = some (transformJob s (3 * blockSize sz ^ 2) foot ws))
    (hc : checkOf i s.latch = checkXform sz s.latch)
    (hfits : WritesIn (bufferRegion s.latch.regs.dst (3 * blockSize sz ^ 2)) ws) :
    TransformReady i s (3 * blockSize sz ^ 2) ws where
  job := ⟨foot, hj⟩
  check := hc.trans h.checkXform_eq_none
  quiet := h.quiet
  pos := by unfold blockSize; positivity
  reads := h.reads
  writes := h.writes
  fits := hfits

/-! ## The plane commands -/

/-- What a plane command leaves: the plane of its results at `DST` (40_transform.md R121, R122). -/
theorem PlaneReady.completes {i : Instr} {sz : BitVec 4} {q : QSel} {s : State} {f : Plane → Plane}
    (h : PlaneReady sz q s) (hj : jobOf i s = some (jobPlane f sz s))
    (hc : checkOf i s.latch = checkPlane sz q s.latch)
    (hok : ∀ x y, x < blockSize sz → y < blockSize sz →
      s16ok (f (Memory.plane s.mem s.latch.regs.src.toNat (blockSize sz)) x y) = true) :
    ∃ t, exec i s = .next t ∧ State.CompletedFrom s t
      ∧ (∀ x y, x < blockSize sz → y < blockSize sz →
        Memory.elem t.mem (planeAddr s.latch.regs.dst.toNat (blockSize sz) x y)
          = f (Memory.plane s.mem s.latch.regs.src.toNat (blockSize sz)) x y)
      ∧ Memory.SameOutside (bufferRegion s.latch.regs.dst (2 * blockSize sz ^ 2)) s.mem t.mem := by
  obtain ⟨t, he, hcompleted, hholds, hframe⟩ := (h.transformReady hj hc).completes (forall_mem_planeWrites.mpr hok)
  exact ⟨t, he, hcompleted, forall_mem_planeWrites.mp hholds, hframe⟩

/-- Settles O26: FDCTQ is the plane command of `quant`. -/
theorem fdctqWritesLevels : Obligations.FdctqWritesLevels := by
  intro sz q s h
  exact h.completes (i := .fdctq sz q) (f := quant (blockSize sz) (qtab s.cfg (blockSize sz) q)) rfl rfl

/-- Settles O27: DQIDCT is the plane command of `recon`. -/
theorem dqidctWritesSamples : Obligations.DqidctWritesSamples := by
  intro sz q s h
  exact h.completes (i := .dqidct sz q) (f := recon (blockSize sz) (qtab s.cfg (blockSize sz) q)) rfl rfl

/-! ## The block commands -/

/-- Settles O28: XFWD stores one bundle for `N = 4`, and one for each sub-unit otherwise. -/
theorem xfwdWritesCoefficientList : Obligations.XfwdWritesCoefficientList := by
  intro sz s h n src dst y u v
  have hready : TransformReady (.xfwd sz) s (3 * n ^ 2) (forwardWrites s.cfg dst n y u v) :=
    h.transformReady rfl rfl (forwardWrites_in s.cfg y u v h.size h.dst.2)
  refine ⟨fun hok => ?_, hready.outOfRange⟩
  obtain ⟨t, he, hcompleted, hholds, hframe⟩ := hready.completes hok
  refine ⟨t, he, hcompleted, fun h4 => ?_, fun h4 tx ty hx hy => ?_, hframe⟩
  · rw [h4, forwardWrites_four] at hholds
    obtain ⟨hY, hUV⟩ := forall_mem_bundle3Writes.mp hholds
    refine ⟨fun a b ha hb => ?_, fun a b ha hb => ?_⟩
    · rw [Nat.mul_comm 4 b]
      exact hY a b ha hb
    · rw [Nat.mul_comm 2 b]
      exact hUV a b ha hb
  · rw [forwardWrites_of_ne_four _ _ _ _ _ h4] at hholds
    obtain ⟨hY, hUV⟩ := forall_mem_bundle3Writes.mp
      (List.forall_mem_flatMap.mp hholds (tx, ty) (mem_cells.mpr ⟨hx, hy⟩))
    refine ⟨fun a b ha hb => ?_, fun a b ha hb => ?_⟩
    · rw [Nat.mul_comm 8 b]
      exact hY a b ha hb
    · rw [Nat.mul_comm 4 b]
      exact hUV a b ha hb

/-- A choice between two planes, sample by sample. -/
theorem plane_ite (c : Prop) [Decidable c] (p q : Plane) :
    (if c then p else q) = fun i j => if c then p i j else q i j := by
  split <;> rfl

/-- Settles O29: XINV stores one bundle, whose samples come from the sub-units under them. -/
theorem xinvWritesBundle : Obligations.XinvWritesBundle := by
  intro sz s h n src dst unit levels y u v
  have hy : inverseY s.cfg s.mem src n = y := plane_ite _ _ _
  have hu : inverseU s.cfg s.mem src n = u := plane_ite _ _ _
  have hv : inverseV s.cfg s.mem src n = v := plane_ite _ _ _
  obtain ⟨k, hk, -⟩ := blockSize_even h.size
  have hready : TransformReady (.xinv sz) s (3 * n ^ 2) (bundle3Writes dst n y u v) := by
    rw [← hy, ← hu, ← hv]
    exact h.transformReady rfl rfl (bundle3Writes_in _ _ _ h.dst.2 (by omega))
  refine ⟨fun hYok hUVok => ?_, fun hbad => hready.outOfRange ?_⟩
  · obtain ⟨t, he, hcompleted, hholds, hframe⟩ := hready.completes (forall_mem_bundle3Writes.mpr ⟨hYok, hUVok⟩)
    obtain ⟨hY, hUV⟩ := forall_mem_bundle3Writes.mp hholds
    exact ⟨t, he, hcompleted, hY, hUV, hframe⟩
  · by_contra hall
    simp only [not_exists, not_and, Bool.not_eq_false] at hall
    obtain ⟨hYok, hUVok⟩ := forall_mem_bundle3Writes.mp hall
    rcases hbad with ⟨i, j, hi, hj, hf⟩ | ⟨i, j, hi, hj, hf | hf⟩
    · exact Bool.noConfusion (hf.symm.trans (hYok i j hi hj))
    · exact Bool.noConfusion (hf.symm.trans (hUVok i j hi hj).1)
    · exact Bool.noConfusion (hf.symm.trans (hUVok i j hi hj).2)

end Transforms

end Sys2Proof.Machine

/-! PROOFS of the statements about the block cost and the hexagon search (41_motion_search.md R145 to R154). -/

namespace Sys2Proof.Machine

section BlockCost

/-! ## The cost of two blocks (41_motion_search.md R145, R146) -/

theorem sumNat_le {f : Nat → Nat} {c : Nat} (h : ∀ k, f k ≤ c) (n : Nat) : sumNat n f ≤ n * c := by
  induction n with
  | zero => simp [sumNat]
  | succ n ih =>
    rw [sumNat, Nat.succ_mul]
    exact Nat.add_le_add ih (h n)

/-- Planes whose samples are at most `c` apart. -/
theorem sqDiff_le {p q : Plane} {c : Nat} (h : ∀ i j, (p i j - q i j).natAbs ≤ c) (n : Nat) :
    sqDiff n p q ≤ n * (n * c ^ 2) :=
  sumNat_le (fun j => sumNat_le (fun i => Nat.pow_le_pow_left (h i j) 2) n) n

theorem sqDiff_comm (n : Nat) (p q : Plane) : sqDiff n p q = sqDiff n q p := by
  have hflip : ∀ i j, (p i j - q i j).natAbs = (q i j - p i j).natAbs := fun i j => by omega
  simp only [sqDiff, hflip]

theorem blockCost_comm (n : Nat) (b c : Block) (alpha : Bool) : blockCost n b c alpha = blockCost n c b alpha := by
  simp only [blockCost, sqDiff_comm n b.y, sqDiff_comm _ b.u, sqDiff_comm _ b.v, sqDiff_comm n b.a]

theorem blockCost_true (n : Nat) (b c : Block) :
    blockCost n b c true = blockCost n b c false + sqDiff n b.a c.a ^ 2 := rfl

/-- A block as memory can hold it: `S16` samples, and a validity plane of zeros and ones. -/
structure Block.Legal (b : Block) : Prop where
  y : ∀ i j, s16ok (b.y i j) = true
  u : ∀ i j, s16ok (b.u i j) = true
  v : ∀ i j, s16ok (b.v i j) = true
  a : ∀ i j, b.a i j = 0 ∨ b.a i j = 1

theorem s16ok_iff {v : Int} : s16ok v = true ↔ -32768 ≤ v ∧ v ≤ 32767 := by simp [s16ok]

theorem natAbs_sub_le_of_s16 {v w : Int} (hv : s16ok v = true) (hw : s16ok w = true) : (v - w).natAbs ≤ 65535 := by
  rw [s16ok_iff] at hv hw
  omega

theorem blockSize_le {sz : BitVec 4} (h : Instr.blockSizeOk sz = true) : blockSize sz ≤ 128 := by
  have := blockSize_cases h
  omega

/-- With `N` at most 128 the squared luma sum, by far the largest, stays below `2 ^ 92`. -/
theorem blockCost_lt {n : Nat} {b c : Block} (hn : n ≤ 128) (hb : b.Legal) (hc : c.Legal) (alpha : Bool) :
    blockCost n b c alpha < 2 ^ 93 := by
  have hsum : ∀ {p q : Plane} {d m k : Nat}, (∀ i j, (p i j - q i j).natAbs ≤ d) → m ≤ k →
      sqDiff m p q ≤ k * (k * d ^ 2) := fun hd hm =>
    (sqDiff_le hd _).trans (Nat.mul_le_mul hm (Nat.mul_le_mul_right _ hm))
  have hy : sqDiff n b.y c.y ^ 2 ≤ (128 * (128 * 65535 ^ 2)) ^ 2 :=
    Nat.pow_le_pow_left (hsum (fun i j => natAbs_sub_le_of_s16 (hb.y i j) (hc.y i j)) hn) 2
  have hu : sqDiff (n / 2) b.u c.u ≤ 64 * (64 * 65535 ^ 2) :=
    hsum (fun i j => natAbs_sub_le_of_s16 (hb.u i j) (hc.u i j)) (by omega)
  have hv : sqDiff (n / 2) b.v c.v ≤ 64 * (64 * 65535 ^ 2) :=
    hsum (fun i j => natAbs_sub_le_of_s16 (hb.v i j) (hc.v i j)) (by omega)
  have ha : sqDiff n b.a c.a ^ 2 ≤ (128 * (128 * 1 ^ 2)) ^ 2 :=
    Nat.pow_le_pow_left (hsum (fun i j => by have := hb.a i j; have := hc.a i j; omega) hn) 2
  have halpha : (if alpha then sqDiff n b.a c.a ^ 2 else 0) ≤ (128 * (128 * 1 ^ 2)) ^ 2 := by
    split
    · exact ha
    · exact Nat.zero_le _
  unfold blockCost
  norm_num at hy hu hv halpha ⊢
  omega

/-- Settles O37: each sum is at most its number of offsets times the largest square. -/
theorem costProperties : Obligations.CostProperties := by
  refine ⟨fun sz b c alpha hsz h => ?_, blockCost_comm, blockCost_true⟩
  simp only [forall_and] at h
  obtain ⟨hby, hbu, hbv, hcy, hcu, hcv, hba, hca⟩ := h
  exact blockCost_lt (blockSize_le hsz) ⟨hby, hbu, hbv, hba⟩ ⟨hcy, hcu, hcv, hca⟩ alpha

theorem extractAt_s16 (mem : Memory) (b w h : Nat) (px py : Int) (i j : Nat) :
    s16ok (extractAt mem b w h px py i j) = true := by
  unfold extractAt
  split
  · exact Memory.elem_s16 _ _
  · rfl

/-- What `Extract` answers is such a block (41_motion_search.md R142). -/
theorem Operands.extract_legal (o : Operands) (mem : Memory) (r : Raster) (px py : Int) :
    (o.extract mem r px py).Legal where
  y := extractAt_s16 _ _ _ _ _ _
  u := extractAt_s16 _ _ _ _ _ _
  v := extractAt_s16 _ _ _ _ _ _
  a i j := by
    unfold Operands.extract
    simp only
    split
    · exact .inl rfl
    · exact .inr rfl

end BlockCost

section HexSearch

/-! ## One candidate after another -/

/-- The best candidate of those at some positions: a cheapest of them, and none if there are none. -/
inductive Target.Cheapest (t : Target) : List Pos → Option Candidate → Prop where
  | empty : Target.Cheapest t [] none
  | found {ps : List Pos} {b : Candidate} (mem : b.pos ∈ ps) (cost : b.cost = t.costAt b.pos)
      (least : ∀ p ∈ ps, b.cost ≤ t.costAt p) : Target.Cheapest t ps (some b)

variable {t : Target} {st : Search}

/-- A candidate takes the place of the best, or the best stays. -/
theorem better_cases (c : Candidate) (best : Option Candidate) :
    better c best = some c ∨ better c best = best := by
  unfold better
  split
  · exact .inl rfl
  · exact ite_eq_or_eq _ _ _

theorem Target.Cheapest.cons {ps : List Pos} {best : Option Candidate} (h : t.Cheapest ps best) (p : Pos) :
    t.Cheapest (p :: ps) (better ⟨p, t.costAt p⟩ best) := by
  cases h with
  | empty => exact .found (List.mem_singleton.mpr rfl) rfl (List.forall_mem_singleton.mpr le_rfl)
  | @found _ b hmem hcost hleast =>
    unfold better
    simp only
    split
    · next hlt =>
      exact .found (List.mem_cons_self ..) rfl
        (List.forall_mem_cons.mpr ⟨le_rfl, fun q hq => hlt.le.trans (hleast q hq)⟩)
    · next hge =>
      exact .found (List.mem_cons_of_mem p hmem) hcost
        (List.forall_mem_cons.mpr ⟨not_lt.mp hge, hleast⟩)

theorem Target.Cheapest.of_some {ps : List Pos} {b : Candidate} (h : t.Cheapest ps (some b)) :
    b.pos ∈ ps ∧ b.cost = t.costAt b.pos ∧ ∀ p ∈ ps, b.cost ≤ t.costAt p := by
  cases h with
  | found hmem hcost hleast => exact ⟨hmem, hcost, hleast⟩

theorem Target.Cheapest.ne_none {ps : List Pos} {best : Option Candidate} (h : t.Cheapest ps best) (hps : ps ≠ []) :
    best ≠ none := by
  cases h with
  | empty => exact absurd rfl hps
  | found => exact Option.some_ne_none _

/-! ## Evaluation (41_motion_search.md R151, R153) -/

theorem Target.admissible_iff {p : Pos} : t.admissible p = true ↔
    (p.1 - t.sx).natAbs ≤ 48 ∧ (p.2 - t.sy).natAbs ≤ 48 ∧ 0 ≤ p.1 ∧ p.1 < t.w ∧ 0 ≤ p.2 ∧ p.2 < t.h := by
  simp [Target.admissible, inside_iff, and_assoc]

/-- The scratch state of a hexagon run: every evaluated position is admissible and evaluated once, and `best` is a
cheapest of them (41_motion_search.md R153, R154 (c)). -/
structure Target.SearchOk (t : Target) (st : Search) : Prop where
  admissible : ∀ p ∈ st.seen, t.admissible p = true
  nodup : st.seen.Nodup
  cheapest : t.Cheapest st.seen st.best

/-- A position is evaluated, or it is not admissible. -/
def Target.Evaluated (t : Target) (st : Search) (p : Pos) : Prop := t.admissible p = true → p ∈ st.seen

/-- `eval(p)` skips a position, which then is evaluated or not admissible, or puts it before the evaluated ones. -/
theorem Target.eval_cases (t : Target) (st : Search) (p : Pos) :
    (t.Evaluated st p ∧ t.eval st p = st)
      ∨ (p ∉ st.seen ∧ t.admissible p = true
        ∧ t.eval st p = ⟨p :: st.seen, better ⟨p, t.costAt p⟩ st.best⟩) := by
  unfold Target.eval
  split
  · next h =>
    simp only [Bool.or_eq_true, List.contains_iff_mem, Bool.not_eq_true'] at h
    exact .inl ⟨fun ha => h.resolve_right (by simp [ha]), rfl⟩
  · next h =>
    simp only [Bool.or_eq_true, List.contains_iff_mem, Bool.not_eq_true', not_or, Bool.not_eq_false] at h
    obtain ⟨hnew, hadm⟩ := h
    exact .inr ⟨hnew, hadm, rfl⟩

theorem Target.SearchOk.eval (h : t.SearchOk st) (p : Pos) : t.SearchOk (t.eval st p) := by
  rcases t.eval_cases st p with ⟨-, e⟩ | ⟨hnew, hadm, e⟩ <;> rw [e]
  · exact h
  · exact ⟨List.forall_mem_cons.mpr ⟨hadm, h.admissible⟩, List.nodup_cons.mpr ⟨hnew, h.nodup⟩, h.cheapest.cons p⟩

theorem Target.seen_suffix_eval (t : Target) (st : Search) (p : Pos) : st.seen <:+ (t.eval st p).seen := by
  rcases t.eval_cases st p with ⟨-, e⟩ | ⟨-, -, e⟩ <;> rw [e]
  exact List.suffix_cons p st.seen

theorem Target.evaluated_eval (t : Target) (st : Search) (p : Pos) : t.Evaluated (t.eval st p) p := by
  rcases t.eval_cases st p with ⟨hev, e⟩ | ⟨-, -, e⟩ <;> rw [e]
  · exact hev
  · exact fun _ => List.mem_cons_self ..

/-- The best position is the one before or the evaluated one. -/
theorem Target.best_eval {P : Pos → Prop} (h : ∀ b, st.best = some b → P b.pos) {p : Pos} (hp : P p) :
    ∀ b, (t.eval st p).best = some b → P b.pos := by
  rcases t.eval_cases st p with ⟨-, e⟩ | ⟨-, -, e⟩ <;> rw [e]
  · exact h
  · intro b hb
    rcases better_cases ⟨p, t.costAt p⟩ st.best with hbetter | hbetter
    · cases hbetter.symm.trans hb
      exact hp
    · exact h b (hbetter.symm.trans hb)

theorem Target.evalAll_cons (t : Target) (st : Search) (p : Pos) (ps : List Pos) :
    t.evalAll st (p :: ps) = t.evalAll (t.eval st p) ps := rfl

theorem Target.SearchOk.evalAll (h : t.SearchOk st) (ps : List Pos) : t.SearchOk (t.evalAll st ps) :=
  List.foldlRecOn ps t.eval h fun _ hst p _ => hst.eval p

theorem Target.seen_suffix_evalAll (t : Target) (st : Search) (ps : List Pos) :
    st.seen <:+ (t.evalAll st ps).seen :=
  List.foldlRecOn (motive := fun st' => st.seen <:+ st'.seen) ps t.eval List.suffix_rfl
    fun st' hst p _ => hst.trans (t.seen_suffix_eval st' p)

theorem Target.best_evalAll {P : Pos → Prop} (h : ∀ b, st.best = some b → P b.pos) {ps : List Pos}
    (hps : ∀ p ∈ ps, P p) : ∀ b, (t.evalAll st ps).best = some b → P b.pos :=
  List.foldlRecOn (motive := fun st' => ∀ b, st'.best = some b → P b.pos) ps t.eval h
    fun _ hst p hp => Target.best_eval hst (hps p hp)

theorem Target.Evaluated.mono {st' : Search} {p : Pos} (h : t.Evaluated st p) (hs : st.seen <:+ st'.seen) :
    t.Evaluated st' p := fun ha => hs.subset (h ha)

theorem Target.evaluated_evalAll (t : Target) (ps : List Pos) :
    ∀ (st : Search), ∀ p ∈ ps, t.Evaluated (t.evalAll st ps) p := by
  induction ps with
  | nil => simp
  | cons q ps ih =>
    intro st p hp
    rw [Target.evalAll_cons]
    rcases List.mem_cons.mp hp with rfl | hp
    · exact (t.evaluated_eval st p).mono (t.seen_suffix_evalAll _ ps)
    · exact ih _ p hp

/-! ## Rounds (41_motion_search.md R153, R154) -/

/-- There are `97 · 97` positions in the search window (41_motion_search.md R154 (a)). -/
theorem Target.SearchOk.length_seen_le (h : t.SearchOk st) : st.seen.length ≤ 9409 := by
  have hbox : st.seen.toFinset ⊆ Finset.Icc (t.sx - 48) (t.sx + 48) ×ˢ Finset.Icc (t.sy - 48) (t.sy + 48) := by
    intro p hp
    have := Target.admissible_iff.mp (h.admissible p (List.mem_toFinset.mp hp))
    simp only [Finset.mem_product, Finset.mem_Icc]
    omega
  have hcard := Finset.card_le_card hbox
  rw [List.toFinset_card_of_nodup h.nodup, Finset.card_product, Int.card_Icc, Int.card_Icc] at hcard
  have hside : ∀ c : Int, (c + 48 + 1 - (c - 48)).toNat = 97 := fun c => by omega
  simpa only [hside] using hcard

/-- The loop before a round at `centre` with radius `r`: the best position, if there is one, is the centre, and before
the nine-point pattern the hexagon of radius 2 around the centre has been evaluated. -/
structure Target.RoundStart (t : Target) (centre : Pos) (r : Nat) (st : Search) : Prop where
  ok : t.SearchOk st
  centred : ∀ b, st.best = some b → b.pos = centre
  radius : r = 4 ∨ r = 2 ∨ (r = 1 ∧ ∀ p ∈ hexPattern centre 2, t.Evaluated st p)

/-- How many hexagon rounds can follow: one for each position still to be found, and one for each halving. -/
def roundsLeft (r : Nat) (st : Search) : Nat := 9409 - st.seen.length + Nat.log 2 r

/-- The scratch state after the hexagon of a round. -/
def Target.afterRound (t : Target) (centre : Pos) (r : Nat) (st : Search) : Search :=
  t.evalAll st (hexPattern centre r)

/-- A round evaluates its centre first (41_motion_search.md R152). -/
theorem Target.afterRound_centre_first (t : Target) (centre : Pos) (r : Nat) (st : Search) :
    t.afterRound centre r st = t.evalAll (t.eval st centre) (hexPattern centre r).tail :=
  t.evalAll_cons st centre (hexPattern centre r).tail

/-! What a round does, by the radius and by what it finds. -/

theorem Target.hexLoop_nine {r : Nat} (hr : r ≤ 1) (fuel : Nat) (centre : Pos) (st : Search) :
    t.hexLoop (fuel + 1) centre r st = t.evalAll st (ninePattern centre r) :=
  if_pos hr

theorem Target.hexLoop_halve {centre : Pos} {r : Nat} (hr : 2 ≤ r)
    (h : ∀ b, (t.afterRound centre r st).best = some b → b.pos = centre) (fuel : Nat) :
    t.hexLoop (fuel + 1) centre r st = t.hexLoop fuel centre (r / 2) (t.afterRound centre r st) := by
  refine (if_neg (Nat.not_le.mpr hr)).trans ?_
  simp only
  split
  · rfl
  · next b hb => exact if_pos (h b hb)

theorem Target.hexLoop_recentre {centre : Pos} {r : Nat} {b : Candidate} (hr : 2 ≤ r)
    (hb : (t.afterRound centre r st).best = some b) (hne : b.pos ≠ centre) (fuel : Nat) :
    t.hexLoop (fuel + 1) centre r st = t.hexLoop fuel b.pos r (t.afterRound centre r st) := by
  refine (if_neg (Nat.not_le.mpr hr)).trans ?_
  simp only
  split
  · next hnone => cases hb.symm.trans hnone
  · next b' hb' =>
    cases hb.symm.trans hb'
    exact if_neg hne

/-- A pattern that finds no new position changes nothing. -/
theorem Target.evalAll_eq_or_longer (t : Target) (st : Search) (ps : List Pos) :
    t.evalAll st ps = st ∨ st.seen.length < (t.evalAll st ps).seen.length := by
  induction ps with
  | nil => exact .inl rfl
  | cons p ps ih =>
    rw [Target.evalAll_cons]
    rcases t.eval_cases st p with ⟨-, e⟩ | ⟨-, -, e⟩
    · rw [e]
      exact ih
    · have hlonger := (t.seen_suffix_evalAll (t.eval st p) ps).length_le
      rw [e, List.length_cons] at hlonger
      rw [e]
      exact .inr hlonger

/-- The loop goes on from the round at `centre` with radius `r` to one at `centre'` with radius `r'`, and fewer rounds
are left. -/
structure Target.Leads (t : Target) (centre : Pos) (r : Nat) (st : Search) (centre' : Pos) (r' : Nat) : Prop where
  start : t.RoundStart centre' r' (t.afterRound centre r st)
  fewer : roundsLeft r' (t.afterRound centre r st) < roundsLeft r st
  loop : ∀ fuel, t.hexLoop (fuel + 1) centre r st = t.hexLoop fuel centre' r' (t.afterRound centre r st)

/-- A round halves the radius, or it finds a new position and goes there (41_motion_search.md R154 (a)). -/
theorem Target.RoundStart.leads {centre : Pos} {r : Nat} (h : t.RoundStart centre r st) (hr : 2 ≤ r) :
    ∃ centre' r', t.Leads centre r st centre' r' := by
  have hok : t.SearchOk (t.afterRound centre r st) := h.ok.evalAll _
  have hr42 : r = 4 ∨ r = 2 := by
    rcases h.radius with hr' | hr' | ⟨hr', -⟩ <;> omega
  by_cases hstay : ∀ b, (t.afterRound centre r st).best = some b → b.pos = centre
  · refine ⟨centre, r / 2, ⟨hok, hstay, ?_⟩, ?_, t.hexLoop_halve hr hstay⟩
    · rcases hr42 with rfl | rfl
      · exact .inr (.inl rfl)
      · exact .inr (.inr ⟨rfl, t.evaluated_evalAll _ st⟩)
    · have hlen := (t.seen_suffix_evalAll st (hexPattern centre r)).length_le
      have hlog : Nat.log 2 r = Nat.log 2 (r / 2) + 1 := by
        rcases hr42 with rfl | rfl <;> norm_num
      change st.seen.length ≤ (t.afterRound centre r st).seen.length at hlen
      unfold roundsLeft
      omega
  · push Not at hstay
    obtain ⟨b, hb, hne⟩ := hstay
    refine ⟨b.pos, r, ⟨hok, ?_, by omega⟩, ?_, t.hexLoop_recentre hr hb hne⟩
    · intro b' hb'
      rw [hb] at hb'
      cases hb'
      rfl
    · have hnew : st.seen.length < (t.afterRound centre r st).seen.length := by
        refine (t.evalAll_eq_or_longer st (hexPattern centre r)).resolve_left fun hsame => hne (h.centred b ?_)
        exact hsame ▸ hb
      have hle := hok.length_seen_le
      unfold roundsLeft
      omega

/-- With a round of fuel for each that is left, the loop comes to its nine-point pattern, and more fuel changes
nothing. -/
theorem Target.RoundStart.ends {fuel : Nat} : ∀ {centre : Pos} {r : Nat} {st : Search}, t.RoundStart centre r st →
    roundsLeft r st < fuel → ∃ c last, t.RoundStart c 1 last ∧ st.seen <:+ last.seen
      ∧ ∀ k, t.hexLoop (fuel + k) centre r st = t.evalAll last (ninePattern c 1) := by
  induction fuel with
  | zero => exact fun _ hlt => absurd hlt (Nat.not_lt_zero _)
  | succ fuel ih =>
    intro centre r st h hlt
    by_cases hr : 2 ≤ r
    · obtain ⟨centre', r', hlead⟩ := h.leads hr
      obtain ⟨c, last, hlast, hseen, hloop⟩ := ih hlead.start (hlead.fewer.trans_le (Nat.le_of_lt_succ hlt))
      refine ⟨c, last, hlast, (t.seen_suffix_evalAll st _).trans hseen, fun k => ?_⟩
      rw [Nat.add_right_comm, hlead.loop, hloop]
    · obtain rfl : r = 1 := by
        rcases h.radius with hr' | hr' | ⟨hr', -⟩ <;> omega
      refine ⟨centre, st, h, List.suffix_rfl, fun k => ?_⟩
      rw [Nat.add_right_comm, Target.hexLoop_nine le_rfl]
      rfl

/-! ## The whole search -/

/-- The scratch state before a search (41_motion_search.md R153). -/
def Search.fresh : Search := ⟨[], none⟩

theorem Target.roundStart_fresh (t : Target) : t.RoundStart (t.sx, t.sy) 4 Search.fresh :=
  ⟨⟨by simp [Search.fresh], List.nodup_nil, .empty⟩, by simp [Search.fresh], .inl rfl⟩

/-- A search evaluates the hexagon of radius 4 around the searched position, and in the end the nine points around a
last centre; with `hexFuel` rounds or more. -/
theorem Target.hexLoop_fresh (t : Target) :
    ∃ c last, t.RoundStart c 1 last ∧ (t.afterRound (t.sx, t.sy) 4 Search.fresh).seen <:+ last.seen
      ∧ ∀ k, t.hexLoop (hexFuel + k) (t.sx, t.sy) 4 Search.fresh = t.evalAll last (ninePattern c 1) := by
  obtain ⟨centre, r, hlead⟩ := t.roundStart_fresh.leads (by norm_num)
  have hrounds : roundsLeft 4 Search.fresh = 9411 := by norm_num [roundsLeft, Search.fresh]
  have hfewer := hlead.fewer
  rw [hrounds] at hfewer
  obtain ⟨c, last, hlast, hseen, hloop⟩ := hlead.start.ends hfewer
  refine ⟨c, last, hlast, hseen, fun k => ?_⟩
  have hfuel : hexFuel + k = 9411 + k + 1 := by unfold hexFuel; omega
  rw [hfuel, hlead.loop, hloop]

/-- Settles O39: a search has `hexFuel` rounds left at most, one more than the last of them. -/
theorem hexSearchTerminates : Obligations.HexSearchTerminates := by
  intro t k
  obtain ⟨c, last, -, -, hloop⟩ := t.hexLoop_fresh
  exact (hloop k).trans (hloop 0).symm

/-- What a search answers: the nine-point pattern around a last centre, evaluated after its rounds. -/
theorem Target.hexSearch_eq (t : Target) :
    ∃ c last, t.RoundStart c 1 last ∧ (t.afterRound (t.sx, t.sy) 4 Search.fresh).seen <:+ last.seen
      ∧ t.hexSearch = t.evalAll last (ninePattern c 1) := by
  obtain ⟨c, last, hlast, hseen, hloop⟩ := t.hexLoop_fresh
  exact ⟨c, last, hlast, hseen, hloop 0⟩

theorem Target.hexSearch_ok (t : Target) : t.SearchOk t.hexSearch := by
  obtain ⟨c, last, hlast, -, heq⟩ := t.hexSearch_eq
  rw [heq]
  exact hlast.ok.evalAll _

/-! The patterns as offsets (41_motion_search.md R152). -/

theorem hexPattern_four (c : Pos) : hexPattern c 4
    = [(0, 0), (4, 0), (2, 4), (-2, 4), (-4, 0), (-2, -4), (2, -4)].map fun d => (c.1 + d.1, c.2 + d.2) := by
  simp [hexPattern, sub_eq_add_neg]

theorem hexPattern_two (c : Pos) : hexPattern c 2
    = [(0, 0), (2, 0), (1, 2), (-1, 2), (-2, 0), (-1, -2), (1, -2)].map fun d => (c.1 + d.1, c.2 + d.2) := by
  simp [hexPattern, sub_eq_add_neg]

theorem mem_ninePattern_one {c p : Pos} :
    p ∈ ninePattern c 1 ↔ (p.1 - c.1).natAbs ≤ 1 ∧ (p.2 - c.2).natAbs ≤ 1 := by
  simp only [ninePattern, List.mem_cons, List.not_mem_nil, or_false, Prod.ext_iff]
  omega

/-- An admissible searched position is the first that a search evaluates. -/
theorem Target.suffix_afterRound_fresh (h : t.admissible (t.sx, t.sy) = true) :
    [(t.sx, t.sy)] <:+ (t.afterRound (t.sx, t.sy) 4 Search.fresh).seen := by
  have hfirst : (t.eval Search.fresh (t.sx, t.sy)).seen = [(t.sx, t.sy)] := by
    simp [Target.eval, Search.fresh, h]
  rw [← hfirst, Target.afterRound_centre_first]
  exact t.seen_suffix_evalAll _ _

/-- Settles O38: by the invariant of the rounds, the first round, and the last centre. -/
theorem hexSearchIsSound : Obligations.HexSearchIsSound := by
  intro t
  obtain ⟨c, last, hlast, hfirst, heq⟩ := t.hexSearch_eq
  have hok := t.hexSearch_ok
  generalize t.hexSearch = result at heq hok ⊢
  intro seen evaluated
  have hseen : last.seen <:+ result.seen := by
    rw [heq]
    exact t.seen_suffix_evalAll _ _
  refine ⟨fun p hp => Target.admissible_iff.mp (hok.admissible p hp), hok.nodup, fun b hb => ?_, fun hadm => ?_,
    fun d hd => ?_, c, fun d hd => ?_, fun dx dy hdx hdy => ?_, fun b hb => ?_⟩
  · have hcheapest := hok.cheapest
    rw [hb] at hcheapest
    exact hcheapest.of_some
  · obtain ⟨later, hsplit⟩ := (Target.suffix_afterRound_fresh hadm).trans (hfirst.trans hseen)
    have hlater : seen = later ++ [(t.sx, t.sy)] := hsplit.symm
    have hne : seen ≠ [] := by simp [hlater]
    exact ⟨by rw [hlater, List.getLast?_concat], hok.cheapest.ne_none hne⟩
  · have hmem : (t.sx + d.1, t.sy + d.2) ∈ hexPattern (t.sx, t.sy) 4 := by
      rw [hexPattern_four]
      exact List.mem_map_of_mem hd
    exact (t.evaluated_evalAll _ Search.fresh _ hmem).mono (hfirst.trans hseen)
  · have hmem : (c.1 + d.1, c.2 + d.2) ∈ hexPattern c 2 := by
      rw [hexPattern_two]
      exact List.mem_map_of_mem hd
    rcases hlast.radius with hr | hr | ⟨-, hhex⟩
    · cases hr
    · cases hr
    · exact (hhex _ hmem).mono hseen
  · have hmem : (c.1 + dx, c.2 + dy) ∈ ninePattern c 1 := mem_ninePattern_one.mpr (by simp [hdx, hdy])
    have hev := t.evaluated_evalAll _ last _ hmem
    rw [← heq] at hev
    exact hev
  · rw [heq] at hb
    exact mem_ninePattern_one.mp
      (Target.best_evalAll (P := (· ∈ ninePattern c 1))
        (fun b hb => mem_ninePattern_one.mpr (by simp [hlast.centred b hb])) (fun _ hp => hp) b hb)

end HexSearch

end Sys2Proof.Machine

/-! PROOFS of the statements about the search commands (41_motion_search.md R142 to R161): the candidate a search
reports, and what EXTRACT, COST, MSEARCH and RESID leave. -/

namespace Sys2Proof.Machine

section BestCandidate

/-! ## The best candidate of one reference (41_motion_search.md R155) -/

variable {t : Target} {n : Nat} {l : Latch} {mem : Memory}

theorem Target.mem_window {p : Pos} : p ∈ t.window ↔ (p.1 - t.sx).natAbs ≤ 2 ∧ (p.2 - t.sy).natAbs ≤ 2 := by
  obtain ⟨x, y⟩ := p
  simp only [Target.window, List.mem_flatMap, List.mem_map, List.mem_range, Prod.mk.injEq]
  constructor
  · rintro ⟨dy, hdy, dx, hdx, rfl, rfl⟩
    omega
  · rintro ⟨hx, hy⟩
    exact ⟨(y - t.sy + 2).toNat, by omega, (x - t.sx + 2).toNat, by omega, by omega, by omega⟩

theorem Target.Cheapest.foldl (qs : List Pos) : ∀ {ps : List Pos} {best : Option Candidate}, t.Cheapest ps best →
    t.Cheapest (qs.reverse ++ ps) (qs.foldl (fun low p => better ⟨p, t.costAt p⟩ low) best) := by
  induction qs with
  | nil => exact fun h => h
  | cons q qs ih =>
    intro ps best h
    rw [List.reverse_cons, List.append_assoc, List.foldl_cons]
    exact ih (h.cons q)

/-- The refinement keeps a cheapest of the 25 offsets and of what the hexagon search evaluated. -/
theorem Target.exhaustive_cheapest (t : Target) :
    t.Cheapest (t.window.reverse ++ t.hexSearch.seen) (t.exhaustive t.hexSearch.best) :=
  t.hexSearch_ok.cheapest.foldl t.window

/-- A candidate that the search of one reference may report: its cost is that of its position, which is in the search
window, and none of the 25 offsets of the refinement is cheaper (41_motion_search.md R141, R155). -/
structure Target.Reportable (t : Target) (c : Candidate) : Prop where
  cost : c.cost = t.costAt c.pos
  near : (c.pos.1 - t.sx).natAbs ≤ 48 ∧ (c.pos.2 - t.sy).natAbs ≤ 48
  window : ∀ p ∈ t.window, c.cost ≤ t.costAt p

theorem bestOfRaster_reportable (n : Nat) (l : Latch) (mem : Memory) (ra : Raster) :
    ∃ c, bestOfRaster n l mem ra = some c ∧ (searchTarget n l mem ra).Reportable c := by
  have hcheapest : (searchTarget n l mem ra).Cheapest _ (bestOfRaster n l mem ra) :=
    (searchTarget n l mem ra).exhaustive_cheapest
  have hok := (searchTarget n l mem ra).hexSearch_ok
  generalize searchTarget n l mem ra = t at hcheapest hok ⊢
  have hne : t.window.reverse ++ t.hexSearch.seen ≠ [] := by
    have hcentre : (t.sx, t.sy) ∈ t.window := Target.mem_window.mpr (by simp)
    exact List.ne_nil_of_mem (List.mem_append_left _ (List.mem_reverse.mpr hcentre))
  obtain ⟨c, hc⟩ := Option.ne_none_iff_exists'.mp (hcheapest.ne_none hne)
  rw [hc] at hcheapest
  obtain ⟨hmem, hcost, hmin⟩ := hcheapest.of_some
  refine ⟨c, hc, hcost, ?_, fun p hp => hmin p (List.mem_append_left _ (List.mem_reverse.mpr hp))⟩
  rcases List.mem_append.mp hmem with hwindow | hseen
  · have := Target.mem_window.mp (List.mem_reverse.mp hwindow)
    omega
  · obtain ⟨hx, hy, -⟩ := Target.admissible_iff.mp (hok.admissible _ hseen)
    exact ⟨hx, hy⟩

/-! ## The best candidate of all references (41_motion_search.md R157, R158) -/

/-- What the search holds after the references `done`: the best candidate of one of them, no dearer than that of any,
and nothing if there were none. -/
inductive BestOfAll (n : Nat) (l : Latch) (mem : Memory) : List (Int × Raster) → Option (Int × Candidate) → Prop where
  | empty : BestOfAll n l mem [] none
  | found {done : List (Int × Raster)} {r : Int} {ra : Raster} {c : Candidate} (tag : (r, ra) ∈ done)
      (best : bestOfRaster n l mem ra = some c)
      (least : ∀ tr ∈ done, ∀ c', bestOfRaster n l mem tr.2 = some c' → c.cost ≤ c'.cost) :
      BestOfAll n l mem done (some (r, c))

theorem BestOfAll.cons {done : List (Int × Raster)} {best : Option (Int × Candidate)}
    (h : BestOfAll n l mem done best) (tr : Int × Raster) :
    BestOfAll n l mem (tr :: done) (bestOver n l mem best tr) := by
  obtain ⟨c, hc, -⟩ := bestOfRaster_reportable n l mem tr.2
  have hself : ∀ c', bestOfRaster n l mem tr.2 = some c' → c.cost ≤ c'.cost := fun c' hc' => by
    cases hc.symm.trans hc'
    exact le_rfl
  unfold bestOver
  rw [hc]
  cases h with
  | empty => exact .found (List.mem_singleton.mpr rfl) hc (List.forall_mem_singleton.mpr hself)
  | @found _ r ra b htag hbest hleast =>
    simp only
    split
    · next hlt =>
      exact .found (List.mem_cons_self ..) hc
        (List.forall_mem_cons.mpr ⟨hself, fun q hq c' hc' => hlt.le.trans (hleast q hq c' hc')⟩)
    · next hge =>
      exact .found (List.mem_cons_of_mem tr htag) hbest
        (List.forall_mem_cons.mpr ⟨fun c' hc' => (not_lt.mp hge).trans (hself c' hc'), hleast⟩)

theorem BestOfAll.foldl (trs : List (Int × Raster)) : ∀ {done : List (Int × Raster)}
    {best : Option (Int × Candidate)}, BestOfAll n l mem done best →
    BestOfAll n l mem (trs.reverse ++ done) (trs.foldl (bestOver n l mem) best) := by
  induction trs with
  | nil => exact fun h => h
  | cons tr trs ih =>
    intro done best h
    rw [List.reverse_cons, List.append_assoc, List.foldl_cons]
    exact ih (h.cons tr)

theorem BestOfAll.ne_none {done : List (Int × Raster)} {best : Option (Int × Candidate)}
    (h : BestOfAll n l mem done best) (hdone : done ≠ []) : best ≠ none := by
  cases h with
  | empty => exact absurd rfl hdone
  | found => exact Option.some_ne_none _

theorem BestOfAll.of_some {done : List (Int × Raster)} {r : Int} {c : Candidate}
    (h : BestOfAll n l mem done (some (r, c))) :
    (∃ ra, (r, ra) ∈ done ∧ bestOfRaster n l mem ra = some c)
      ∧ ∀ tr ∈ done, ∀ c', bestOfRaster n l mem tr.2 = some c' → c.cost ≤ c'.cost := by
  cases h with
  | found htag hbest hleast => exact ⟨⟨_, htag, hbest⟩, hleast⟩

theorem searchAll_bestOfAll (n : Nat) (l : Latch) (mem : Memory) :
    BestOfAll n l mem (Latch.searchOrder l).reverse (searchAll n l mem) := by
  have hfold : BestOfAll n l mem ((Latch.searchOrder l).reverse ++ []) (searchAll n l mem) :=
    BestOfAll.foldl (Latch.searchOrder l) .empty
  rwa [List.append_nil] at hfold

theorem searchAll_ne_none (h : Latch.searchOrder l ≠ []) : searchAll n l mem ≠ none :=
  (searchAll_bestOfAll n l mem).ne_none (List.reverse_ne_nil_iff.mpr h)

/-- The reported candidate is one that the search of its reference reports, and no dearer than that of any
reference. -/
theorem searchAll_some {r : Int} {c : Candidate} (h : searchAll n l mem = some (r, c)) :
    (∃ ra, (r, ra) ∈ Latch.searchOrder l ∧ (searchTarget n l mem ra).Reportable c)
      ∧ ∀ tr ∈ Latch.searchOrder l, ∃ c', (searchTarget n l mem tr.2).Reportable c' ∧ c.cost ≤ c'.cost := by
  have hbest := searchAll_bestOfAll n l mem
  rw [h] at hbest
  obtain ⟨⟨ra, htag, hc⟩, hleast⟩ := hbest.of_some
  refine ⟨⟨ra, List.mem_reverse.mp htag, ?_⟩, fun tr htr => ?_⟩
  · obtain ⟨c', hc', hrep⟩ := bestOfRaster_reportable n l mem ra
    cases hc.symm.trans hc'
    exact hrep
  · obtain ⟨c', hc', hrep⟩ := bestOfRaster_reportable n l mem tr.2
    exact ⟨c', hrep, hleast tr (List.mem_reverse.mpr htr) c' hc'⟩

/-- Settles O40: the reported candidate is no dearer than that of any reference, which is no dearer than its
refinement window. -/
theorem msearchChoosesBest : Obligations.MsearchChoosesBest := by
  intro n l mem r c h
  obtain ⟨⟨ra, hra, hrep⟩, hmin⟩ := searchAll_some h
  obtain ⟨hx, hy⟩ : (c.pos.1 - l.regs.sx).natAbs ≤ 48 ∧ (c.pos.2 - l.regs.sy).natAbs ≤ 48 := hrep.near
  refine ⟨⟨ra, hra, hrep.cost⟩, by omega, by omega, fun tr htr dx dy hdx hdx' hdy hdy' => ?_⟩
  obtain ⟨c', hrep', hle⟩ := hmin tr htr
  refine hle.trans (hrep'.window (l.regs.sx + dx, l.regs.sy + dy) (Target.mem_window.mpr ?_))
  change (l.regs.sx + dx - l.regs.sx).natAbs ≤ 2 ∧ (l.regs.sy + dy - l.regs.sy).natAbs ≤ 2
  omega

/-! ## What fits the result registers (41_motion_search.md R141, R145, R158) -/

theorem searchOrder_tag {tr : Int × Raster} (h : tr ∈ Latch.searchOrder l) : -1 ≤ tr.1 ∧ tr.1 ≤ 4 := by
  unfold Latch.searchOrder at h
  rcases List.mem_append.mp h with hslot | hla
  · have hslots := List.mem_of_mem_take hslot
    simp only [List.mem_cons, List.not_mem_nil, or_false] at hslots
    rcases hslots with rfl | rfl | rfl | rfl <;> simp
  · split at hla
    · obtain rfl := List.mem_singleton.mp hla
      simp
    · cases hla

theorem mem_searchOrder_lookAhead (h : l.laEn = true) : (-1, l.regs.la) ∈ Latch.searchOrder l := by
  unfold Latch.searchOrder
  rw [if_pos h]
  exact List.mem_append_right _ (List.mem_singleton.mpr rfl)

/-- The cost of two blocks of a legal size that memory holds, as the cost registers keep it. -/
theorem toNat_ofNat_blockCost {sz : BitVec 4} (hsz : Instr.blockSizeOk sz = true) {b c : Block} (hb : b.Legal)
    (hc : c.Legal) (alpha : Bool) :
    (BitVec.ofNat 128 (blockCost (blockSize sz) b c alpha)).toNat = blockCost (blockSize sz) b c alpha := by
  have hlt := blockCost_lt (blockSize_le hsz) hb hc alpha
  rw [BitVec.toNat_ofNat, Nat.mod_eq_of_lt (by omega)]

end BestCandidate

section Ready

/-! ## Commands that can run to their result -/

/-- Command `i` has the job `j`, its codes 2 to 8 pass, nobody raced with it, and memory lies behind what it reads. -/
structure JobReady (i : Instr) (s : State) (j : Job) : Prop where
  job : jobOf i s = some j
  check : checkOf i s.latch = none
  quiet : s.raced = false
  offWindow : State.OffWindow j s
  reads : ∀ r ∈ j.reads, State.CanAccess s r

variable {i : Instr} {sz : BitVec 4} {s : State} {j : Job} {ra : Raster} {b : Word} {bytes : Nat}
  {ws : List (Nat × Int)}

theorem JobReady.succeeds (h : JobReady i s j) (hws : j.writes = some ws)
    (hacc : ∀ w ∈ ws, State.CanAccess s (elemRegion w.1)) : exec i s = .next (State.succeed ws j.results s) := by
  rw [exec_of_jobOf h.job, h.check]
  exact State.runCommand_succeeds h.quiet h.offWindow
    (fun r hr => State.accessRefused_of_canAccess (h.reads r hr)) hws
    fun w hw => State.accessRefused_of_canAccess (hacc w hw)

/-- A command that stores arrays in a buffer leaves them there, and changes nothing else (20_memory.md R76). -/
theorem JobReady.stores (h : JobReady i s j) (hws : j.writes = some ws) (hkeep : j.results = .keep)
    (hfits : WritesIn (bufferRegion b bytes) ws) (hacc : State.CanAccess s (bufferRegion b bytes))
    (hok : ∀ w ∈ ws, s16ok w.2 = true) :
    ∃ t, exec i s = .next t ∧ State.CompletedFrom s t ∧ Memory.Holds t.mem ws
      ∧ Memory.SameOutside (bufferRegion b bytes) s.mem t.mem := by
  have hexec := h.succeeds hws fun w hw => by
    obtain ⟨hlo, hhi⟩ := hfits.inside w hw
    exact hacc.mono hlo hhi
  rw [hkeep] at hexec
  refine ⟨_, hexec, State.succeed_keep_completedFrom ws s, ?_, ?_⟩
  · rw [State.succeed_mem]
    exact Memory.holds_storeAll _ _ hfits hok
  · rw [State.succeed_mem]
    exact hfits.sameOutside_storeAll _ _

/-- With a result outside `S16` the command is `E_RANGE` (60_exceptions.md R211). -/
theorem JobReady.outOfRange (h : JobReady i s j) (hws : j.writes = none) : exec i s = .next (State.trap .range s) :=
  exec_out_of_range h.job h.check h.quiet (fun r hr => State.accessRefused_of_canAccess (h.reads r hr)) h.offWindow hws

/-! ## Rasters (20_memory.md R64) -/

theorem RasterReady.bases_ok (h : RasterReady s ra) : ∀ b ∈ Raster.bases ra, baseOk b :=
  List.forall_mem_cons.mpr ⟨h.y, List.forall_mem_cons.mpr ⟨h.u, List.forall_mem_singleton.mpr h.v⟩⟩

theorem RasterReady.regions_le (h : RasterReady s ra) (hf : FrameReady sz s) :
    ∀ p ∈ Operands.rasterRegions s.latch.regs ra, p.base + p.bytes ≤ 2 ^ 32 :=
  fun p hp => (h.planes p hp).le (Operands.rasterRegions_pos hf.width hf.height p hp)

/-- A block of an accessible raster can be read, wherever it lies (41_motion_search.md R142). -/
theorem RasterReady.canAccess_blockReads (h : RasterReady s ra) (px py : Int) (n : Nat) :
    ∀ r ∈ s.latch.regs.blockReads ra px py n, State.CanAccess s r := by
  intro r hr
  obtain ⟨a, ha, rfl⟩ := List.mem_map.mp hr
  obtain ⟨p, hp, hlo, hhi, -⟩ := blockAddrs_in ha
  exact (h.planes p hp).mono hlo hhi

/-- A buffer of some bytes for each sample of a block is not empty. -/
theorem mul_blockSize_sq_pos (sz : BitVec 4) {k : Nat} (hk : 0 < k) : 0 < k * blockSize sz ^ 2 :=
  Nat.mul_pos hk (Nat.pow_pos (Nat.two_pow_pos _))

/-- The base registers tested when `V_REF` is resolved are those of the raster it resolves to (60_exceptions.md
R204). -/
theorem Latch.resolvedBases_subset {l : Latch} (h : Latch.resolve l = some ra) :
    ∀ b ∈ Latch.resolvedBases l, b ∈ Raster.bases ra := by
  unfold Latch.resolvedBases
  split
  · next hla =>
    rcases Latch.resolve_eq_some h with ⟨hpos, -⟩ | ⟨-, -, rfl⟩
    · omega
    · exact fun _ hb => hb
  · exact fun _ hb => absurd hb List.not_mem_nil

theorem Latch.resolvedRegions_of_resolve {l : Latch} (h : Latch.resolve l = some ra) :
    Latch.resolvedRegions l = Operands.rasterRegions l.regs ra := by
  simp only [Latch.resolvedRegions, h]

/-! ## The common checks (41_motion_search.md R143) -/

theorem FrameReady.size_legal (h : FrameReady sz s) : blockSizeLegal sz = true := h.size

theorem FrameReady.dims_legal (h : FrameReady sz s) : frameLegal s.latch.regs = true := by
  simp [frameLegal, h.width, h.height]

theorem anyNull_of_baseOk {bs : List Word} (h : ∀ b ∈ bs, baseOk b) : anyNull bs = false :=
  anyNull_eq_false.mpr fun b hb => (h b hb).1

theorem anyOdd_of_baseOk {bs : List Word} (h : ∀ b ∈ bs, baseOk b) : anyOdd bs = false :=
  anyOdd_eq_false.mpr fun b hb => (h b hb).2

/-- The checks of a command that names one raster besides its own pass when that raster exists and every base register
and region it uses is legal. -/
theorem FrameReady.checks_pass (h : FrameReady sz s) {ref : Option Raster} {bs : List Word} {rs : List Region}
    (href : ref = some ra) (hbs : ∀ b ∈ bs, baseOk b) (hrs : ∀ r ∈ rs, r.base + r.bytes ≤ 2 ^ 32) :
    firstFail [(!blockSizeLegal sz, .size), (!frameLegal s.latch.regs, .config), (ref.isNone, .ref),
      (anyNull bs, .null), (anyOdd bs, .align), (anyPastTop rs, .addr)] = none := by
  simp [firstFail, h.size_legal, h.dims_legal, href, anyNull_of_baseOk hbs, anyOdd_of_baseOk hbs,
    anyPastTop_eq_false.mpr hrs]

end Ready

section Extract

/-! ## EXTRACT (41_motion_search.md R144) -/

variable {sz : BitVec 4} {sel : RSel} {s : State} {ra : Raster}

/-- The base registers tested for EXTRACT's raster are that raster's (60_exceptions.md R204). -/
theorem extractBases_subset {l : Latch} (h : extractRaster sel l = some ra) :
    ∀ b ∈ extractBases sel l, b ∈ Raster.bases ra := by
  cases sel with
  | cur => cases h; exact fun _ hb => hb
  | comp => cases h; exact fun _ hb => hb
  | ref => exact Latch.resolvedBases_subset h

theorem extractRegions_of_raster {l : Latch} (h : extractRaster sel l = some ra) :
    extractRegions sel l = Operands.rasterRegions l.regs ra := by
  simp only [extractRegions, h]

theorem FrameReady.extractReady (h : FrameReady sz s) (hsel : extractRaster sel s.latch = some ra)
    (hra : RasterReady s ra) (hdst : BufferReady s s.latch.regs.dst (5 * blockSize sz ^ 2)) :
    JobReady (.extract sz sel) s (jobExtract sz sel s) where
  job := rfl
  check := by
    have hbytes : 0 < 5 * blockSize sz ^ 2 := mul_blockSize_sq_pos sz (by norm_num)
    refine h.checks_pass hsel (List.forall_mem_append.mpr ⟨fun b hb => hra.bases_ok b (extractBases_subset hsel b hb),
      List.forall_mem_singleton.mpr hdst.base⟩) (List.forall_mem_append.mpr ⟨?_, List.forall_mem_singleton.mpr ?_⟩)
    · rw [extractRegions_of_raster hsel]
      exact hra.regions_le h
    · exact hdst.bytes.le hbytes
  quiet := h.quiet
  offWindow := by
    have hbytes : 0 < 5 * blockSize sz ^ 2 := mul_blockSize_sq_pos sz (by norm_num)
    simp only [State.OffWindow, jobExtract, hsel, Option.getD_some]
    exact List.forall_mem_append.mpr ⟨hra.bases_offWindow h.width h.height,
      List.forall_mem_singleton.mpr (hdst.base_offWindow hbytes)⟩
  reads := by
    simp only [jobExtract, hsel, Option.getD_some]
    exact hra.canAccess_blockReads _ _ _

/-- The four planes of a bundle of even size fill its `5 N²` bytes (20_memory.md R67). -/
theorem bundle4Writes_in {b n : Nat} (y u v a : Plane) (hb : b % 2 = 0) (hn : n % 2 = 0) :
    WritesIn ⟨b, 5 * n ^ 2⟩ (bundle4Writes b n y u v a) := by
  have hsquare : n ^ 2 % 2 = 0 := by simp [Nat.pow_mod, hn]
  exact (bundle3Writes_in y u v hb hn).append (planeWrites_in n a (b := bundleA b n) (by unfold bundleA; omega))
    le_rfl le_rfl (by simp only [bundleA]; omega)

theorem forall_mem_bundle4Writes {P : Nat × Int → Prop} {b n : Nat} {y u v a : Plane} :
    (∀ w ∈ bundle4Writes b n y u v a, P w) ↔ (∀ w ∈ bundle3Writes b n y u v, P w)
      ∧ ∀ i j, i < n → j < n → P (planeAddr (bundleA b n) n i j, a i j) := by
  unfold bundle4Writes
  rw [List.forall_mem_append, forall_mem_planeWrites]

/-- A validity plane holds `S16` values. -/
theorem Block.Legal.a_s16 {b : Block} (h : b.Legal) (i j : Nat) : s16ok (b.a i j) = true := by
  rcases h.a i j with ha | ha <;> rw [ha] <;> rfl

theorem Block.Legal.bundle4Writes_s16 {b : Block} (h : b.Legal) (base n : Nat) :
    ∀ w ∈ bundle4Writes base n b.y b.u b.v b.a, s16ok w.2 = true :=
  forall_mem_bundle4Writes.mpr ⟨forall_mem_bundle3Writes.mpr
    ⟨fun i j _ _ => h.y i j, fun i j _ _ => ⟨h.u i j, h.v i j⟩⟩, fun i j _ _ => h.a_s16 i j⟩

/-- EXTRACT leaves the block of its raster at `DST`, whatever the selector. -/
theorem FrameReady.extract_completes {px py : Int} (h : FrameReady sz s)
    (hsel : extractRaster sel s.latch = some ra) (hpos : extractPos sel s.latch.regs = (px, py))
    (hra : RasterReady s ra) (hdst : BufferReady s s.latch.regs.dst (5 * blockSize sz ^ 2)) :
    let e := s.latch.regs.extract s.mem ra px py
    ∃ t, exec (.extract sz sel) s = .next t ∧ State.CompletedFrom s t
      ∧ Memory.Holds t.mem (bundle4Writes s.latch.regs.dst.toNat (blockSize sz) e.y e.u e.v e.a)
      ∧ Memory.SameOutside (bufferRegion s.latch.regs.dst (5 * blockSize sz ^ 2)) s.mem t.mem := by
  intro e
  obtain ⟨k, hk, -⟩ := blockSize_even h.size
  refine (h.extractReady hsel hra hdst).stores ?_ rfl (bundle4Writes_in _ _ _ _ hdst.base.2 (by omega)) hdst.bytes
    ((Operands.extract_legal _ _ _ _ _).bundle4Writes_s16 _ _)
  simp only [jobExtract, hsel, Option.getD_some, hpos]
  rfl

/-- Settles O34: each selector names its raster and position; the bundle at `DST` is read plane by plane. -/
theorem extractCopiesBlock : Obligations.ExtractCopiesBlock := by
  intro sz sel s ra px py h hsel hra hdst n w h' dst
  have hraster : extractRaster sel s.latch = some ra ∧ extractPos sel s.latch.regs = (px, py) := by
    cases sel <;> obtain ⟨hr, rfl, rfl⟩ := hsel
    · exact ⟨congrArg some hr.symm, rfl⟩
    · exact ⟨congrArg some hr.symm, rfl⟩
    · exact ⟨hr, rfl⟩
  obtain ⟨hname, hpos⟩ := hraster
  obtain ⟨t, he, hcompleted, hholds, hframe⟩ := h.extract_completes hname hpos hra hdst
  obtain ⟨hYUV, hA⟩ := forall_mem_bundle4Writes.mp hholds
  obtain ⟨hY, hUV⟩ := forall_mem_bundle3Writes.mp hYUV
  exact ⟨t, he, hcompleted, fun i j hi hj => ⟨hY i j hi hj, hA i j hi hj⟩, hUV, hframe⟩

end Extract

section Cost

/-! ## COST (41_motion_search.md R150) -/

variable {sz : BitVec 4} {s : State} {ra : Raster}

theorem FrameReady.costReady (h : FrameReady sz s) (hcur : RasterReady s s.latch.regs.cur)
    (href : Latch.resolve s.latch = some ra) (hra : RasterReady s ra) (alpha : Bool) :
    JobReady (.cost sz alpha) s (jobCost sz alpha s) where
  job := rfl
  check := by
    refine h.checks_pass href (List.forall_mem_append.mpr ⟨hcur.bases_ok, fun b hb =>
      hra.bases_ok b (Latch.resolvedBases_subset href b hb)⟩) (List.forall_mem_append.mpr ⟨hcur.regions_le h, ?_⟩)
    rw [Latch.resolvedRegions_of_resolve href]
    exact hra.regions_le h
  quiet := h.quiet
  offWindow := by
    simp only [State.OffWindow, jobCost, href, Option.getD_some]
    exact List.forall_mem_append.mpr ⟨hcur.bases_offWindow h.width h.height, hra.bases_offWindow h.width h.height⟩
  reads := by
    simp only [jobCost, href, Option.getD_some]
    exact List.forall_mem_append.mpr ⟨hcur.canAccess_blockReads _ _ _, hra.canAccess_blockReads _ _ _⟩

/-- Settles O35: COST writes nothing but the cost registers, which the cost fits. -/
theorem costReportsCost : Obligations.CostReportsCost := by
  intro sz alpha s ra h hcur href hra o
  refine ⟨_, (h.costReady hcur href hra alpha).succeeds rfl (by simp), ?_, rfl, ?_⟩
  · constructor <;> rfl
  · rw [State.succeed_cost]
    simp only [jobCost, href, Option.getD_some, State.applyResults]
    exact toNat_ofNat_blockCost h.size (Operands.extract_legal _ _ _ _ _) (Operands.extract_legal _ _ _ _ _) alpha

end Cost

section Msearch

/-! ## MSEARCH (41_motion_search.md R158) -/

variable {sz : BitVec 4} {s : State}

theorem FrameReady.msearchReady (h : FrameReady sz s) (hcur : RasterReady s s.latch.regs.cur)
    (hrefs : ∀ tr ∈ Latch.searchOrder s.latch, RasterReady s tr.2)
    (hpos : inside s.latch.regs.w s.latch.regs.h s.latch.regs.sx s.latch.regs.sy = true) :
    JobReady (.msearch sz) s (jobMsearch sz s) where
  job := rfl
  check := by
    have hbases : ∀ b ∈ Raster.bases s.latch.regs.cur ++ (if s.latch.laEn then Raster.bases s.latch.regs.la else []),
        baseOk b := by
      refine List.forall_mem_append.mpr ⟨hcur.bases_ok, fun b hb => ?_⟩
      split at hb
      · next hla => exact (hrefs _ (mem_searchOrder_lookAhead hla)).bases_ok b hb
      · cases hb
    have hregions := anyPastTop_eq_false.mpr (List.forall_mem_append.mpr ⟨hcur.regions_le h,
      List.forall_mem_flatMap.mpr fun tr htr => (hrefs tr htr).regions_le h⟩)
    simp [checkOf, checkMsearch, firstFail, h.size_legal, h.dims_legal, anyNull_of_baseOk hbases,
      anyOdd_of_baseOk hbases, hpos, hregions]
  quiet := h.quiet
  offWindow := List.forall_mem_append.mpr ⟨hcur.bases_offWindow h.width h.height,
    List.forall_mem_flatMap.mpr fun tr htr => (hrefs tr htr).bases_offWindow h.width h.height⟩
  reads := List.forall_mem_append.mpr ⟨hcur.canAccess_blockReads _ _ _, List.forall_mem_flatMap.mpr fun tr htr =>
    List.forall_mem_flatMap.mpr fun _ _ => (hrefs tr htr).canAccess_blockReads _ _ _⟩

/-- A search writes `MATCH`, the span, `V_REF` and the cost, and no other register. -/
theorem State.succeed_search_completedFrom (ws : List (Nat × Int)) (found : Bool) (dx dy r : Half) (c : CostReg)
    (s : State) :
    State.CompletedFrom
      { s with
        status := { s.status with matched := found }
        regs := { s.regs with vSpanX := dx, vSpanY := dy, vRef := r }
        cost := c } (State.succeed ws (.search found dx dy r c) s) := by
  constructor <;> rfl

/-- What a reported candidate leaves in the result registers: they are wide enough for it. -/
theorem searchResults_fit {r : Int} {c : Candidate} (hsz : Instr.blockSizeOk sz = true)
    (h : searchAll (blockSize sz) s.latch s.mem = some (r, c)) :
    (BitVec.ofInt 16 (s.latch.regs.sx - c.pos.1)).toInt = s.latch.regs.sx - c.pos.1
      ∧ (BitVec.ofInt 16 (s.latch.regs.sy - c.pos.2)).toInt = s.latch.regs.sy - c.pos.2
      ∧ (BitVec.ofInt 16 r).toInt = r ∧ (BitVec.ofNat 128 c.cost).toNat = c.cost := by
  obtain ⟨⟨ra, hra, hcost⟩, hx, hy, -⟩ := msearchChoosesBest _ _ _ _ _ h
  obtain ⟨hlo, hhi⟩ := searchOrder_tag hra
  simp only at hlo hhi
  refine ⟨toInt_ofInt_s16 (s16ok_iff.mpr (by omega)), toInt_ofInt_s16 (s16ok_iff.mpr (by omega)),
    toInt_ofInt_s16 (s16ok_iff.mpr (by omega)), ?_⟩
  rw [hcost]
  exact toNat_ofNat_blockCost hsz (Operands.extract_legal _ _ _ _ _) (Operands.extract_legal _ _ _ _ _) true

/-- Settles O36: the result registers hold the no-match values, or a reported candidate, whose span, tag and cost fit
them. -/
theorem msearchReportsBest : Obligations.MsearchReportsBest := by
  intro sz s h hcur hrefs hx hx' hy hy'
  have hexec := (h.msearchReady hcur hrefs (inside_iff.mpr ⟨hx, hx', hy, hy'⟩)).succeeds rfl (by simp)
  have hresults : (jobMsearch sz s).results
    = searchResults s.latch.regs (searchAll (blockSize sz) s.latch s.mem) := rfl
  rw [hresults] at hexec
  cases hsearch : searchAll (blockSize sz) s.latch s.mem with
  | none =>
    rw [hsearch] at hexec
    refine ⟨_, hexec, rfl, State.succeed_search_completedFrom .., fun _ => ⟨rfl, rfl, rfl, rfl, ?_⟩,
      fun hne => absurd hsearch (searchAll_ne_none hne)⟩
    exact BitVec.toNat_allOnes
  | some rc =>
    obtain ⟨r, c⟩ := rc
    rw [hsearch] at hexec
    obtain ⟨hspanX, hspanY, htag, hcost⟩ := searchResults_fit h.size hsearch
    refine ⟨_, hexec, rfl, State.succeed_search_completedFrom .., fun hnil => ?_,
      fun _ => ⟨r, c, rfl, rfl, hspanX, hspanY, htag, hcost⟩⟩
    have hnone : searchAll (blockSize sz) s.latch s.mem = none := by
      rw [searchAll, hnil]
      rfl
    cases hsearch.symm.trans hnone

end Msearch

section Resid

/-! ## RESID (41_motion_search.md R160, R161) -/

variable {sz : BitVec 4} {s : State} {ra : Raster}

theorem FrameReady.residReady (h : FrameReady sz s) (hcur : RasterReady s s.latch.regs.cur)
    (href : Latch.resolve s.latch = some ra) (hra : RasterReady s ra)
    (hdst : BufferReady s s.latch.regs.dst (3 * blockSize sz ^ 2)) :
    JobReady (.resid sz) s (jobResid sz s) where
  job := rfl
  check := by
    have hbytes : 0 < 3 * blockSize sz ^ 2 := mul_blockSize_sq_pos sz (by norm_num)
    have hbases := List.forall_mem_append.mpr ⟨hcur.bases_ok, fun b hb =>
      hra.bases_ok b (Latch.resolvedBases_subset href b hb)⟩
    have hregions := List.forall_mem_append.mpr ⟨hcur.regions_le h, hra.regions_le h⟩
    refine h.checks_pass href (List.forall_mem_append.mpr ⟨hbases, List.forall_mem_singleton.mpr hdst.base⟩)
      (List.forall_mem_append.mpr ⟨?_, List.forall_mem_singleton.mpr (hdst.bytes.le hbytes)⟩)
    rw [Latch.resolvedRegions_of_resolve href]
    exact hregions
  quiet := h.quiet
  offWindow := by
    have hbytes : 0 < 3 * blockSize sz ^ 2 := mul_blockSize_sq_pos sz (by norm_num)
    have hrasters := List.forall_mem_append.mpr
      ⟨hcur.bases_offWindow h.width h.height, hra.bases_offWindow h.width h.height⟩
    simp only [State.OffWindow, jobResid, href, Option.getD_some]
    exact List.forall_mem_append.mpr ⟨hrasters, List.forall_mem_singleton.mpr (hdst.base_offWindow hbytes)⟩
  reads := by
    simp only [jobResid, href, Option.getD_some]
    exact List.forall_mem_append.mpr ⟨hcur.canAccess_blockReads _ _ _, hra.canAccess_blockReads _ _ _⟩

/-- A sample outside `S16` is a write outside it. -/
theorem exists_bundle3Writes_not_s16 {b n : Nat} {y u v : Plane}
    (h : (∃ i j, i < n ∧ j < n ∧ s16ok (y i j) = false)
      ∨ ∃ i j, i < n / 2 ∧ j < n / 2 ∧ (s16ok (u i j) = false ∨ s16ok (v i j) = false)) :
    ∃ w ∈ bundle3Writes b n y u v, s16ok w.2 = false := by
  rcases h with ⟨i, j, hi, hj, hf⟩ | ⟨i, j, hi, hj, hf | hf⟩
  · exact ⟨_, mem_bundle3Writes.mpr (.inl (mem_planeWrites.mpr ⟨i, j, hi, hj, rfl, rfl⟩)), hf⟩
  · exact ⟨_, mem_bundle3Writes.mpr (.inr (.inl (mem_planeWrites.mpr ⟨i, j, hi, hj, rfl, rfl⟩))), hf⟩
  · exact ⟨_, mem_bundle3Writes.mpr (.inr (.inr (mem_planeWrites.mpr ⟨i, j, hi, hj, rfl, rfl⟩))), hf⟩

/-- The writes of RESID, unchecked: the gated differences of the searched block and the block at `ra` (R161). -/
def residWrites (sz : BitVec 4) (s : State) (ra : Raster) : List (Nat × Int) :=
  let o := s.latch.regs
  let b := o.extract s.mem o.cur o.sx o.sy
  let c := o.extract s.mem ra o.mx o.my
  bundle3Writes o.dst.toNat (blockSize sz) (gatedDiff o.tY.toNat b.y c.y) (gatedDiff o.tC.toNat b.u c.u)
    (gatedDiff o.tC.toNat b.v c.v)

theorem jobResid_writes (sz : BitVec 4) (href : Latch.resolve s.latch = some ra) :
    (jobResid sz s).writes = checkedWrites (residWrites sz s ra) := by
  simp only [jobResid, href, Option.getD_some]
  rfl

/-- Settles O41: RESID stores one bundle, if `S16chk` lets all of it pass. -/
theorem residWritesGatedDifferences : Obligations.ResidWritesGatedDifferences := by
  intro sz s ra h hcur href hra hdst n o dst b c gated
  have hready := h.residReady hcur href hra hdst
  have hwrites := jobResid_writes sz href
  refine ⟨fun hYok hUVok => ?_, fun hbad => hready.outOfRange ?_⟩
  · have hok : ∀ w ∈ residWrites sz s ra, s16ok w.2 = true := forall_mem_bundle3Writes.mpr ⟨hYok, hUVok⟩
    obtain ⟨k, hk, -⟩ := blockSize_even h.size
    obtain ⟨t, he, hcompleted, hholds, hframe⟩ := hready.stores (hwrites.trans (checkedWrites_of_all hok)) rfl
      (bundle3Writes_in _ _ _ hdst.base.2 (by omega)) hdst.bytes hok
    obtain ⟨hY, hUV⟩ := forall_mem_bundle3Writes.mp hholds
    exact ⟨t, he, hcompleted, hY, hUV, hframe⟩
  · exact hwrites.trans (checkedWrites_none (exists_bundle3Writes_not_s16 hbad))

end Resid

end Sys2Proof.Machine

/-! PROOFS of the statements about reconstruction and the reference table (42_reconstruct.md): the writes of a block to
the composite, MC and INTRA, and the three commands with no data path. -/

namespace Sys2Proof.Machine

section TableCommands

/-! ## NOP, REFCLR, REFPUSH (42_reconstruct.md R180 to R182) -/

/-- A successful completion changes no register of the state it completes. -/
theorem State.finish_completedFrom (s : State) : State.CompletedFrom s (State.finish s) := by
  constructor <;> rfl

/-- Settles O49: both commands are a completion, REFCLR of the state with an empty table. -/
theorem nopAndRefclrComplete : Obligations.NopAndRefclrComplete :=
  ⟨fun s => ⟨_, rfl, State.finish_completedFrom s, rfl⟩,
    fun s => ⟨_, rfl, State.finish_completedFrom { s with refs := RefTable.empty }, rfl, rfl⟩⟩

/-- The checks of REFPUSH pass on a legal frame and a raster with legal bases and regions. -/
theorem checkRefpush_eq_none {l : Latch} (hframe : frameLegal l.regs = true)
    (hbases : ∀ b ∈ Raster.bases l.regs.push, baseOk b)
    (hregions : ∀ r ∈ Operands.rasterRegions l.regs l.regs.push, r.base + r.bytes ≤ 2 ^ 32) :
    checkRefpush l = none := by
  simp [checkRefpush, firstFail, hframe, anyNull_of_baseOk hbases, anyOdd_of_baseOk hbases,
    anyPastTop_eq_false.mpr hregions]

/-- `REFCNT` after a push, whatever it was before: counts above 4 fall to 4 too. -/
theorem RefTable.pushed_count_eq_min (t : RefTable) (r : Raster) :
    (RefTable.pushed t r).count.toNat = min (t.count.toNat + 1) 4 := by
  by_cases h : t.count.toNat ≤ 4
  · exact RefTable.pushed_count r h
  · have hfull : (RefTable.pushed t r).count = 4 := if_neg (by omega)
    rw [hfull, Nat.min_eq_right (by omega)]
    rfl

/-- Settles O50: the checks of REFPUSH pass, and the completion carries the pushed table. -/
theorem refpushShiftsTable : Obligations.RefpushShiftsTable := by
  intro s hw hh hy hu hv hregions
  have hbases : ∀ b ∈ Raster.bases s.latch.regs.push, baseOk b :=
    List.forall_mem_cons.mpr ⟨hy, List.forall_mem_cons.mpr ⟨hu, List.forall_mem_singleton.mpr hv⟩⟩
  have hframe : frameLegal s.latch.regs = true := by simp [frameLegal, hw, hh]
  exact ⟨_, exec_refpush_of_pass (checkRefpush_eq_none hframe hbases hregions), State.finish_completedFrom _,
    rfl, rfl, rfl, rfl, rfl, RefTable.pushed_count_eq_min _ _⟩

end TableCommands

section Renumbering

/-! ## `Resolve` after a push (10_state.md R37, 42_reconstruct.md R180) -/

/-- An index from 1 to 4 names a slot, if the table counts that far. -/
theorem Latch.resolve_of_index {l : Latch} (hlo : 1 ≤ l.regs.vRef.toInt) (hhi : l.regs.vRef.toInt ≤ 4) :
    Latch.resolve l = if 4 - l.regs.vRef.toInt < (l.refs.count.toNat : Int)
      then some (RefTable.slot l.refs (4 - l.regs.vRef.toInt).toNat) else none := by
  have hla : ¬ (l.regs.vRef.toInt = -1 ∧ l.laEn = true) := by omega
  simp only [Latch.resolve, hlo, hhi, true_and, if_neg hla]

/-- The index -1 names the look-ahead raster, if it is enabled; the table has no say. -/
theorem Latch.resolve_of_lookAhead {l : Latch} (h : l.regs.vRef.toInt = -1) :
    Latch.resolve l = if l.laEn = true then some l.regs.la else none := by
  simp [Latch.resolve, h]

/-- A push moves each raster but the oldest one slot on. -/
theorem RefTable.slot_pushed_succ (t : RefTable) (r : Raster) {k : Nat} (hk : k < 3) :
    RefTable.slot (RefTable.pushed t r) (k + 1) = RefTable.slot t k := by
  interval_cases k <;> rfl

/-- Settles O51: an index counts slots from the newest, and a push moves both the slots and the count by one. -/
theorem pushRenumbersReferences : Obligations.PushRenumbersReferences := by
  intro l pushed v w hcount resolve
  have hpushed := RefTable.pushed_count pushed hcount
  refine ⟨fun hv => ?_, fun hlo hhi hw => ?_, fun hv => ?_⟩
  · have hvalid : 4 - v.toInt < ((RefTable.pushed l.refs pushed).count.toNat : Int) := by omega
    have hslot : (4 - v.toInt).toNat = 0 := by omega
    simp only [resolve]
    rw [Latch.resolve_of_index (by simp only; omega) (by simp only; omega), if_pos hvalid, hslot]
    rfl
  · have hvalid : 4 - v.toInt < ((RefTable.pushed l.refs pushed).count.toNat : Int)
        ↔ 4 - w.toInt < (l.refs.count.toNat : Int) := by omega
    have hslot : (4 - v.toInt).toNat = (4 - w.toInt).toNat + 1 := by omega
    simp only [resolve]
    rw [Latch.resolve_of_index (by simp only; omega) (by simp only; omega),
      Latch.resolve_of_index (by simp only; omega) (by simp only; omega)]
    simp only [hvalid, hslot]
    rw [RefTable.slot_pushed_succ l.refs pushed (by omega)]
  · simp only [resolve]
    rw [Latch.resolve_of_lookAhead hv, Latch.resolve_of_lookAhead hv]

end Renumbering

section Composite

/-! ## A block in the composite (42_reconstruct.md R172) -/

/-- The writes that store a block at `(px, py)` in a plane of `w × h` samples at `b`, clipped to the plane. -/
def clippedWrites (b w h : Nat) (px py : Int) (n : Nat) (p : Plane) : List (Nat × Int) :=
  (spots w h px py n).map fun c => (planeAddr b w c.x c.y, p c.i c.j)

/-- `WriteBlock` stores three clipped blocks, one in each plane of the composite. -/
theorem blockWrites_eq (o : Operands) (n : Nat) (y u v : Plane) :
    blockWrites o n y u v = clippedWrites o.comp.y.toNat o.w o.h o.sx o.sy n y
      ++ clippedWrites o.comp.u.toNat (o.w / 2) (o.h / 2) (o.sx / 2) (o.sy / 2) (n / 2) u
      ++ clippedWrites o.comp.v.toNat (o.w / 2) (o.h / 2) (o.sx / 2) (o.sy / 2) (n / 2) v := rfl

theorem mem_clippedWrites {b w h n a : Nat} {px py : Int} {p : Plane} {value : Int} :
    (a, value) ∈ clippedWrites b w h px py n p ↔ ∃ i j, i < n ∧ j < n ∧ inside w h (px + i) (py + j) = true
      ∧ a = planeAddr b w (px + i).toNat (py + j).toNat ∧ value = p i j := by
  constructor
  · intro hm
    obtain ⟨c, hc, he⟩ := List.mem_map.mp hm
    obtain ⟨hi, hj, hin, hx, hy⟩ := mem_spots.mp hc
    cases he
    exact ⟨c.i, c.j, hi, hj, hin, by rw [hx, hy], rfl⟩
  · rintro ⟨i, j, hi, hj, hin, rfl, rfl⟩
    exact List.mem_map.mpr ⟨⟨i, j, (px + i).toNat, (py + j).toNat⟩, mem_spots.mpr ⟨hi, hj, hin, rfl, rfl⟩, rfl⟩

/-- The model's list of writes is the relation the statements speak of. -/
theorem mem_blockWrites {o : Operands} {n : Nat} {y u v : Plane} {a : Nat} {value : Int} :
    (a, value) ∈ blockWrites o n y u v ↔ BlockWrite o n y u v a value := by
  rw [blockWrites_eq, List.mem_append, List.mem_append, mem_clippedWrites, mem_clippedWrites, mem_clippedWrites,
    or_assoc]
  refine or_congr_right ⟨?_, ?_⟩
  · rintro (⟨i, j, hi, hj, hin, h⟩ | ⟨i, j, hi, hj, hin, h⟩)
    · exact ⟨i, j, hi, hj, hin, .inl h⟩
    · exact ⟨i, j, hi, hj, hin, .inr h⟩
  · rintro ⟨i, j, hi, hj, hin, h | h⟩
    · exact .inl ⟨i, j, hi, hj, hin, h⟩
    · exact .inr ⟨i, j, hi, hj, hin, h⟩

/-- What holds of every sample of a block holds of the samples that the clip lets through. -/
theorem forall_mem_blockWrites {P : Int → Prop} {o : Operands} {n : Nat} {y u v : Plane}
    (hY : ∀ i j, i < n → j < n → P (y i j))
    (hUV : ∀ i j, i < n / 2 → j < n / 2 → P (u i j) ∧ P (v i j)) :
    ∀ w ∈ blockWrites o n y u v, P w.2 := by
  rintro ⟨a, value⟩ hm
  rcases mem_blockWrites.mp hm with ⟨i, j, hi, hj, -, -, rfl⟩ | ⟨i, j, hi, hj, -, ⟨-, rfl⟩ | ⟨-, rfl⟩⟩
  · exact hY i j hi hj
  · exact (hUV i j hi hj).1
  · exact (hUV i j hi hj).2

/-- A clipped block lies in its plane, and each sample has an element of its own. -/
theorem clippedWrites_in {b : Nat} (w h : Nat) (px py : Int) (n : Nat) (p : Plane) (hb : b % 2 = 0) :
    WritesIn ⟨b, 2 * w * h⟩ (clippedWrites b w h px py n p) where
  inside c hc := by
    obtain ⟨q, hq, rfl⟩ := List.mem_map.mp hc
    obtain ⟨hx, hy⟩ := spot_bounds hq
    exact ⟨planeAddr_ge _ _ _ _, planeAddr_lt hx hy⟩
  even c hc := by
    obtain ⟨q, -, rfl⟩ := List.mem_map.mp hc
    exact planeAddr_even hb
  agree := by
    rintro ⟨a, value⟩ hm ⟨_, value'⟩ hm' rfl
    obtain ⟨i, j, -, -, hin, ha, rfl⟩ := mem_clippedWrites.mp hm
    obtain ⟨i', j', -, -, hin', ha', rfl⟩ := mem_clippedWrites.mp hm'
    rw [inside_iff] at hin hin'
    obtain ⟨hx, hy⟩ := planeAddr_inj (by omega) (by omega) (ha.symm.trans ha')
    obtain rfl : i = i' := by omega
    obtain rfl : j = j' := by omega
    rfl

/-- Writes in regions that share no byte do not hit the same element. -/
theorem WritesIn.addr_ne {r q : Region} {ws vs : List (Nat × Int)} (hws : WritesIn r ws) (hvs : WritesIn q vs)
    (hrq : Region.overlaps r q = false) : ∀ w ∈ ws, ∀ v ∈ vs, w.1 ≠ v.1 := by
  intro w hw v hv he
  have hr := hws.inside w hw
  have hq := hvs.inside v hv
  have hmeet : Region.overlaps r q = true :=
    Region.overlaps_iff.mpr ⟨w.1 - r.base, by omega, by omega, by omega⟩
  rw [hmeet] at hrq
  cases hrq

/-- Two lists of writes, each in agreement with itself, that do not hit the same element agree. -/
theorem agree_append {ws vs : List (Nat × Int)} (hws : ∀ w ∈ ws, ∀ w' ∈ ws, w.1 = w'.1 → w.2 = w'.2)
    (hvs : ∀ v ∈ vs, ∀ v' ∈ vs, v.1 = v'.1 → v.2 = v'.2) (hne : ∀ w ∈ ws, ∀ v ∈ vs, w.1 ≠ v.1) :
    ∀ w ∈ ws ++ vs, ∀ w' ∈ ws ++ vs, w.1 = w'.1 → w.2 = w'.2 :=
  List.forall_mem_append.mpr
    ⟨fun w hw => List.forall_mem_append.mpr ⟨hws w hw, fun v hv he => absurd he (hne w hw v hv)⟩,
      fun v hv => List.forall_mem_append.mpr ⟨fun w hw he => absurd he.symm (hne w hw v hv), hvs v hv⟩⟩

variable {i : Instr} {sz : BitVec 4} {s : State} {j : Job} {n : Nat} {y u v : Plane} {o : Operands}

/-- The three bases of a raster that passed the alignment check. -/
def Raster.Aligned (r : Raster) : Prop := r.y.toNat % 2 = 0 ∧ r.u.toNat % 2 = 0 ∧ r.v.toNat % 2 = 0

theorem RasterReady.aligned {r : Raster} (h : RasterReady s r) : r.Aligned := ⟨h.y.2, h.u.2, h.v.2⟩

theorem blockWrites_even (ha : o.comp.Aligned) : ∀ w ∈ blockWrites o n y u v, w.1 % 2 = 0 := by
  obtain ⟨hy, hu, hv⟩ := ha
  exact List.forall_mem_append.mpr ⟨List.forall_mem_append.mpr
    ⟨(clippedWrites_in _ _ _ _ _ y hy).even, (clippedWrites_in _ _ _ _ _ u hu).even⟩,
    (clippedWrites_in _ _ _ _ _ v hv).even⟩

/-- Where the planes of the composite share no byte, no element is given two values (20_memory.md R72). -/
theorem blockWrites_agree (ha : o.comp.Aligned) (hd : CompDisjoint o) :
    ∀ w ∈ blockWrites o n y u v, ∀ w' ∈ blockWrites o n y u v, w.1 = w'.1 → w.2 = w'.2 := by
  obtain ⟨hy, hu, hv⟩ := ha
  obtain ⟨⟨hyu, hyv⟩, huv⟩ : (_ ∧ _) ∧ _ := by
    simpa only [CompDisjoint, Operands.rasterRegions, List.pairwise_cons, List.forall_mem_cons, List.not_mem_nil,
      IsEmpty.forall_iff, implies_true, List.Pairwise.nil, and_true] using hd
  have hY := clippedWrites_in o.w o.h o.sx o.sy n y hy
  have hU := clippedWrites_in (o.w / 2) (o.h / 2) (o.sx / 2) (o.sy / 2) (n / 2) u hu
  have hV := clippedWrites_in (o.w / 2) (o.h / 2) (o.sx / 2) (o.sy / 2) (n / 2) v hv
  exact agree_append (agree_append hY.agree hU.agree (hY.addr_ne hU hyu)) hV.agree
    (List.forall_mem_append.mpr ⟨hY.addr_ne hV hyv, hU.addr_ne hV huv⟩)

/-- A command that writes a block to the composite leaves in each element one of the values written to it, its own
where the planes share no byte, and touches nothing outside the block footprint (20_memory.md R72). -/
theorem JobReady.composites (h : JobReady i s j) (hcomp : RasterReady s s.latch.regs.comp)
    (hws : j.writes = some (blockWrites s.latch.regs n y u v)) (hkeep : j.results = .keep)
    (hfoot : j.foot = blockFoot s.latch.regs n)
    (hY : ∀ a b, a < n → b < n → s16ok (y a b) = true)
    (hUV : ∀ a b, a < n / 2 → b < n / 2 → s16ok (u a b) = true ∧ s16ok (v a b) = true) :
    let o := s.latch.regs
    ∃ t, exec i s = .next t ∧ State.CompletedFrom s t
      ∧ (∀ a w, BlockWrite o n y u v a w → ∃ w', BlockWrite o n y u v a w' ∧ Memory.elem t.mem a = w')
      ∧ (CompDisjoint o → ∀ a w, BlockWrite o n y u v a w → Memory.elem t.mem a = w)
      ∧ Memory.SameOutsideElems (o.blockAddrs o.comp o.sx o.sy n) s.mem t.mem := by
  intro o
  have hexec := h.succeeds hws fun w hw => by
    obtain ⟨p, hp, hlo, hhi, -⟩ := blockAddrs_in (mem_blockAddrs_of_mem_blockWrites hw)
    exact (hcomp.planes p hp).mono hlo hhi
  have hframe := exec_sameOutside hexec h.job
  have hlegal : ∀ w ∈ blockWrites o n y u v, w.1 % 2 = 0 ∧ s16ok w.2 = true := fun w hw =>
    ⟨blockWrites_even hcomp.aligned w hw, forall_mem_blockWrites (P := fun x => s16ok x = true) hY hUV w hw⟩
  rw [hkeep] at hexec hframe
  rw [hfoot] at hframe
  refine ⟨_, hexec, State.succeed_keep_completedFrom _ s, fun a w hw => ?_, fun hd a w hw => ?_, hframe⟩
  · rw [State.succeed_mem]
    have hm := mem_blockWrites.mpr hw
    rcases Memory.elem_storeAll_cases _ (hlegal _ hm).1 s.freeCtr [] s.mem hlegal with ⟨w', hm', he⟩ | ⟨hunseen, -⟩
    · exact ⟨w', mem_blockWrites.mp hm', he⟩
    · cases hunseen _ hm rfl
  · rw [State.succeed_mem]
    have hm := mem_blockWrites.mpr hw
    exact Memory.elem_storeAll_of_mem s.freeCtr s.mem hlegal hm fun w' hm' =>
      blockWrites_agree hcomp.aligned hd (a, w') hm' (a, w) hm rfl

end Composite

section Mc

/-! ## MC (42_reconstruct.md R171, R173) -/

variable {sz : BitVec 4} {s : State} {ra : Raster}

theorem FrameReady.mcReady (h : FrameReady sz s) (hcomp : RasterReady s s.latch.regs.comp)
    (href : Latch.resolve s.latch = some ra) (hra : RasterReady s ra)
    (hsrc : BufferReady s s.latch.regs.src (3 * blockSize sz ^ 2)) :
    JobReady (.mc sz) s (jobMc sz s) where
  job := rfl
  check := by
    have hbytes : 0 < 3 * blockSize sz ^ 2 := mul_blockSize_sq_pos sz (by norm_num)
    have hbases := List.forall_mem_append.mpr ⟨hcomp.bases_ok, List.forall_mem_singleton.mpr hsrc.base⟩
    have hregions := List.forall_mem_append.mpr ⟨hcomp.regions_le h, hra.regions_le h⟩
    refine h.checks_pass href (List.forall_mem_append.mpr ⟨hbases, fun b hb =>
      hra.bases_ok b (Latch.resolvedBases_subset href b hb)⟩)
      (List.forall_mem_append.mpr ⟨?_, List.forall_mem_singleton.mpr (hsrc.bytes.le hbytes)⟩)
    rw [Latch.resolvedRegions_of_resolve href]
    exact hregions
  quiet := h.quiet
  offWindow := by
    have hbytes : 0 < 3 * blockSize sz ^ 2 := mul_blockSize_sq_pos sz (by norm_num)
    have href_src := List.forall_mem_append.mpr
      ⟨hra.bases_offWindow h.width h.height, List.forall_mem_singleton.mpr (hsrc.base_offWindow hbytes)⟩
    simp only [State.OffWindow, jobMc, href, Option.getD_some]
    exact List.forall_mem_append.mpr ⟨href_src, hcomp.bases_offWindow h.width h.height⟩
  reads := by
    simp only [jobMc, href, Option.getD_some]
    exact List.forall_mem_append.mpr ⟨hra.canAccess_blockReads _ _ _, List.forall_mem_singleton.mpr hsrc.bytes⟩

/-- All sums of MC are in `S16` (42_reconstruct.md R173). -/
theorem mcValues_all {n : Nat} {y u v : Plane} :
    (mcValues n y u v).all s16ok = true ↔ (∀ i j, i < n → j < n → s16ok (y i j) = true)
      ∧ ∀ i j, i < n / 2 → j < n / 2 → s16ok (u i j) = true ∧ s16ok (v i j) = true := by
  have hcells : ∀ {m : Nat} {p : Plane}, (∀ x ∈ (cells m).map fun c => p c.1 c.2, s16ok x = true)
      ↔ ∀ i j, i < m → j < m → s16ok (p i j) = true := by
    intro m p
    simp only [List.forall_mem_map, Prod.forall, mem_cells, and_imp]
  rw [List.all_eq_true, mcValues, List.forall_mem_append, List.forall_mem_append, hcells, hcells, hcells, and_assoc]
  simp only [imp_and, forall_and]

/-- The luma sums of MC: the prediction at `ra` and the residual at `SRC` (42_reconstruct.md R173). -/
def mcY (sz : BitVec 4) (s : State) (ra : Raster) : Plane :=
  let o := s.latch.regs
  addPlanes (o.extract s.mem ra o.mx o.my).y (Memory.plane s.mem o.src.toNat (blockSize sz))

/-- The U sums of MC. -/
def mcU (sz : BitVec 4) (s : State) (ra : Raster) : Plane :=
  let o := s.latch.regs
  addPlanes (o.extract s.mem ra o.mx o.my).u
    (Memory.plane s.mem (bundleU o.src.toNat (blockSize sz)) (blockSize sz / 2))

/-- The V sums of MC. -/
def mcV (sz : BitVec 4) (s : State) (ra : Raster) : Plane :=
  let o := s.latch.regs
  addPlanes (o.extract s.mem ra o.mx o.my).v
    (Memory.plane s.mem (bundleV o.src.toNat (blockSize sz)) (blockSize sz / 2))

theorem jobMc_writes (sz : BitVec 4) (href : Latch.resolve s.latch = some ra) :
    (jobMc sz s).writes =
      if (mcValues (blockSize sz) (mcY sz s ra) (mcU sz s ra) (mcV sz s ra)).all s16ok then
        some (blockWrites s.latch.regs (blockSize sz) (mcY sz s ra) (mcU sz s ra) (mcV sz s ra))
      else none := by
  simp only [jobMc, href, Option.getD_some]
  rfl

/-- Settles O42: with every sum in `S16` the sums are the block that MC writes. -/
theorem mcComposites : Obligations.McComposites := by
  intro sz s ra h hcomp href hra hsrc n o src p y u v hY hUV
  have hwrites := (jobMc_writes sz href).trans (if_pos (mcValues_all.mpr ⟨hY, hUV⟩))
  exact (h.mcReady hcomp href hra hsrc).composites hcomp hwrites rfl rfl hY hUV

/-- Settles O43: one sum outside `S16` leaves MC without writes, wherever in the block it stands. -/
theorem mcChecksEverySum : Obligations.McChecksEverySum := by
  intro sz s ra h hcomp href hra hsrc n o src p hbad
  have hfails : ¬ (mcValues n (mcY sz s ra) (mcU sz s ra) (mcV sz s ra)).all s16ok = true := by
    intro hall
    obtain ⟨hY, hUV⟩ := mcValues_all.mp hall
    rcases hbad with ⟨i, j, hi, hj, hf⟩ | ⟨i, j, hi, hj, hf | hf⟩
    · exact Bool.false_ne_true (hf.symm.trans (hY i j hi hj))
    · exact Bool.false_ne_true (hf.symm.trans (hUV i j hi hj).1)
    · exact Bool.false_ne_true (hf.symm.trans (hUV i j hi hj).2)
  exact (h.mcReady hcomp href hra hsrc).outOfRange ((jobMc_writes sz href).trans (if_neg hfails))

end Mc

section Intra

/-! ## INTRA (42_reconstruct.md R171, R176) -/

variable {sz : BitVec 4} {s : State}

/-- The checks of a command that resolves no reference pass when every base register and region it uses is legal. -/
theorem FrameReady.checks_pass_no_ref (h : FrameReady sz s) {bs : List Word} {rs : List Region}
    (hbs : ∀ b ∈ bs, baseOk b) (hrs : ∀ r ∈ rs, r.base + r.bytes ≤ 2 ^ 32) :
    firstFail [(!blockSizeLegal sz, .size), (!frameLegal s.latch.regs, .config), (anyNull bs, .null),
      (anyOdd bs, .align), (anyPastTop rs, .addr)] = none :=
  (firstFail_skip [(!blockSizeLegal sz, .size), (!frameLegal s.latch.regs, .config)] _ .ref).symm.trans
    (h.checks_pass (ref := some Raster.null) rfl hbs hrs)

theorem FrameReady.intraReady (h : FrameReady sz s) (hcomp : RasterReady s s.latch.regs.comp)
    (hsrc : BufferReady s s.latch.regs.src (3 * blockSize sz ^ 2)) :
    JobReady (.intra sz) s (jobIntra sz s) where
  job := rfl
  check := h.checks_pass_no_ref
    (List.forall_mem_append.mpr ⟨hcomp.bases_ok, List.forall_mem_singleton.mpr hsrc.base⟩)
    (List.forall_mem_append.mpr ⟨hcomp.regions_le h,
      List.forall_mem_singleton.mpr (hsrc.bytes.le (mul_blockSize_sq_pos sz (by norm_num)))⟩)
  quiet := h.quiet
  offWindow := List.forall_mem_cons.mpr ⟨hsrc.base_offWindow (mul_blockSize_sq_pos sz (by norm_num)),
    hcomp.bases_offWindow h.width h.height⟩
  reads := List.forall_mem_singleton.mpr hsrc.bytes

/-- Settles O44: INTRA writes what it reads at `SRC`, and elements of memory are in `S16`. -/
theorem intraOverwrites : Obligations.IntraOverwrites := by
  intro sz s h hcomp hsrc n o src y u v
  exact (h.intraReady hcomp hsrc).composites hcomp rfl rfl rfl (fun _ _ _ _ => Memory.elem_s16 _ _)
    fun _ _ _ _ => ⟨Memory.elem_s16 _ _, Memory.elem_s16 _ _⟩

end Intra

end Sys2Proof.Machine

/-! PROOFS of the statements about the deblocking filter (43_deblock.md): the filter of one edge position, a pass over
all positions of an edge, and what DBLK leaves in data memory. -/

namespace Sys2Proof.Machine

section EdgeFilter

/-! ## `Filt` (43_deblock.md R192) -/

variable {f : FilterParams} {e : EdgeSamples} {r : EdgeResult}

theorem filtCond_iff : filtCond f e = true ↔ ((e.p0 - e.q0).natAbs : Int) < f.alpha
    ∧ ((e.p1 - e.p0).natAbs : Int) < f.beta ∧ ((e.q0 - e.q1).natAbs : Int) < f.beta := by
  simp [filtCond, and_assoc]

theorem filt_eq_none_iff : filt f e = none ↔ ¬ filtCond f e = true := by
  unfold filt
  split <;> simp [*]

theorem natAbs_clip3_le {c : Int} (v : Int) (hc : 0 ≤ c) : ((clip3 (-c) c v).natAbs : Int) ≤ c := by
  unfold clip3
  split
  · omega
  · split <;> omega

/-- A filtered edge: `p0` and `q0` move by opposite corrections, `p1` and `q1` by one each, which may be 0. -/
theorem filt_eq_some (hc : 0 ≤ f.c) (h : filt f e = some r) : ∃ d a b : Int,
    (d.natAbs : Int) ≤ f.c ∧ (a.natAbs : Int) ≤ f.c ∧ (b.natAbs : Int) ≤ f.c
      ∧ r = ⟨e.p1 + a, e.p0 + d, e.q0 - d, e.q1 + b⟩ := by
  have hopt : ∀ {p : Prop} [Decidable p] (v : Int), ((if p then clip3 (-f.c) f.c v else 0).natAbs : Int) ≤ f.c := by
    intro p _ v
    split
    · exact natAbs_clip3_le v hc
    · exact hc
  unfold filt at h
  split at h
  · cases h
    exact ⟨_, _, _, natAbs_clip3_le _ hc, hopt _, hopt _, rfl⟩
  · cases h

/-- Settles O48: every correction is clipped to `c`, and `p0` and `q0` have opposite ones. -/
theorem filterIsBounded : Obligations.FilterIsBounded := by
  intro f e hc
  refine ⟨filt_eq_none_iff.trans (not_congr filtCond_iff), fun r h => ?_⟩
  obtain ⟨d, a, b, hd, ha, hb, rfl⟩ := filt_eq_some hc h
  dsimp only
  omega

theorem filtered_of_none (h : filt f e = none) : filtered f e = ⟨e.p1, e.p0, e.q0, e.q1⟩ := by
  simp [filtered, h]

theorem filtered_of_some (h : filt f e = some r) : filtered f e = r := by
  simp [filtered, h]

/-- Four samples that hold what the filter leaves hold, case by case, its results or what they held. -/
theorem filt_cases_of_filtered {a b c d : Int} (h : a = (filtered f e).p1 ∧ b = (filtered f e).p0
    ∧ c = (filtered f e).q0 ∧ d = (filtered f e).q1) :
    match filt f e with
    | none => a = e.p1 ∧ b = e.p0 ∧ c = e.q0 ∧ d = e.q1
    | some r => a = r.p1 ∧ b = r.p0 ∧ c = r.q0 ∧ d = r.q1 := by
  split
  next hnone => rwa [filtered_of_none hnone] at h
  next r hsome => rwa [filtered_of_some hsome] at h

end EdgeFilter

section Edge

/-! ## One position of an edge (43_deblock.md R193) -/

variable {f : FilterParams} {tx x y : Nat} {p q : Plane}

/-- The six samples of row `y` across the boundary between columns `tx - 1` and `tx`. -/
def acrossEdge (tx : Nat) (p : Plane) (y : Nat) : EdgeSamples :=
  ⟨p (tx - 3) y, p (tx - 2) y, p (tx - 1) y, p tx y, p (tx + 1) y, p (tx + 2) y⟩

theorem acrossEdge_congr (h : ∀ x, p x y = q x y) : acrossEdge tx p y = acrossEdge tx q y := by
  simp only [acrossEdge, h]

/-- A plane with the four samples next to that boundary replaced. -/
def setEdge (tx : Nat) (p : Plane) (y : Nat) (r : EdgeResult) : Plane :=
  setSample (setSample (setSample (setSample p (tx - 2) y r.p1) (tx - 1) y r.p0) tx y r.q0) (tx + 1) y r.q1

theorem setSample_self (p : Plane) (x y : Nat) : setSample p x y (p x y) = p := by
  funext x' y'
  unfold setSample
  split
  next h => rw [h.1, h.2]
  next => rfl

theorem setEdge_self (tx : Nat) (p : Plane) (y : Nat) :
    setEdge tx p y ⟨p (tx - 2) y, p (tx - 1) y, p tx y, p (tx + 1) y⟩ = p := by
  simp only [setEdge, setSample_self]

theorem setEdge_apply (htx : 2 ≤ tx) (p : Plane) (y : Nat) (r : EdgeResult) (x y' : Nat) :
    setEdge tx p y r x y' =
      if y' = y ∧ tx - 2 ≤ x ∧ x < tx + 2 then r.sample (x - (tx - 2)) else p x y' := by
  obtain ⟨k, rfl⟩ := Nat.exists_eq_add_of_le' htx
  simp only [setEdge, setSample, Nat.add_sub_cancel, show k + 2 - 1 = k + 1 by omega]
  by_cases h : y' = y ∧ k ≤ x ∧ x < k + 2 + 2
  · obtain ⟨rfl, hlo, hhi⟩ := h
    obtain ⟨d, rfl⟩ := Nat.exists_eq_add_of_le hlo
    have hd : d < 4 := by omega
    interval_cases d <;> simp [EdgeResult.sample, Nat.add_assoc]
  · rw [if_neg (by omega), if_neg (by omega), if_neg (by omega), if_neg (by omega), if_neg h]

/-- A position that passes holds what the filter leaves in it. -/
theorem leftEdgeAt_eq_some (h : leftEdgeAt f tx p y = some q) :
    q = setEdge tx p y (filtered f (acrossEdge tx p y)) := by
  unfold leftEdgeAt at h
  split at h
  next hnone =>
    cases h
    rw [filtered_of_none (e := acrossEdge tx p y) hnone]
    exact (setEdge_self tx p y).symm
  next r hsome =>
    split at h
    · cases h
      rw [filtered_of_some (e := acrossEdge tx p y) hsome]
      rfl
    · cases h

/-- All samples of a plane are in `S16`. -/
def Plane.S16 (p : Plane) : Prop := ∀ x y, s16ok (p x y) = true

theorem Plane.S16.setSample (hp : Plane.S16 p) {v : Int} (hv : s16ok v = true) (x y : Nat) :
    Plane.S16 (setSample p x y v) := by
  intro x' y'
  unfold Machine.setSample
  split
  · exact hv
  · exact hp x' y'

theorem leftEdgeAt_s16 (hp : Plane.S16 p) (h : leftEdgeAt f tx p y = some q) : Plane.S16 q := by
  unfold leftEdgeAt at h
  split at h
  · cases h
    exact hp
  · split at h
    next hok =>
      simp only [EdgeResult.s16ok, Bool.and_eq_true] at hok
      obtain ⟨⟨⟨hp1, hp0⟩, hq0⟩, hq1⟩ := hok
      cases h
      exact (((hp.setSample hp1 _ _).setSample hp0 _ _).setSample hq0 _ _).setSample hq1 _ _
    · cases h

end Edge

section Pass

/-! ## The rows of the left edge, one after another (43_deblock.md R193) -/

variable {f : FilterParams} {tx : Nat} {p q : Plane} {rows : List Nat}

/-- What every position keeps, a pass keeps. -/
theorem edgePass_keeps {pos : Plane → Nat → Option Plane} {P : Plane → Prop}
    (hkeep : ∀ {p k q}, P p → pos p k = some q → P q) (hp : P p) (h : edgePass pos p rows = some q) : P q := by
  induction rows generalizing p with
  | nil =>
    cases h
    exact hp
  | cons k rest ih =>
    unfold edgePass at h
    split at h
    · cases h
    next p' hk => exact ih (hkeep hp hk) h

/-- A plane with each of these rows filtered by itself. -/
def filterRows (f : FilterParams) (tx : Nat) (rows : List Nat) (p : Plane) : Plane := fun x y =>
  if y ∈ rows ∧ tx - 2 ≤ x ∧ x < tx + 2 then (filtered f (acrossEdge tx p y)).sample (x - (tx - 2)) else p x y

theorem filterRows_off {x y : Nat} (h : ¬ (y ∈ rows ∧ tx - 2 ≤ x ∧ x < tx + 2)) :
    filterRows f tx rows p x y = p x y :=
  if_neg h

theorem filterRows_of_mem {y : Nat} (htx : 2 ≤ tx) (hy : y ∈ rows) :
    let r := filtered f (acrossEdge tx p y)
    filterRows f tx rows p (tx - 2) y = r.p1 ∧ filterRows f tx rows p (tx - 1) y = r.p0
      ∧ filterRows f tx rows p tx y = r.q0 ∧ filterRows f tx rows p (tx + 1) y = r.q1 := by
  intro r
  have hat : ∀ k < 4, filterRows f tx rows p (tx - 2 + k) y = r.sample k := fun k hk => by
    unfold filterRows
    rw [if_pos ⟨hy, by omega, by omega⟩, Nat.add_sub_cancel_left]
  have h0 := hat 0 (by norm_num)
  have h1 := hat 1 (by norm_num)
  have h2 := hat 2 (by norm_num)
  have h3 := hat 3 (by norm_num)
  rw [show tx - 2 + 1 = tx - 1 by omega] at h1
  rw [show tx - 2 + 2 = tx by omega] at h2
  rw [show tx - 2 + 3 = tx + 1 by omega] at h3
  exact ⟨h0, h1, h2, h3⟩

/-- Filtering one more row: it is not among the rest, whose rows it leaves alone. -/
theorem filterRows_cons {y : Nat} (htx : 2 ≤ tx) (hy : y ∉ rows) (p : Plane) :
    filterRows f tx rows (setEdge tx p y (filtered f (acrossEdge tx p y))) = filterRows f tx (y :: rows) p := by
  funext x y'
  by_cases hyy : y' = y
  · subst hyy
    rw [filterRows_off (fun h => hy h.1), setEdge_apply htx]
    simp [filterRows]
  · have hrow : ∀ x, setEdge tx p y (filtered f (acrossEdge tx p y)) x y' = p x y' := fun x => by
      rw [setEdge_apply htx, if_neg (fun h => hyy h.1)]
    simp only [filterRows, List.mem_cons, hyy, false_or, acrossEdge_congr hrow, hrow]

/-- A pass over different rows filters each by itself, because no row reads another. -/
theorem edgePass_leftEdgeAt (htx : ∀ y ∈ rows, 2 ≤ tx) (hrows : rows.Nodup)
    (h : edgePass (leftEdgeAt f tx) p rows = some q) : q = filterRows f tx rows p := by
  induction rows generalizing p with
  | nil =>
    cases h
    funext x y
    exact (filterRows_off (by simp)).symm
  | cons y rest ih =>
    obtain ⟨hy, hrest⟩ := List.nodup_cons.mp hrows
    obtain ⟨htx, htxs⟩ := List.forall_mem_cons.mp htx
    unfold edgePass at h
    split at h
    · cases h
    next p' hp' =>
      rw [ih htxs hrest h, leftEdgeAt_eq_some hp', filterRows_cons htx hy]

theorem inRange_nodup (d : Nat) (t : Int) (n : Nat) : (inRange d t n).Nodup := by
  refine List.nodup_range.filterMap fun i j k hi hj => ?_
  simp only [Option.mem_def, Option.ite_none_right_eq_some, Option.some.injEq] at hi hj
  omega

end Pass

section Transposed

/-! ## The top edge is the left edge of the transposed plane -/

variable {f : FilterParams} {ty : Nat} {p q : Plane}

/-- Rows and columns exchanged. -/
def Plane.transpose (p : Plane) : Plane := fun x y => p y x

theorem transpose_setSample (p : Plane) (x y : Nat) (v : Int) :
    Plane.transpose (setSample p x y v) = setSample (Plane.transpose p) y x v := by
  funext x' y'
  simp only [Plane.transpose, setSample, and_comm]

theorem topEdgeAt_eq (f : FilterParams) (ty : Nat) (p : Plane) (x : Nat) :
    topEdgeAt f ty p x = (leftEdgeAt f ty (Plane.transpose p) x).map Plane.transpose := by
  unfold topEdgeAt leftEdgeAt
  simp only [Plane.transpose]
  split
  · rfl
  · split
    · simp only [Option.map_some, transpose_setSample]
      rfl
    · rfl

theorem topEdgeAt_s16 {x : Nat} (hp : Plane.S16 p) (h : topEdgeAt f ty p x = some q) : Plane.S16 q := by
  rw [topEdgeAt_eq] at h
  obtain ⟨q', hq', rfl⟩ := Option.map_eq_some_iff.mp h
  have hs16 := leftEdgeAt_s16 (p := Plane.transpose p) (fun x y => hp y x) hq'
  exact fun x y => hs16 y x

theorem edgePass_topEdgeAt (f : FilterParams) (ty : Nat) (p : Plane) (cols : List Nat) :
    edgePass (topEdgeAt f ty) p cols
      = (edgePass (leftEdgeAt f ty) (Plane.transpose p) cols).map Plane.transpose := by
  induction cols generalizing p with
  | nil => rfl
  | cons x rest ih =>
    unfold edgePass
    rw [topEdgeAt_eq]
    cases leftEdgeAt f ty (Plane.transpose p) x with
    | none => rfl
    | some q => exact ih (Plane.transpose q)

end Transposed

section BothEdges

/-! ## Both passes (43_deblock.md R193) -/

variable {f : FilterParams} {o : Operands} {n : Nat} {p q : Plane}

theorem leftRows_nodup (o : Operands) (n : Nat) : (leftRows o n).Nodup := by
  unfold leftRows
  split
  · exact inRange_nodup _ _ _
  · exact List.nodup_nil

theorem topCols_nodup (o : Operands) (n : Nat) : (topCols o n).Nodup := by
  unfold topCols
  split
  · exact inRange_nodup _ _ _
  · exact List.nodup_nil

theorem leftFiltered_eq (f : FilterParams) (o : Operands) (n : Nat) (p : Plane) :
    leftFiltered f o n p = filterRows f o.sx.toNat (leftRows o n) p := by
  funext x y
  refine if_congr ?_ rfl rfl
  rw [mem_leftRows]
  tauto

theorem topFiltered_eq (f : FilterParams) (o : Operands) (n : Nat) (p : Plane) :
    topFiltered f o n p
      = Plane.transpose (filterRows f o.sy.toNat (topCols o n) (Plane.transpose p)) := by
  funext x y
  refine if_congr ?_ rfl rfl
  rw [mem_topCols]
  tauto

/-- The left-edge pass filters each row by itself. -/
theorem edgePass_leftRows (h : edgePass (leftEdgeAt f o.sx.toNat) p (leftRows o n) = some q) :
    q = leftFiltered f o n p := by
  rw [leftFiltered_eq]
  refine edgePass_leftEdgeAt (fun y hy => ?_) (leftRows_nodup o n) h
  have := mem_leftRows.mp hy
  omega

/-- The top-edge pass filters each column by itself. -/
theorem edgePass_topCols (h : edgePass (topEdgeAt f o.sy.toNat) p (topCols o n) = some q) :
    q = topFiltered f o n p := by
  rw [edgePass_topEdgeAt] at h
  obtain ⟨q', hq', rfl⟩ := Option.map_eq_some_iff.mp h
  rw [topFiltered_eq, edgePass_leftEdgeAt (fun x hx => ?_) (topCols_nodup o n) hq']
  have := mem_topCols.mp hx
  omega

theorem deblocked_eq_some (h : deblocked f o n p = some q) : ∃ l,
    edgePass (leftEdgeAt f o.sx.toNat) p (leftRows o n) = some l
      ∧ edgePass (topEdgeAt f o.sy.toNat) l (topCols o n) = some q := by
  unfold deblocked at h
  split at h
  · cases h
  next l hl => exact ⟨l, hl, h⟩

theorem deblocked_filters (h : deblocked f o n p = some q) : q = topFiltered f o n (leftFiltered f o n p) := by
  obtain ⟨l, hl, hq⟩ := deblocked_eq_some h
  rw [edgePass_topCols hq, edgePass_leftRows hl]

theorem deblocked_s16 (hp : Plane.S16 p) (h : deblocked f o n p = some q) : Plane.S16 q := by
  obtain ⟨l, hl, hq⟩ := deblocked_eq_some h
  exact edgePass_keeps topEdgeAt_s16 (edgePass_keeps leftEdgeAt_s16 hp hl) hq

/-! ## The samples next to the edges -/

theorem mem_leftSamples {x y : Nat} : (x, y) ∈ leftSamples o n
    ↔ y ∈ leftRows o n ∧ o.sx.toNat - 2 ≤ x ∧ x < o.sx.toNat + 2 := by
  simp only [leftSamples, List.mem_flatMap, List.mem_cons, Prod.mk.injEq, List.not_mem_nil, or_false]
  constructor
  · rintro ⟨y', hy, h⟩
    have := mem_leftRows.mp hy
    obtain rfl : y = y' := by omega
    exact ⟨hy, by omega, by omega⟩
  · rintro ⟨hy, hlo, hhi⟩
    have := mem_leftRows.mp hy
    exact ⟨y, hy, by omega⟩

theorem mem_topSamples {x y : Nat} : (x, y) ∈ topSamples o n
    ↔ x ∈ topCols o n ∧ o.sy.toNat - 2 ≤ y ∧ y < o.sy.toNat + 2 := by
  simp only [topSamples, List.mem_flatMap, List.mem_cons, Prod.mk.injEq, List.not_mem_nil, or_false]
  constructor
  · rintro ⟨x', hx, h⟩
    have := mem_topCols.mp hx
    obtain rfl : x = x' := by omega
    exact ⟨hx, by omega, by omega⟩
  · rintro ⟨hx, hlo, hhi⟩
    have := mem_topCols.mp hx
    exact ⟨x, hx, by omega⟩

theorem mem_deblockSamples {c : Nat × Nat} :
    c ∈ deblockSamples o n ↔ c ∈ leftSamples o n ∨ c ∈ topSamples o n := by
  simp only [deblockSamples, List.mem_append, List.mem_filter, Bool.not_eq_true', List.contains_eq_mem,
    decide_eq_false_iff_not]
  tauto

theorem leftFiltered_off {x y : Nat} (h : (x, y) ∉ leftSamples o n) : leftFiltered f o n p x y = p x y := by
  rw [leftFiltered_eq, filterRows_off (mem_leftSamples.not.mp h)]

theorem topFiltered_off {x y : Nat} (h : (x, y) ∉ topSamples o n) : topFiltered f o n p x y = p x y := by
  rw [topFiltered_eq]
  exact filterRows_off (mem_topSamples.not.mp h)

theorem deblocked_off {x y : Nat} (h : deblocked f o n p = some q) (hc : (x, y) ∉ deblockSamples o n) :
    q x y = p x y := by
  obtain ⟨hleft, htop⟩ := not_or.mp (mem_deblockSamples.not.mp hc)
  rw [deblocked_filters h, topFiltered_off htop, leftFiltered_off hleft]

/-- A block at the frame edge has no edge position (43_deblock.md R190 (a)). -/
theorem leftRows_of_onEdge (h : o.sx ≤ 0 ∨ o.sy ≤ 0) : leftRows o n = [] :=
  List.eq_nil_iff_forall_not_mem.mpr fun y hy => by
    have := mem_leftRows.mp hy
    omega

theorem topCols_of_onEdge (h : o.sx ≤ 0 ∨ o.sy ≤ 0) : topCols o n = [] :=
  List.eq_nil_iff_forall_not_mem.mpr fun x hx => by
    have := mem_topCols.mp hx
    omega

theorem deblocked_of_onEdge (h : o.sx ≤ 0 ∨ o.sy ≤ 0) : deblocked f o n p = some p := by
  simp [deblocked, edgePass, leftRows_of_onEdge h, topCols_of_onEdge h]

end BothEdges

section WriteBack

/-! ## The write-back (43_deblock.md R193) -/

variable {o : Operands} {n : Nat} {p q : Plane}

theorem mem_deblockWrites {a : Nat} {v : Int} : (a, v) ∈ deblockWrites o n p q ↔
    ∃ x y, (x, y) ∈ deblockSamples o n ∧ q x y ≠ p x y ∧ a = planeAddr o.comp.y.toNat o.w x y ∧ v = q x y := by
  simp only [deblockWrites, List.mem_filterMap, Prod.exists, Option.ite_none_left_eq_some, Option.some.injEq,
    Prod.mk.injEq, eq_comm (a := a), eq_comm (a := v), ne_eq]

/-- What is written back: elements of the luma plane, none of them with two values. -/
theorem deblockWrites_in (hb : o.comp.y.toNat % 2 = 0) :
    WritesIn ⟨o.comp.y.toNat, 2 * o.w * o.h⟩ (deblockWrites o n p q) where
  inside := by
    rintro ⟨a, v⟩ hw
    obtain ⟨x, y, hc, -, rfl, -⟩ := mem_deblockWrites.mp hw
    obtain ⟨hx, hy⟩ := deblockSamples_inside hc
    exact ⟨planeAddr_ge _ _ _ _, planeAddr_lt hx hy⟩
  even := by
    rintro ⟨a, v⟩ hw
    obtain ⟨x, y, -, -, rfl, -⟩ := mem_deblockWrites.mp hw
    exact planeAddr_even hb
  agree := by
    rintro ⟨a, v⟩ hw ⟨_, v'⟩ hw' rfl
    obtain ⟨x, y, hc, -, ha, rfl⟩ := mem_deblockWrites.mp hw
    obtain ⟨x', y', hc', -, ha', rfl⟩ := mem_deblockWrites.mp hw'
    obtain ⟨hx, -⟩ := deblockSamples_inside hc
    obtain ⟨hx', -⟩ := deblockSamples_inside hc'
    obtain ⟨rfl, rfl⟩ := planeAddr_inj hx hx' (ha.symm.trans ha')
    rfl

/-- The luma plane of the composite. -/
def Operands.luma (o : Operands) (m : Memory) : Plane := Memory.plane m o.comp.y.toNat o.w

theorem luma_s16 (o : Operands) (m : Memory) : Plane.S16 (o.luma m) := fun _ _ => Memory.elem_s16 _ _

/-- Writing back what changed makes the luma plane what the passes left. -/
theorem luma_storeAll_deblockWrites {m : Memory} (ctr : Nat) (hb : o.comp.y.toNat % 2 = 0) (hq : Plane.S16 q)
    (hoff : ∀ x y, (x, y) ∉ deblockSamples o n → q x y = o.luma m x y) {x y : Nat} (hx : x < o.w) :
    o.luma (Memory.storeAll ctr [] m (deblockWrites o n (o.luma m) q)) x y = q x y := by
  have hlegal : ∀ w ∈ deblockWrites o n (o.luma m) q, w.1 % 2 = 0 ∧ s16ok w.2 = true := by
    rintro ⟨a, v⟩ hw
    refine ⟨(deblockWrites_in hb).even _ hw, ?_⟩
    obtain ⟨x', y', -, -, -, rfl⟩ := mem_deblockWrites.mp hw
    exact hq x' y'
  rcases Memory.elem_storeAll_cases _ (planeAddr_even hb) ctr [] m hlegal with ⟨v, hv, he⟩ | ⟨hunseen, he⟩
  · obtain ⟨x', y', hc, -, ha, rfl⟩ := mem_deblockWrites.mp hv
    obtain ⟨rfl, rfl⟩ := planeAddr_inj hx (deblockSamples_inside hc).1 ha
    exact he
  · refine he.trans (not_not.mp fun hne => ?_)
    have hc : (x, y) ∈ deblockSamples o n := not_not.mp fun hc => hne (hoff x y hc).symm
    exact List.not_mem_nil (hunseen _ (mem_deblockWrites.mpr ⟨x, y, hc, Ne.symm hne, rfl, rfl⟩) rfl)

end WriteBack

section Dblk

/-! ## DBLK (43_deblock.md R193, R194) -/

variable {sz : BitVec 4} {s : State}

theorem FrameReady.dblkReady (h : FrameReady sz s) (hcomp : RasterReady s s.latch.regs.comp) :
    JobReady (.dblk sz) s (jobDblk sz s) where
  job := rfl
  check := h.checks_pass_no_ref hcomp.bases_ok (hcomp.regions_le h)
  quiet := h.quiet
  offWindow := List.forall_mem_singleton.mpr (hcomp.bases_offWindow h.width h.height _ (List.mem_cons_self ..))
  reads := List.forall_mem_singleton.mpr (hcomp.planes _ (List.mem_cons_self ..))

/-- DBLK whose results are all in `S16` completes with its write-back. -/
theorem FrameReady.dblk_succeeds (h : FrameReady sz s) (hcomp : RasterReady s s.latch.regs.comp) {after : Plane}
    (hdone : deblocked (filterParams s.cfg s.latch.regs) s.latch.regs (blockSize sz)
      (s.latch.regs.luma s.mem) = some after) :
    exec (.dblk sz) s = .next (State.succeed
      (deblockWrites s.latch.regs (blockSize sz) (s.latch.regs.luma s.mem) after) .keep s) := by
  refine (h.dblkReady hcomp).succeeds (Option.map_eq_some_iff.mpr ⟨after, hdone, rfl⟩) fun w hw => ?_
  obtain ⟨hlo, hhi⟩ := (deblockWrites_in hcomp.y.2).inside w hw
  exact (hcomp.planes _ (List.mem_cons_self ..)).mono hlo hhi

/-- Settles O45: the write-back makes the plane what the passes left; where a position is out of range the job has no
writes. -/
theorem dblkFiltersPlane : Obligations.DblkFiltersPlane := by
  intro sz s h hcomp o before done
  refine ⟨fun after hdone => ?_, fun hdone => ?_⟩
  · have hexec := h.dblk_succeeds hcomp hdone
    refine ⟨_, hexec, State.succeed_keep_completedFrom _ s, fun x y hx _ => ?_,
      exec_sameOutside hexec (h.dblkReady hcomp).job⟩
    rw [State.succeed_mem]
    exact luma_storeAll_deblockWrites s.freeCtr hcomp.y.2 (deblocked_s16 (luma_s16 o s.mem) hdone)
      (fun _ _ => deblocked_off hdone) hx
  · exact (h.dblkReady hcomp).outOfRange (Option.map_eq_none_iff.mpr hdone)

/-- Settles O46: without an edge position there is no sample to write back. -/
theorem dblkAtFrameEdgeWritesNothing : Obligations.DblkAtFrameEdgeWritesNothing := by
  intro sz s h hcomp hedge
  have hwrites : ∀ p q, deblockWrites s.latch.regs (blockSize sz) p q = [] := fun p q => by
    simp [deblockWrites, deblockSamples, leftSamples, topSamples, leftRows_of_onEdge hedge, topCols_of_onEdge hedge]
  have hexec := h.dblk_succeeds hcomp (deblocked_of_onEdge hedge)
  rw [hwrites] at hexec
  exact ⟨_, hexec, State.succeed_keep_completedFrom [] s, rfl⟩

/-- DBLK ends in success only where both passes do, and the luma plane is then what they left. -/
theorem FrameReady.dblk_done (h : FrameReady sz s) (hcomp : RasterReady s s.latch.regs.comp) {t : State}
    (hidle : s.status.done = false) (hexec : exec (.dblk sz) s = .next t) (hdone : t.status.done = true) :
    let o := s.latch.regs
    ∀ x y, x < o.w → y < o.h → o.luma t.mem x y
      = topFiltered (filterParams s.cfg o) o (blockSize sz)
          (leftFiltered (filterParams s.cfg o) o (blockSize sz) (o.luma s.mem)) x y := by
  intro o x y hx hy
  obtain ⟨hsome, hnone⟩ := dblkFiltersPlane sz s h hcomp
  cases hafter : deblocked (filterParams s.cfg o) o (blockSize sz) (o.luma s.mem) with
  | none =>
    cases hexec.symm.trans (hnone hafter)
    rw [State.trap_done, hidle] at hdone
    cases hdone
  | some after =>
    obtain ⟨t', hexec', -, hplane, -⟩ := hsome after hafter
    cases hexec.symm.trans hexec'
    exact (hplane x y hx hy).trans (congrFun (congrFun (deblocked_filters hafter) x) y)

/-- Settles O47: the plane is the one pass after the other, and a row or column that the other pass does not
reach is filtered from the samples before the command. -/
theorem dblkFiltersBothEdges : Obligations.DblkFiltersBothEdges := by
  intro sz s t h hcomp hidle hexec hdone o n f tx ty before now
  have hnow : ∀ x y, x < o.w → y < o.h → now x y = topFiltered f o n (leftFiltered f o n before) x y :=
    h.dblk_done hcomp hidle hexec hdone
  refine ⟨hnow, ?_, ?_⟩
  · intro hsx hsxw hsy y hy hyn hyh e
    have hrow : y ∈ leftRows o n := mem_leftRows.mpr ⟨hsy, hsx, hsxw, hyh, by omega, hyn⟩
    have hleft : ∀ x < o.w, now x y = filterRows f tx (leftRows o n) before x y := fun x hxw => by
      rw [hnow x y hxw hyh, topFiltered_off (mem_topSamples.not.mpr (by omega)), leftFiltered_eq]
    rw [hleft (tx - 2) (by omega), hleft (tx - 1) (by omega), hleft tx (by omega), hleft (tx + 1) (by omega)]
    exact filt_cases_of_filtered (filterRows_of_mem (by omega) hrow)
  · intro hsy hsyh hsx x hx hxn hxw e
    have hcol : x ∈ topCols o n := mem_topCols.mpr ⟨hsx, hsy, hsyh, hxw, by omega, hxn⟩
    have hbefore : ∀ y, leftFiltered f o n before x y = before x y := fun y =>
      leftFiltered_off (mem_leftSamples.not.mpr (by omega))
    have htop : ∀ y < o.h, now x y
        = filterRows f ty (topCols o n) (Plane.transpose (leftFiltered f o n before)) y x := fun y hyh => by
      rw [hnow x y hxw hyh, topFiltered_eq]
      rfl
    have hacross : acrossEdge ty (Plane.transpose (leftFiltered f o n before)) x = e :=
      acrossEdge_congr (q := Plane.transpose before) hbefore
    rw [htop (ty - 2) (by omega), htop (ty - 1) (by omega), htop ty (by omega), htop (ty + 1) (by omega), ← hacross]
    exact filt_cases_of_filtered (filterRows_of_mem (by omega) hcol)

end Dblk

end Sys2Proof.Machine

/-! PROOFS of the statements about faults (60_exceptions.md). First: words that are no encoding. -/

namespace Sys2Proof.Machine

section LegalWords

/-! ## Words that are an encoding (60_exceptions.md R201) -/

variable {w : Word}

/-- The conditions of 60_exceptions.md R201 on the fields of a word, each in the case that it does not fault. -/
structure FieldsLegal (w : Word) : Prop where
  top : topField w = 0
  opc : (opcField w).toNat ∈ [0, 1, 2, 3, 4, 8, 9, 10, 11, 16, 17, 18, 24, 25]
  qselReserved : qselField w ≠ 3
  rselReserved : rselField w ≠ 3
  qsel : qselField w ≠ 0 → (opcField w).toNat ∈ [1, 2]
  a : aField w ≠ 0 → (opcField w).toNat = 9
  rsel : rselField w ≠ 0 → (opcField w).toNat = 8
  sz : szField w ≠ 0 → (opcField w).toNat ∉ [0, 24, 25]

theorem opcField_toNat (w : Word) : (opcField w).toNat = w.toNat % 256 := by
  simp [opcField]

theorem szField_toNat (w : Word) : (szField w).toNat = w.toNat / 256 % 16 := by
  simp [szField, Nat.shiftRight_eq_div_pow]

theorem qselField_toNat (w : Word) : (qselField w).toNat = w.toNat / 4096 % 4 := by
  simp [qselField, Nat.shiftRight_eq_div_pow]

theorem aField_toNat (w : Word) : (aField w).toNat = w.toNat / 16384 % 2 := by
  simp [aField, Nat.shiftRight_eq_div_pow]

theorem rselField_toNat (w : Word) : (rselField w).toNat = w.toNat / 32768 % 4 := by
  simp [rselField, Nat.shiftRight_eq_div_pow]

theorem topField_toNat (w : Word) : (topField w).toNat = w.toNat / 131072 := by
  have hw := w.isLt
  simp [topField, Nat.shiftRight_eq_div_pow]
  omega

theorem FieldsLegal.of_legalWord (h : illegalWord w.toNat = false) : FieldsLegal w := by
  simp only [illegalWord, ← opcField_toNat, ← szField_toNat, ← qselField_toNat, ← aField_toNat, ← rselField_toNat,
    ← topField_toNat, Bool.or_eq_false_iff, Bool.not_eq_false', List.contains_iff_mem, Bool.and_eq_false_imp,
    bne_eq_false_iff_eq, bne_iff_ne, beq_eq_false_iff_ne] at h
  obtain ⟨⟨⟨⟨⟨⟨⟨hopc, htop⟩, hq3⟩, hr3⟩, hq⟩, ha⟩, hr⟩, hsz⟩ := h
  have hne : ∀ {k : Nat} {x : BitVec k}, x ≠ 0 → x.toNat ≠ 0 := fun hx h0 => hx (BitVec.eq_of_toNat_eq h0)
  exact {
    top := BitVec.eq_of_toNat_eq htop
    opc := hopc
    qselReserved := fun h => hq3 (congrArg BitVec.toNat h)
    rselReserved := fun h => hr3 (congrArg BitVec.toNat h)
    qsel := fun h => hq (hne h)
    a := fun h => ha (hne h)
    rsel := fun h => hr (hne h)
    sz := fun h => by simpa using hsz (hne h) }

/-- Every value of a selector field but the reserved one names a table (30_encoding.md R93). -/
theorem exists_qsel_bits {q : BitVec 2} (h : q ≠ 3) : ∃ t : QSel, q = t.bits := by
  rw [QSel.exists_iff]
  revert q
  decide

/-- Every value of a selector field but the reserved one names a raster (30_encoding.md R95). -/
theorem exists_rsel_bits {r : BitVec 2} (h : r ≠ 3) : ∃ t : RSel, r = t.bits := by
  rw [RSel.exists_iff]
  revert r
  decide

namespace FieldsLegal

variable {i j : Instr}

theorem sz_zero (h : FieldsLegal w) (hopc : (opcField w).toNat ∈ [0, 24, 25]) : szField w = 0 :=
  not_not.mp fun hne => h.sz hne hopc

theorem qsel_zero (h : FieldsLegal w) (hopc : (opcField w).toNat ∉ [1, 2]) : qselField w = 0 :=
  not_not.mp fun hne => hopc (h.qsel hne)

theorem a_zero (h : FieldsLegal w) (hopc : (opcField w).toNat ≠ 9) : aField w = 0 :=
  not_not.mp fun hne => hopc (h.a hne)

theorem rsel_zero (h : FieldsLegal w) (hopc : (opcField w).toNat ≠ 8) : rselField w = 0 :=
  not_not.mp fun hne => hopc (h.rsel hne)

/-! What each format makes of such a word, by the opcodes that select it (30_encoding.md R98). -/

theorem decodePlain_ok (h : FieldsLegal w) (hopc : (opcField w).toNat ∈ [0, 24, 25]) :
    ∃ i, decodePlain w j = .ok i := by
  refine ⟨j, decodePlain_eq_ok_iff.mpr ⟨h.sz_zero hopc, h.qsel_zero ?_, h.a_zero ?_, h.rsel_zero ?_, rfl⟩⟩ <;>
    simp only [List.mem_cons, List.not_mem_nil, or_false] at hopc ⊢ <;> omega

theorem decodeBlock_ok (h : FieldsLegal w) {f : BitVec 4 → Instr} (hopc : (opcField w).toNat ∉ [1, 2, 8, 9]) :
    ∃ i, decodeBlock w f = .ok i := by
  refine ⟨_, decodeBlock_eq_ok_iff.mpr ⟨h.qsel_zero ?_, h.a_zero ?_, h.rsel_zero ?_, rfl⟩⟩ <;>
    simp only [List.mem_cons, List.not_mem_nil, or_false] at hopc ⊢ <;> omega

theorem decodePlane_ok (h : FieldsLegal w) {f : BitVec 4 → QSel → Instr} (hopc : (opcField w).toNat ∈ [1, 2]) :
    ∃ i, decodePlane w f = .ok i := by
  obtain ⟨t, ht⟩ := exists_qsel_bits h.qselReserved
  refine ⟨_, decodePlane_eq_ok_iff.mpr ⟨h.a_zero ?_, h.rsel_zero ?_, t, ht, rfl⟩⟩ <;>
    simp only [List.mem_cons, List.not_mem_nil, or_false] at hopc <;> omega

theorem decodeExtract_ok (h : FieldsLegal w) (hopc : (opcField w).toNat = 8) : ∃ i, decodeExtract w = .ok i := by
  obtain ⟨r, hr⟩ := exists_rsel_bits h.rselReserved
  exact ⟨_, decodeExtract_eq_ok_iff.mpr ⟨h.qsel_zero (by simp [hopc]), h.a_zero (by omega), r, hr, rfl⟩⟩

theorem decodeCost_ok (h : FieldsLegal w) (hopc : (opcField w).toNat = 9) : ∃ i, decodeCost w = .ok i :=
  ⟨_, decodeCost_eq_ok_iff.mpr ⟨h.qsel_zero (by simp [hopc]), h.rsel_zero (by omega), rfl⟩⟩

/-- Opcode by opcode along the map of 30_encoding.md R98. -/
theorem decodes (h : FieldsLegal w) : ∃ i, decode w = .ok i := by
  unfold decode
  rw [if_neg (not_not.mpr h.top)]
  split
  next ho => exact h.decodePlain_ok (by simp [ho])
  next ho => exact h.decodePlane_ok (by simp [ho])
  next ho => exact h.decodePlane_ok (by simp [ho])
  next ho => exact h.decodeBlock_ok (by simp [ho])
  next ho => exact h.decodeBlock_ok (by simp [ho])
  next ho => exact h.decodeExtract_ok ho
  next ho => exact h.decodeCost_ok ho
  next ho => exact h.decodeBlock_ok (by simp [ho])
  next ho => exact h.decodeBlock_ok (by simp [ho])
  next ho => exact h.decodeBlock_ok (by simp [ho])
  next ho => exact h.decodeBlock_ok (by simp [ho])
  next ho => exact h.decodeBlock_ok (by simp [ho])
  next ho => exact h.decodePlain_ok (by simp [ho])
  next ho => exact h.decodePlain_ok (by simp [ho])
  next =>
    have hopc := h.opc
    simp_all only [imp_false, List.mem_cons, List.not_mem_nil, or_false]

end FieldsLegal

/-- An encoding passes the conditions of 60_exceptions.md R201. -/
theorem illegalWord_encode (i : Instr) : illegalWord (encode i).toNat = false :=
  match i with
  | .nop => Laws.EncodesLegalWord.nop
  | .fdctq sz t => Laws.EncodesLegalWord.fdctq sz t
  | .dqidct sz t => Laws.EncodesLegalWord.dqidct sz t
  | .xfwd sz => Laws.EncodesLegalWord.xfwd sz
  | .xinv sz => Laws.EncodesLegalWord.xinv sz
  | .extract sz r => Laws.EncodesLegalWord.extract sz r
  | .cost sz a => Laws.EncodesLegalWord.cost sz a
  | .msearch sz => Laws.EncodesLegalWord.msearch sz
  | .resid sz => Laws.EncodesLegalWord.resid sz
  | .mc sz => Laws.EncodesLegalWord.mc sz
  | .intra sz => Laws.EncodesLegalWord.intra sz
  | .dblk sz => Laws.EncodesLegalWord.dblk sz
  | .refpush => Laws.EncodesLegalWord.refpush
  | .refclr => Laws.EncodesLegalWord.refclr

theorem legalWord_iff_decodes : illegalWord w.toNat = false ↔ ∃ i, decode w = .ok i := by
  refine ⟨fun h => (FieldsLegal.of_legalWord h).decodes, ?_⟩
  rintro ⟨i, hi⟩
  rw [← encode_of_decode hi]
  exact illegalWord_encode i

/-- Settles O3: the words that decode are those whose fields are legal. -/
theorem illegalWordFaults : Obligations.IllegalWordFaults := by
  intro s hb hin
  rw [step_of_no_event hin]
  refine ⟨fun hillegal => ?_, fun hlegal => ?_⟩
  · cases hd : decode s.latch.word with
    | error e => exact State.turn_of_undecoded hb hd
    | ok i => cases hillegal.symm.trans (legalWord_iff_decodes.mpr ⟨i, hd⟩)
  · obtain ⟨i, hd⟩ := legalWord_iff_decodes.mp hlegal
    exact ⟨i, hd, State.turn_of_decoded hb hd⟩

end LegalWords

end Sys2Proof.Machine

/-! PROOFS of the statements about the codes 2 to 8 (60_exceptions.md R202 to R208, R212): one list of checks for all
commands, in the words of the rules, to which the list of each command comes down. -/

namespace Sys2Proof.Machine

section Checks

/-! ## The checks in the words of the rules -/

variable {i : Instr} {l : Latch} {e : ErrCode} {sz : BitVec 4} {b : Word} {q : Region}

/-- The command that checks its position (60_exceptions.md R207). -/
def searches : Instr → Bool
  | .msearch _ => true
  | _ => false

/-- The codes 2 to 8 of a command in order, over the base registers and the regions it is checked for. -/
def checksOver (i : Instr) (l : Latch) (bs : List Word) (rs : List Region) : List (Bool × ErrCode) :=
  [(!i.wellFormed, .size),
   (readsFrame i && !frameLegal l.regs, .config),
   (resolvesRef i && (Latch.resolve l).isNone, .ref),
   (anyNull bs, .null),
   (anyOdd bs, .align),
   (searches i && !inside l.regs.w l.regs.h l.regs.sx l.regs.sy, .pos),
   (anyPastTop rs, .addr)]

/-- The codes 2 to 8 of a command, each with the condition that 60_exceptions.md R202 to R208 give it. -/
def ruleChecks (i : Instr) (l : Latch) : List (Bool × ErrCode) := checksOver i l (usedBases i l) (usedRegions i l)

theorem mem_ruleChecks : (true, e) ∈ ruleChecks i l ↔ failsCheck i l e := by
  cases e with
  | pos => cases i <;> simp [ruleChecks, checksOver, failsCheck, searches, ← Bool.not_eq_true, inside_iff]
  | _ =>
    simp [ruleChecks, checksOver, failsCheck, frameLegal_eq_false, ← Latch.resolve_isNone, anyNull, anyOdd, anyPastTop]

theorem ruleChecks_rise (i : Instr) (l : Latch) :
    ((ruleChecks i l).map Prod.snd).Pairwise fun a b => ErrCode.num a < ErrCode.num b := by
  change [ErrCode.size, .config, .ref, .null, .align, .pos, .addr].Pairwise _
  decide

/-! ## Each command's own list (40_transform.md R120, R124, 41_motion_search.md R143, 42_reconstruct.md R171, R180) -/

/-- The order in which base registers and regions are listed does not matter. -/
theorem checksOver_congr {bs : List Word} {rs : List Region} (hbs : ∀ b, b ∈ usedBases i l ↔ b ∈ bs)
    (hrs : ∀ r, r ∈ usedRegions i l ↔ r ∈ rs) : checksOver i l bs rs = ruleChecks i l := by
  have hnull : anyNull bs = anyNull (usedBases i l) := by
    rw [Bool.eq_iff_iff, ← anyNull_iff hbs, ← anyNull_iff fun _ => Iff.rfl]
  have hodd : anyOdd bs = anyOdd (usedBases i l) := by
    rw [Bool.eq_iff_iff, ← anyOdd_iff hbs, ← anyOdd_iff fun _ => Iff.rfl]
  have htop : anyPastTop rs = anyPastTop (usedRegions i l) := by
    rw [Bool.eq_iff_iff, ← anyPastTop_iff hrs, ← anyPastTop_iff fun _ => Iff.rfl]
  simp only [ruleChecks, checksOver, hnull, hodd, htop]

theorem mem_usedBases_extract {r : RSel} :
    b ∈ usedBases (.extract sz r) l ↔ b ∈ extractBases r l ++ [l.regs.dst] := by
  cases r <;> simp only [usedBases, extractBases, Raster.bases, Latch.resolvedBases, List.mem_append, List.mem_cons,
    List.not_mem_nil, or_false, or_assoc]
  exact or_comm

theorem mem_usedRegions_extract {r : RSel} : q ∈ usedRegions (.extract sz r) l
    ↔ q ∈ extractRegions r l ++ [bufferRegion l.regs.dst (5 * blockSize sz ^ 2)] := by
  have hraster : extractRegions r l = ((extractRaster r l).map (Operands.rasterRegions l.regs)).getD [] := by
    unfold extractRegions
    cases extractRaster r l <;> rfl
  rw [hraster]
  cases r <;> exact (List.perm_append_singleton _ _).mem_iff.symm

theorem mem_usedBases_resid : b ∈ usedBases (.resid sz) l
    ↔ b ∈ Raster.bases l.regs.cur ++ Latch.resolvedBases l ++ [l.regs.dst] := by
  simp only [usedBases, Raster.bases, Latch.resolvedBases, List.mem_append, List.mem_cons, List.not_mem_nil, or_false]
  tauto

theorem mem_usedRegions_resid : q ∈ usedRegions (.resid sz) l
    ↔ q ∈ Operands.rasterRegions l.regs l.regs.cur ++ Latch.resolvedRegions l
      ++ [bufferRegion l.regs.dst (3 * blockSize sz ^ 2)] := by
  rw [usedRegions, Latch.resolvedRegions_eq]
  exact (List.perm_append_singleton _ _).mem_iff.symm

theorem mem_usedRegions_mc : q ∈ usedRegions (.mc sz) l
    ↔ q ∈ Operands.rasterRegions l.regs l.regs.comp ++ Latch.resolvedRegions l
      ++ [bufferRegion l.regs.src (3 * blockSize sz ^ 2)] := by
  rw [usedRegions, Latch.resolvedRegions_eq]
  exact (List.perm_append_singleton _ _).mem_iff.symm

theorem mem_usedRegions_intra : q ∈ usedRegions (.intra sz) l
    ↔ q ∈ Operands.rasterRegions l.regs l.regs.comp ++ [bufferRegion l.regs.src (3 * blockSize sz ^ 2)] :=
  (List.perm_append_singleton _ _).mem_iff.symm

/-- Every command decides its codes as the rules say; a check it does not list cannot fail. -/
theorem checkOf_eq_ruleChecks (i : Instr) (l : Latch) : checkOf i l = firstFail (ruleChecks i l) := by
  cases i with
  | fdctq sz q | dqidct sz q =>
    change firstFail ((!tableExists sz q, .size) :: _) = _
    rw [tableExists_eq]
    rfl
  | extract sz r =>
    rw [← checksOver_congr (fun _ => mem_usedBases_extract) fun _ => mem_usedRegions_extract]
    cases r <;> rfl
  | cost sz a =>
    rw [ruleChecks, usedRegions, Latch.resolvedRegions_eq]
    rfl
  | resid sz =>
    rw [← checksOver_congr (fun _ => mem_usedBases_resid) fun _ => mem_usedRegions_resid]
    rfl
  | mc sz =>
    rw [← checksOver_congr (fun _ => Iff.rfl) fun _ => mem_usedRegions_mc]
    rfl
  | intra sz =>
    rw [← checksOver_congr (fun _ => Iff.rfl) fun _ => mem_usedRegions_intra]
    rfl
  | _ => rfl

/-- A command takes the first of the codes 2 to 8 that it meets (60_exceptions.md R212). -/
theorem checkOf_of_failsCheck (he : failsCheck i l e)
    (hfirst : ∀ e', ErrCode.num e' < ErrCode.num e → ¬ failsCheck i l e') : checkOf i l = some e := by
  rw [checkOf_eq_ruleChecks]
  exact firstFail_least (ruleChecks_rise i l) (mem_ruleChecks.mpr he)
    fun f hf hmem => hfirst f hf (mem_ruleChecks.mp hmem)

theorem failsCheck_of_checkOf (h : checkOf i l = some e) : failsCheck i l e := by
  rw [checkOf_eq_ruleChecks] at h
  exact mem_ruleChecks.mp (firstFail_some h)

theorem checkOf_eq_none (h : ∀ e, ¬ failsCheck i l e) : checkOf i l = none :=
  Option.eq_none_iff_forall_ne_some.mpr fun e he => h e (failsCheck_of_checkOf he)

end Checks

section FirstCode

/-! ## The first code decides (60_exceptions.md R212) -/

variable {i : Instr} {s t : State} {e : ErrCode}

theorem exec_of_failsCheck (he : failsCheck i s.latch e)
    (hfirst : ∀ e', ErrCode.num e' < ErrCode.num e → ¬ failsCheck i s.latch e') : exec i s = .next (State.trap e s) :=
  exec_of_checkOf (checkOf_of_failsCheck he hfirst)

/-- The two faults that come from no check, and success, which leaves the code. -/
theorem Job.Ends.errCode {j : Job} (h : j.Ends s t) :
    t.errCode = some .range ∨ t.errCode = some .bus ∨ t.errCode = s.errCode := by
  cases h with
  | range c => exact .inl rfl
  | bus c => exact .inr (.inl rfl)
  | success c ws r => exact .inr (.inr (by simp))

/-- The code a command leaves: that of its first failed check, one of the two that come from no check, or, on success,
the one before. -/
theorem exec_errCode (h : exec i s = .next t) :
    (∃ e, failsCheck i s.latch e ∧ t.errCode = some e) ∨ t.errCode = some .range ∨ t.errCode = some .bus
      ∨ t.errCode = s.errCode := by
  rcases exec_next h with ⟨e, he, rfl⟩ | ⟨-, j, hj, hp⟩ | ⟨-, rfl⟩ | ⟨-, rfl⟩ | ⟨-, -, rfl⟩
  · exact .inl ⟨e, failsCheck_of_checkOf he, rfl⟩
  · exact .inr (State.perform_ends hj hp).errCode
  all_goals exact .inr (.inr (.inr rfl))

/-- Settles O16: the rules' list of checks decides, and no other code comes from a command. -/
theorem firstFailedCheckDecides : Obligations.FirstFailedCheckDecides := by
  refine ⟨fun i s e he hfirst => exec_of_failsCheck he hfirst, fun i s t hnone hcode h => ?_⟩
  rcases exec_errCode h with ⟨e, he, -⟩ | hrange | hbus | hsame
  · exact absurd he (hnone e)
  · exact .inr (.inr hrange)
  · exact .inr (.inl hbus)
  · exact .inl (hsame.trans hcode)

/-- Settles O13: `E_SIZE` is the first of the codes 2 to 8. -/
theorem sizeFaults : Obligations.SizeFaults := by
  refine fun i s hsize => exec_of_failsCheck (e := .size) hsize fun e' hlt hfail => ?_
  cases e' with
  | illegal => exact hfail
  | _ => exact absurd hlt (by decide)

/-- Settles O14: before `E_CONFIG` comes only `E_SIZE`. -/
theorem frameSizeFaults : Obligations.FrameSizeFaults := by
  refine ⟨fun i s hsize hreads hdims => ?_, rfl, rfl⟩
  have hconfig : failsCheck i s.latch .config := by
    refine ⟨hreads, ?_⟩
    simp only [← Bool.not_eq_true, frameDimLegal_iff]
    tauto
  refine exec_of_failsCheck hconfig fun e' hlt hfail => ?_
  cases e' with
  | illegal => exact hfail
  | size => cases hsize.symm.trans hfail
  | _ => exact absurd hlt (by decide)

/-- Settles O15: before `E_REF` come `E_SIZE` and `E_CONFIG`, and MSEARCH has no such check. -/
theorem referenceFaults : Obligations.ReferenceFaults := by
  refine ⟨fun i s hsize hresolves hw hh hmissing => ?_, fun sz s t h hcode => ?_⟩
  · refine exec_of_failsCheck (e := .ref) ⟨hresolves, hmissing⟩ fun e' hlt hfail => ?_
    cases e' with
    | illegal => exact hfail
    | size => cases hsize.symm.trans hfail
    | config =>
      obtain ⟨-, hbad⟩ := hfail
      simp [hw, hh] at hbad
    | _ => exact absurd hlt (by decide)
  · rcases exec_errCode h with ⟨e, hfail, he⟩ | he | he | he <;> rw [he]
    · rintro ⟨⟩
      cases hfail.1
    · decide
    · decide
    · exact hcode

end FirstCode

end Sys2Proof.Machine

/-! PROOFS of the statements about the error latch (60_exceptions.md R209, R210, R213 to R215): what a fault writes, what
it leaves, and how long it lasts. -/

namespace Sys2Proof.Machine

section FaultEffect

/-! ## What a fault changes (60_exceptions.md R209, R210) -/

variable {i : Instr} {s t : State} {e : ErrCode} {a : Nat}

/-- `t` is `s` after a fault: the error latch is taken, and for `E_BUS` a write footprint may be freed with it. The
counter of free values may have moved. -/
inductive State.Faults (s : State) : ErrCode → State → Prop where
  | precise (e : ErrCode) (c : Nat) : State.Faults s e (State.trap e { s with freeCtr := c })
  | bus (foot : List Nat) (c : Nat) : State.Faults s .bus (State.busFault foot { s with freeCtr := c })

/-- A memory command that ends with a code it did not find has faulted. -/
theorem Job.Ends.faults {j : Job} (h : j.Ends s t) (hs : s.errCode = none) (he : t.errCode = some e) :
    State.Faults s e t := by
  cases h with
  | range c => cases he; exact .precise _ _
  | bus c => cases he; exact .bus _ _
  | success c ws r =>
    have hsame : (State.succeed ws r { s with freeCtr := c }).errCode = s.errCode := by simp
    cases (hsame.trans hs).symm.trans he

theorem exec_faults (h : exec i s = .next t) (hs : s.errCode = none) (he : t.errCode = some e) :
    State.Faults s e t := by
  rcases exec_next h with ⟨f, -, rfl⟩ | ⟨-, j, hj, hp⟩ | ⟨-, rfl⟩ | ⟨-, rfl⟩ | ⟨-, -, rfl⟩
  · cases he; exact .precise _ s.freeCtr
  · exact (State.perform_ends hj hp).faults hs he
  all_goals cases hs.symm.trans he

theorem State.turn_faults (h : State.turn s = .next t) (hs : s.errCode = none) (he : t.errCode = some e) :
    State.Faults s e t := by
  rcases State.turn_next h with ⟨-, rfl⟩ | ⟨-, -, rfl⟩ | ⟨-, i, -, hexec⟩
  · cases hs.symm.trans he
  · cases he; exact .precise _ s.freeCtr
  · exact exec_faults hexec hs he

/-- Settles O17: the step is the core's turn, and what it leaves is a fault. -/
theorem faultLatch : Obligations.FaultLatch := by
  intro s t e _ _ hs hin h he
  rw [step_of_no_event hin] at h
  cases State.turn_faults h hs he with
  | precise e c => exact ⟨rfl, rfl, rfl, rfl, rfl, rfl, rfl, rfl, fun _ => rfl, fun hie => by simp [State.irq, hie]⟩
  | bus foot c =>
    exact ⟨rfl, rfl, rfl, rfl, rfl, rfl, rfl, rfl, fun hne => absurd rfl hne, fun hie => by simp [State.irq, hie]⟩

/-- The write footprint of a command in flight whose checks pass is that of its job (20_memory.md R69). -/
theorem State.writeFootprint_of_job {j : Job} (hb : s.status.busy = true) (hd : decode s.latch.word = .ok i)
    (hc : checkOf i s.latch = none) (hj : jobOf i s = some j) : State.writeFootprint s = j.foot := by
  simp [State.writeFootprint, State.inFlight, hb, hd, hc, hj]

theorem State.inWriteFootprint_eq_false :
    State.inWriteFootprint s a = false ↔ ∀ e ∈ State.writeFootprint s, a ≠ e ∧ a ≠ e + 1 := by
  simp only [State.inWriteFootprint, List.any_eq_false, Region.contains_iff, elemRegion]
  exact forall₂_congr fun e _ => by omega

/-- However the command in flight ends, the bytes outside its write footprint survive. -/
theorem State.turn_byte_of_not_footprint (h : State.turn s = .next t) (ha : State.inWriteFootprint s a = false) :
    Memory.byte t.mem a = Memory.byte s.mem a := by
  rcases State.turn_next h with ⟨-, rfl⟩ | ⟨-, -, rfl⟩ | ⟨hb, i, hd, hexec⟩
  · rfl
  · rfl
  · rcases exec_next hexec with ⟨f, -, rfl⟩ | ⟨hc, j, hj, hp⟩ | ⟨-, rfl⟩ | ⟨-, rfl⟩ | ⟨-, -, rfl⟩
    · rfl
    · refine (State.perform_ends hj hp).sameOutside a fun e he => State.inWriteFootprint_eq_false.mp ha e ?_
      rwa [State.writeFootprint_of_job hb hd hc hj]
    all_goals rfl

/-- Settles O18: `E_BUS` is one of the ends of the command in flight. -/
theorem busFaultFrame : Obligations.BusFaultFrame := by
  intro s t _ _ hin h _ a ha
  rw [step_of_no_event hin] at h
  exact State.turn_byte_of_not_footprint h ha

end FaultEffect

section Sticky

/-! ## A latched error lasts (60_exceptions.md R213, R214) -/

variable {s t : State} {addr : Word} {size : BusSize} {v : Word}

/-- The error registers, `BUSY` and `CMD` of `t` are those of `s`. -/
structure State.KeepsError (s t : State) : Prop where
  err : t.status.err = s.status.err
  busy : t.status.busy = s.status.busy
  errCode : t.errCode = s.errCode
  errInfo : t.errInfo = s.errInfo
  cmd : t.cmd = s.cmd

theorem lowReg_eq_ctrl {off : Nat} (h : lowReg off = .ctrl) : off = 0x004 := by
  unfold lowReg at h
  split at h
  case h_2 => rfl
  all_goals cases h

/-- `CTRL` stands at one offset (10_state.md R25). -/
theorem regAt_eq_ctrl {off : Nat} (h : regAt off = .ctrl) : off = 0x004 := by
  unfold regAt at h
  split at h
  · exact lowReg_eq_ctrl h
  · refine absurd h (tableReg_of_forall (P := (· ≠ .ctrl)) ?_ ?_) <;> simp

/-- With an error latched only a write of `SRST` reaches the error registers or launches anything. -/
theorem State.writeReg_keepsError {r : Reg} (herr : s.status.err = true)
    (hsrst : r = .ctrl → v.getLsbD 31 = false) : State.KeepsError s (State.writeReg s r v) := by
  unfold State.writeReg
  split
  · rw [if_neg (ne_true_of_eq_false (hsrst rfl))]
    exact ⟨rfl, rfl, rfl, rfl, rfl⟩
  · exact ⟨rfl, rfl, rfl, rfl, rfl⟩
  · rw [if_pos (by simp [herr])]
    exact ⟨rfl, rfl, rfl, rfl, rfl⟩
  · split
    · exact ⟨rfl, rfl, rfl, rfl, rfl⟩
    · split <;> exact ⟨rfl, rfl, rfl, rfl, rfl⟩

/-- A host write goes to a register, then it is a whole word, or to data memory. -/
theorem State.hostWrite_next_word (h : State.hostWrite s addr size v = .next t) :
    (size = .word ∧ t = State.writeReg s (regAt (State.windowOffset s addr)) v)
      ∨ t = State.hostStore s addr size v := by
  unfold State.hostWrite at h
  split at h
  · split at h
    · next hok =>
      simp only [windowAccessOk, Bool.and_eq_true, beq_iff_eq] at hok
      cases h
      exact .inl ⟨hok.1, rfl⟩
    · cases h
  · split at h
    · cases h
    · cases h; exact .inr rfl

/-- The address that reaches an offset of the window. -/
theorem State.eq_regAddr {off : Nat} (hl : s.cfg.legal = true) (hoff : 0 < off) (hlt : off < 4096)
    (h : State.windowOffset s addr = off) : addr = State.regAddr s off := by
  unfold State.windowOffset at h
  refine BitVec.eq_of_toNat_eq ?_
  rw [State.regAddr_toNat hl hlt]
  omega

theorem State.hostWrite_keepsError (hl : s.cfg.legal = true) (herr : s.status.err = true)
    (hsrst : addr = State.regAddr s 0x004 → size = .word → v.getLsbD 31 = false)
    (h : State.hostWrite s addr size v = .next t) : State.KeepsError s t := by
  rcases State.hostWrite_next_word h with ⟨hword, rfl⟩ | rfl
  · exact State.writeReg_keepsError herr fun hctrl =>
      hsrst (State.eq_regAddr hl (by decide) (by decide) (regAt_eq_ctrl hctrl)) hword
  · exact ⟨rfl, rfl, rfl, rfl, rfl⟩

/-- An event other than the two resets leaves a latched error. -/
theorem State.event_keepsError {e : HostEvent} (hl : s.cfg.legal = true) (herr : s.status.err = true)
    (hidle : s.status.busy = false) (hhard : e ≠ .hardReset)
    (hsoft : ∀ v, e = .write (State.regAddr s 0x004) .word v → v.getLsbD 31 = false)
    (h : State.event s e = .next t) : State.KeepsError s t := by
  cases e with
  | write addr size v => exact State.hostWrite_keepsError hl herr (fun ha hw => hsoft v (by rw [ha, hw])) h
  | read addr size =>
    obtain ⟨d, c, rfl⟩ := State.hostRead_next h
    exact ⟨rfl, rfl, rfl, rfl, rfl⟩
  | hardReset => exact absurd rfl hhard
  | busError addr =>
    cases h
    rw [State.busErrorAt, if_neg (by simp [hidle])]
    exact ⟨rfl, rfl, rfl, rfl, rfl⟩
  | coreTurn =>
    cases (State.turn_of_idle hidle).symm.trans h
    exact ⟨rfl, rfl, rfl, rfl, rfl⟩

theorem step_of_event {e : HostEvent} {rest : List HostEvent} (h : s.inbox = e :: rest) :
    step s = State.event { s with inbox := rest } e := by
  simp [step, State.advance, h]

/-- Settles O20: with no event to come an idle core does nothing, and each event but a reset keeps the error. -/
theorem errorIsSticky : Obligations.ErrorIsSticky := by
  intro s t hl herr hidle h hhard hsoft
  have hkeeps : State.KeepsError s t := by
    cases hin : s.inbox with
    | nil =>
      rw [step_of_no_event hin, State.turn_of_idle hidle] at h
      cases h
      exact ⟨rfl, rfl, rfl, rfl, rfl⟩
    | cons e rest =>
      rw [step_of_event hin] at h
      obtain ⟨he, hb, hcode, hinfo, hcmd⟩ := State.event_keepsError (s := { s with inbox := rest }) hl herr hidle
        (fun he => hhard rest (by rw [hin, he])) (fun v he => hsoft v rest (by rw [hin, he]; rfl)) h
      exact ⟨he, hb, hcode, hinfo, hcmd⟩
  obtain ⟨he, hb, hcode, hinfo, hcmd⟩ := hkeeps
  exact ⟨he.trans herr, hb.trans hidle, hcode, hinfo, hcmd⟩

end Sticky

section Interrupt

/-! ## The interrupt line (60_exceptions.md R215) -/

/-- A 1 in bit 1 of a write to `STATUS` acknowledges `DONE` (10_state.md R26). -/
theorem Status.clearOnWrite_done_of_bit {f : Status} {v : Word} (h : v.getLsbD 1 = true) :
    (Status.clearOnWrite f v).done = false := by
  simp [Status.clearOnWrite, h]

/-- Settles O12: the line is the formula, and the acknowledge leaves its second half. -/
theorem interruptLine : Obligations.InterruptLine := by
  refine ⟨fun s => by simp [State.irq], fun s hl => ?_⟩
  refine ⟨_, step_writes hl (by decide) (by decide) (State.writeReg_status s 2), ?_⟩
  have hdone : (Status.clearOnWrite s.status 2).done = false := Status.clearOnWrite_done_of_bit (by decide)
  simp only [State.irq, hdone, Bool.false_and, Bool.false_or]
  rfl

end Interrupt

end Sys2Proof.Machine

/-! PROOFS of the statement about `E_BUS` and `E_RANGE` (60_exceptions.md R209, R211, R212): in which order a command
whose codes 2 to 8 pass meets them; then the bytes of FDCTQ and DQIDCT, and the blocks of MSEARCH. -/

namespace Sys2Proof.Machine

section InOrderOfAccess

/-! ## Reads, then results, then writes (60_exceptions.md R212) -/

variable {i : Instr} {s t : State} {j : Job} {ws : List (Nat × Int)}

/-- Command `i` accesses memory as job `j` says: its codes 2 to 8 pass, and no base register of the job points into the
register window. -/
structure Accesses (i : Instr) (s : State) (j : Job) : Prop where
  job : jobOf i s = some j
  check : checkOf i s.latch = none
  offWindow : State.OffWindow j s

theorem accessRefused_eq_false {r : Region} : State.accessRefused s r = false ↔ ¬ State.refusesByte s r := by
  rw [← State.accessRefused_iff, Bool.not_eq_true]

theorem Accesses.bus_of_read (h : Accesses i s j) (hr : ∃ r ∈ j.reads, State.refusesByte s r) :
    ∃ t, exec i s = .next t ∧ t.errCode = some .bus := by
  obtain ⟨r, hmem, href⟩ := hr
  exact exec_bus_of_read_refused h.job h.check h.offWindow hmem href

theorem Accesses.range (h : Accesses i s j) (hq : s.raced = false) (hr : ∀ r ∈ j.reads, ¬ State.refusesByte s r)
    (hw : j.writes = none) : exec i s = .next (State.trap .range s) :=
  exec_out_of_range h.job h.check hq (fun r hmem => accessRefused_eq_false.mpr (hr r hmem)) h.offWindow hw

theorem Accesses.commits (h : Accesses i s j) (hq : s.raced = false) (hr : ∀ r ∈ j.reads, ¬ State.refusesByte s r)
    (hw : j.writes = some ws) : exec i s = .next (State.commit j.foot ws j.results s) := by
  have hreads : j.reads.any (State.accessRefused s) = false :=
    List.any_eq_false.mpr fun r hmem => ne_true_of_eq_false (accessRefused_eq_false.mpr (hr r hmem))
  rw [exec_of_jobOf h.job, h.check, State.runCommand_none, State.perform_of_offWindow h.offWindow]
  simp [hq, State.performQuiet, hreads, hw]

theorem Accesses.bus_of_write (h : Accesses i s j) (hq : s.raced = false)
    (hr : ∀ r ∈ j.reads, ¬ State.refusesByte s r) (hw : j.writes = some ws)
    (href : ∃ w ∈ ws, State.refusesByte s ⟨w.1, 2⟩) : ∃ t, exec i s = .next t ∧ t.errCode = some .bus := by
  obtain ⟨w, hmem, href⟩ := href
  have hany : (ws.any fun w => State.accessRefused s (elemRegion w.1)) = true :=
    List.any_eq_true.mpr ⟨w, hmem, State.accessRefused_iff.mpr href⟩
  exact ⟨_, h.commits hq hr hw, by simp [State.commit, hany]⟩

theorem Accesses.succeeds (h : Accesses i s j) (hq : s.raced = false)
    (hr : ∀ r ∈ j.reads, ¬ State.refusesByte s r) (hw : j.writes = some ws)
    (hacc : ∀ w ∈ ws, ¬ State.refusesByte s ⟨w.1, 2⟩) :
    exec i s = .next (State.succeed ws j.results s) := by
  rw [exec_of_jobOf h.job, h.check]
  exact State.runCommand_succeeds hq h.offWindow (fun r hmem => accessRefused_eq_false.mpr (hr r hmem)) hw
    fun w hmem => accessRefused_eq_false.mpr (hacc w hmem)

/-- EXTRACT, COST, MSEARCH and INTRA have no `E_RANGE` (60_exceptions.md R200). -/
theorem writes_ne_none_of_no_range (hj : jobOf i s = some j) (hi : (∃ sz r, i = .extract sz r)
    ∨ (∃ sz a, i = .cost sz a) ∨ (∃ sz, i = .msearch sz) ∨ (∃ sz, i = .intra sz)) : j.writes ≠ none := by
  rcases hi with ⟨sz, r, rfl⟩ | ⟨sz, a, rfl⟩ | ⟨sz, rfl⟩ | ⟨sz, rfl⟩ <;> cases hj <;> exact Option.some_ne_none _

end InOrderOfAccess

section PlaneBytes

/-! ## The bytes of FDCTQ and DQIDCT (40_transform.md R120) -/

variable {i : Instr} {sz : BitVec 4} {q : QSel} {s : State} {f : Plane → Plane}

/-- Every byte of an `m × m` plane in memory belongs to one of its elements (20_memory.md R65). -/
theorem exists_planeWrites_byte {m k : Nat} (hk : k < 2 * m ^ 2) (b : Nat) (p : Plane) :
    ∃ w ∈ planeWrites b m p, ∃ d, d < 2 ∧ w.1 + d = b + k := by
  have hsquare : m ^ 2 = m * m := sq m
  have hm : 0 < m := Nat.pos_of_ne_zero fun h0 => by simp [h0] at hk
  have hrow : k / 2 / m < m := Nat.div_lt_of_lt_mul (by omega)
  have hcol : k / 2 % m < m := Nat.mod_lt _ hm
  have hdiv := Nat.div_add_mod' (k / 2) m
  refine ⟨_, mem_planeWrites.mpr ⟨_, _, hcol, hrow, rfl, rfl⟩, k % 2, Nat.mod_lt _ (by decide), ?_⟩
  unfold planeAddr
  omega

/-- A refused byte of a plane is one of an element that is written there. -/
theorem refusesByte_planeWrites {b m : Nat} (h : State.refusesByte s ⟨b, 2 * m ^ 2⟩) (p : Plane) :
    ∃ w ∈ planeWrites b m p, State.refusesByte s ⟨w.1, 2⟩ := by
  obtain ⟨k, hk, href⟩ := h
  obtain ⟨w, hmem, d, hd, heq⟩ := exists_planeWrites_byte hk b p
  refine ⟨w, hmem, d, hd, ?_⟩
  simp only [heq]
  exact href

/-- FDCTQ and DQIDCT with an existing table and legal buffers, which do not start in the register window. -/
theorem plane_accesses (hi : jobOf i s = some (jobPlane f sz s)) (hcheck : checkOf i s.latch = checkPlane sz q s.latch)
    (hpair : Instr.planePairOk sz q = true) (hsrc : baseOk s.latch.regs.src) (hdst : baseOk s.latch.regs.dst)
    (hsrcTop : s.latch.regs.src.toNat + 2 * blockSize sz ^ 2 ≤ 2 ^ 32)
    (hdstTop : s.latch.regs.dst.toNat + 2 * blockSize sz ^ 2 ≤ 2 ^ 32)
    (hsrcOut : ¬ s.windowByte s.latch.regs.src.toNat) (hdstOut : ¬ s.windowByte s.latch.regs.dst.toNat) :
    Accesses i s (jobPlane f sz s) where
  job := hi
  check := hcheck.trans (checkPlane_eq_none hpair hsrc hdst hsrcTop hdstTop)
  offWindow := by simp [State.OffWindow, jobPlane, ← Bool.not_eq_true, State.baseInWindow_iff, hsrcOut, hdstOut]

end PlaneBytes

section SearchBlocks

/-! ## The blocks of MSEARCH (41_motion_search.md R151, R155, R158) -/

variable {sz : BitVec 4} {s t : State} {r : Region} {e n : Nat}

theorem Target.mem_positions {t : Target} {p : Pos} : p ∈ t.positions ↔ p ∈ t.hexSearch.seen ∨ p ∈ t.window :=
  List.mem_append

theorem mem_jobMsearch_reads : r ∈ (jobMsearch sz s).reads ↔ ∃ e, elemRegion e = r
    ∧ (e ∈ s.latch.regs.blockAddrs s.latch.regs.cur s.latch.regs.sx s.latch.regs.sy (blockSize sz)
      ∨ ∃ tr ∈ Latch.searchOrder s.latch, ∃ p ∈ Target.positions (accessTarget (blockSize sz) s tr),
        e ∈ s.latch.regs.blockAddrs tr.2 p.1 p.2 (blockSize sz)) := by
  simp only [jobMsearch, Operands.blockReads, List.mem_append, List.mem_map, List.mem_flatMap]
  constructor
  · rintro (⟨e, he, rfl⟩ | ⟨tr, htr, p, hp, e, he, rfl⟩)
    · exact ⟨e, rfl, .inl he⟩
    · exact ⟨e, rfl, .inr ⟨tr, htr, p, hp, he⟩⟩
  · rintro ⟨e, rfl, he | ⟨tr, htr, p, hp, he⟩⟩
    · exact .inl ⟨e, he, rfl⟩
    · exact .inr ⟨tr, htr, p, hp, e, he, rfl⟩

/-- Every search reads the searched block and the blocks of the refinement. -/
theorem mem_reads_of_searchAlwaysReads (h : searchAlwaysReads (blockSize sz) s.latch e) :
    elemRegion e ∈ (jobMsearch sz s).reads := by
  refine mem_jobMsearch_reads.mpr ⟨e, rfl, h.imp_right ?_⟩
  rintro ⟨tr, htr, dx, dy, hdx, hdy, he⟩
  refine ⟨tr, htr, (s.latch.regs.sx + dx, s.latch.regs.sy + dy),
    Target.mem_positions.mpr (.inr (Target.mem_window.mpr ?_)), he⟩
  simpa using ⟨hdx, hdy⟩

/-- A search reads only blocks of the refinement and of admissible positions, whatever the candidates cost. -/
theorem searchMayRead_of_mem_reads (h : elemRegion e ∈ (jobMsearch sz s).reads) :
    searchMayRead (blockSize sz) s.latch e := by
  obtain ⟨e', heq, he⟩ := mem_jobMsearch_reads.mp h
  cases heq
  rcases he with hcur | ⟨tr, htr, p, hp, he⟩
  · exact .inl (.inl hcur)
  · rcases Target.mem_positions.mp hp with hseen | hwindow
    · have hadm := Target.admissible_iff.mp ((Target.hexSearch_ok _).admissible p hseen)
      simp only [accessTarget_w, accessTarget_h, accessTarget_sx, accessTarget_sy] at hadm
      obtain ⟨hx, hy, hx0, hxw, hy0, hyh⟩ := hadm
      exact .inr ⟨tr, htr, p.1, p.2, hx, hy, hx0, hxw, hy0, hyh, he⟩
    · have hwin := Target.mem_window.mp hwindow
      simp only [accessTarget_sx, accessTarget_sy] at hwin
      exact .inl (.inr ⟨tr, htr, _, _, hwin.1, hwin.2, by simpa using he⟩)

/-- A search writes no data memory, so a read alone can bring it to `E_BUS`, raced or not. -/
theorem msearch_read_of_bus (hc : checkOf (.msearch sz) s.latch = none) (h : exec (.msearch sz) s = .next t)
    (hs : s.errCode = none) (ht : t.errCode = some .bus) :
    ∃ r ∈ (jobMsearch sz s).reads, State.refusesByte s r := by
  by_contra hno
  have hreads : (jobMsearch sz s).reads.any (State.accessRefused s) = false := by
    rw [← Bool.not_eq_true, List.any_eq_true]
    simpa only [State.accessRefused_iff] using hno
  rw [exec_of_jobOf rfl, hc, State.runCommand_none] at h
  have hend : t.errCode = s.errCode := by
    rcases State.perform_next h with ⟨-, rfl⟩ | ⟨-, rfl⟩
    · simp only [State.performRaced, hreads]
      simp [jobMsearch, State.commit, freeWrites]
    · simp only [State.performQuiet, hreads]
      simp [jobMsearch, State.commit]
  cases (hend.trans hs).symm.trans ht

end SearchBlocks

section BusAndRange

/-- Settles O19: the order by the job of any command; for a plane, each byte is one of its elements; for a search, its
reads are those of every search and at most those of some search. -/
theorem busAndRangeInOrder : Obligations.BusAndRangeInOrder := by
  refine ⟨fun i s j hc hj hmis => ?_, ?_, fun sz s hc hmis => ?_⟩
  · have h : Accesses i s j := ⟨hj, hc, (State.offWindow_iff hj hc).mpr hmis⟩
    refine ⟨h.bus_of_read, fun hr hq => ⟨h.range hq hr, fun ws hw => ⟨h.bus_of_write hq hr hw, fun hacc => ?_⟩⟩,
      writes_ne_none_of_no_range hj⟩
    exact ⟨_, h.succeeds hq hr hw hacc, rfl, by simp⟩
  · intro sz q s i f hi hpair hsrc hdst hq hsrcTop hdstTop hsrcOut hdstOut refused level
    have h : Accesses i s (jobPlane f sz s) := by
      rcases hi with ⟨rfl, rfl⟩ | ⟨rfl, rfl⟩ <;>
        exact plane_accesses rfl rfl hpair hsrc hdst hsrcTop hdstTop hsrcOut hdstOut
    have hreads : (∀ k, k < 2 * blockSize sz ^ 2 → ¬ refused (s.latch.regs.src.toNat + k)) →
        ∀ r ∈ (jobPlane f sz s).reads, ¬ State.refusesByte s r := fun hno =>
      List.forall_mem_singleton.mpr fun ⟨k, hk, href⟩ => hno k hk href
    refine ⟨fun href => h.bus_of_read ⟨_, List.mem_singleton.mpr rfl, href⟩, fun hno hbad => ?_,
      fun hno hok href => ?_⟩
    · obtain ⟨a, b, ha, hb, hval⟩ := hbad
      exact h.range hq (hreads hno)
        (checkedWrites_none ⟨_, mem_planeWrites.mpr ⟨a, b, ha, hb, rfl, rfl⟩, hval⟩)
    · exact h.bus_of_write hq (hreads hno) (checkedWrites_of_all (forall_mem_planeWrites.mpr hok))
        (refusesByte_planeWrites href _)
  · have h : Accesses (.msearch sz) s (jobMsearch sz s) := ⟨rfl, hc, (State.offWindow_iff rfl hc).mpr hmis⟩
    refine ⟨fun ⟨e, he, href⟩ => h.bus_of_read ⟨_, mem_reads_of_searchAlwaysReads he, href⟩, fun t ht hs hbus => ?_⟩
    obtain ⟨r, hr, href⟩ := msearch_read_of_bus hc ht hs hbus
    obtain ⟨e, rfl, -⟩ := mem_jobMsearch_reads.mp hr
    exact ⟨e, searchMayRead_of_mem_reads hr, href⟩

end BusAndRange

end Sys2Proof.Machine

/-! PROOFS of the statements about reset (70_reset_and_hazards.md R231, R232): soft and hardware reset are one step, only
they clear `ERR`, and what a reset leaves of the command in flight. -/

namespace Sys2Proof.Machine

section TwoResets

/-! ## The two resets are one step, and only they clear `ERR` (70_reset_and_hazards.md R231) -/

variable {s t : State}

/-- However the core's turn ends, a latched error stays: a completion keeps `ERR`, a fault sets it. -/
theorem State.turn_keeps_err (herr : s.status.err = true) (h : State.turn s = .next t) : t.status.err = true := by
  rcases State.turn_ended h with ⟨-, rfl⟩ | ⟨-, hended⟩
  · exact herr
  · rcases hended.outcome with ⟨-, hkept, -, -⟩ | ⟨-, hset, -, -⟩
    · exact hkept.trans herr
    · exact hset

/-- An event other than the two resets keeps `ERR`, also with a command in flight. -/
theorem State.event_keeps_err {e : HostEvent} (hl : s.cfg.legal = true) (herr : s.status.err = true)
    (hhard : e ≠ .hardReset) (hsoft : ∀ v, e = .write (State.regAddr s 0x004) .word v → v.getLsbD 31 = false)
    (h : State.event s e = .next t) : t.status.err = true := by
  cases e with
  | write addr size v =>
    exact (State.hostWrite_keepsError hl herr (fun ha hw => hsoft v (by rw [ha, hw])) h).err.trans herr
  | read addr size =>
    obtain ⟨d, c, rfl⟩ := State.hostRead_next h
    exact herr
  | hardReset => exact absurd rfl hhard
  | busError addr =>
    cases h
    rwa [State.busErrorAt_status]
  | coreTurn => exact State.turn_keeps_err herr h

/-- A write of `CTRL` with `SRST` set answers the reset state (10_state.md R25). -/
theorem step_softReset {v : Word} (hl : s.cfg.legal = true) (hv : v.getLsbD 31 = true) :
    step (s.hostWrites 0x004 v) = .next (State.resetCore s) :=
  step_writes hl (by decide) (by decide) (State.writeReg_ctrl_reset hv)

theorem step_hardReset (s : State) : step (s.given .hardReset) = .next (State.resetCore s) := rfl

/-- Settles O23: both resets answer `State.resetCore`, and every other event, like the core's own turn, keeps `ERR`. -/
theorem softResetIsHardwareReset : Obligations.SoftResetIsHardwareReset := by
  refine ⟨fun s v hl hv => ?_, fun s t hl herr h hcleared => ?_⟩
  · have hsoft := step_softReset hl hv
    exact ⟨hsoft.trans (step_hardReset s).symm, _, hsoft,
      step_reads (s := State.resetCore s) hl (by decide) (by decide) rfl⟩
  · by_contra hno
    obtain ⟨hhard, hsoft⟩ := not_or.mp hno
    have hkept : t.status.err = true := by
      cases hin : s.inbox with
      | nil => exact State.turn_keeps_err herr (step_of_no_event hin ▸ h)
      | cons e rest =>
        refine State.event_keeps_err (s := { s with inbox := rest }) hl herr (fun he => hhard ⟨rest, by rw [hin, he]⟩)
          (fun v he => ?_) (step_of_event hin ▸ h)
        by_contra hbit
        exact hsoft ⟨v, rest, by rw [hin, he]; rfl, (Bool.not_eq_false _).mp hbit⟩
    cases hkept.symm.trans hcleared

end TwoResets

section Abandoned

/-! ## A reset abandons the command in flight (70_reset_and_hazards.md R232) -/

/-- The bytes outside the abandoned command's write footprint survive the reset (20_memory.md R69). -/
theorem State.resetCore_byte_of_not_footprint {s : State} {a : Nat} (ha : State.inWriteFootprint s a = false) :
    Memory.byte (State.resetCore s).mem a = Memory.byte s.mem a := by
  rw [State.resetCore_mem]
  exact Memory.byte_scramble_of_not_mem _ _ _ _ (State.inWriteFootprint_eq_false.mp ha)

/-- Settles O24: the reset core is idle with every flag clear, so its next turn completes nothing. -/
theorem resetAbandonsCommand : Obligations.ResetAbandonsCommand := by
  intro s _
  refine ⟨State.resetCore s, step_hardReset s, State.resetCore_busy s, State.resetCore_done s, State.resetCore_err s,
    State.resetCore_cost s, fun a ha => State.resetCore_byte_of_not_footprint ha, ?_⟩
  exact (step_coreTurn _).trans (State.turn_of_idle (State.resetCore_busy s))

end Abandoned

end Sys2Proof.Machine
